-- ==== Sys2Proof/Word.lean ====
section
/-! DEFINITION. The word types of rc_pulse_core (spec/00_scope.md R15): command words, read-port data and addresses, train
entries. Time is an unbounded natural number of microseconds (R15, R37), a `Nat`. -/

namespace Sys2Proof

/-- A command word on the command port, 64 bits (R15, R59). -/
abbrev CmdWord := BitVec 64

/-- A read-port datum and a train entry: 32 bits, unsigned (R15). -/
abbrev Datum := BitVec 32

/-- A read-port byte address, 12 bits (R15, R60). -/
abbrev ReadAddr := BitVec 12

/-- One byte of a transport that carries a command word as bytes (R50). -/
abbrev Byte := BitVec 8

end Sys2Proof
end

