-- ==== Sys2Proof/Syntax.lean ====
section
/-! DEFINITION. The instructions of rc_pulse_core: the rows of spec/opcode_table.json, one constructor each. The operands have the
widths of their fields (spec/30_encoding.md R59, R60, R61). Fields an opcode does not use have no effect (R61), so a constructor
does not carry them. An invalid command (R65) is no row: the decoder rejects it by name. -/

namespace Sys2Proof

/-- The five commands and the read-port transaction. -/
inductive Instr where
  /-- CLAIM: take the output line (spec/42_system.md R94). -/
  | claim
  /-- ENCODE: build the delay train (spec/40_encoder.md R77). -/
  | encode (message : BitVec 32) (bits : BitVec 6)
  /-- TRANSMIT: play the train `repeats` times (spec/41_scheduler.md R80). -/
  | transmit (repeats : BitVec 16)
  /-- SEND: encode and play in one step (spec/41_scheduler.md R81). -/
  | send (message : BitVec 32) (bits : BitVec 6) (repeats : BitVec 16)
  /-- TEARDOWN: force the line LOW and release it, between frames (spec/42_system.md R96). -/
  | teardown
  /-- READ: a read-port transaction, not a command (spec/42_system.md R99). -/
  | read (addr : ReadAddr)
  deriving DecidableEq, Repr

end Sys2Proof
end

