-- ==== Sys2Proof/WellFormed.lean ====
section
/-! DEFINITION. Well-formedness. The operands of `Instr` have the widths of their fields, so every instruction is well formed and
encodable; values the block rejects when it executes them (BITS 0 or 33 to 63, REPEAT 0) are well formed, because R61 and R68
keep them expressible. The checks that can fail are those of source operands, natural numbers that must fit a field
(spec/30_encoding.md R68). The checks of the timing table (spec/00_scope.md R10) are `Table.valid` in Config. -/

namespace Sys2Proof

/-- R68: "an operand that does not fit its field" is refused; a value fits a field of `width` bits when it is below 2^width. -/
def fitsField (width value : Nat) : Bool := Nat.blt value (2 ^ width)

/-- `message >= 2^32` is refused (R68). -/
def messageFits (m : Nat) : Bool := fitsField 32 m

/-- `bits >= 64` is refused (R68). -/
def bitsFit (b : Nat) : Bool := fitsField 6 b

/-- `repeat >= 65536` is refused (R68). -/
def repeatFits (r : Nat) : Bool := fitsField 16 r

/-- `addr >= 4096` is refused (R68). -/
def addrFits (a : Nat) : Bool := fitsField 12 a

/-- A raw command word has 64 bits (R68, `.cmd`). -/
def rawFits (c : Nat) : Bool := fitsField 64 c

/-- Every instruction is well formed: its operand types carry the checks. -/
def Instr.wellFormed : Instr → Bool
  | .claim => true
  | .encode message bits => messageFits message.toNat && bitsFit bits.toNat
  | .transmit repeats => repeatFits repeats.toNat
  | .send message bits repeats => messageFits message.toNat && bitsFit bits.toNat && repeatFits repeats.toNat
  | .teardown => true
  | .read addr => addrFits addr.toNat

end Sys2Proof
end

