-- ==== Sys2Proof/Decode.lean ====
section
/-! DEFINITION. The decoder and the encoder (spec/30_encoding.md R59 to R67): total over every 64-bit word and every 12-bit
address, rejecting by name; then the encoder from the same field table, the transports of spec/20_memory.md R50, and the
host's view of a table word. -/

namespace Sys2Proof

/-- What a requester presents: a command word on the command port (R59), or an address on the read port (R60). -/
inductive Transaction where
  | command (c : CmdWord)
  | read (addr : ReadAddr)
  deriving DecidableEq, Repr

/-- Why a command word is an invalid command (R65). -/
inductive DecodeReject where
  /-- RSV0 or RSV1 is not 0. -/
  | reservedBits (rsv0 : BitVec 4) (rsv1 : BitVec 2)
  /-- The opcode is 0x0 or 0x6 to 0xF. -/
  | reservedOpcode (op : BitVec 4)
  deriving DecidableEq, Repr

/-- OP = c[3:0] (R59). -/
def opField (c : CmdWord) : BitVec 4 := c.extractLsb' 0 4
/-- RSV0 = c[7:4] (R59). -/
def rsv0Field (c : CmdWord) : BitVec 4 := c.extractLsb' 4 4
/-- BITS = c[13:8] (R59). -/
def bitsField (c : CmdWord) : BitVec 6 := c.extractLsb' 8 6
/-- RSV1 = c[15:14] (R59). -/
def rsv1Field (c : CmdWord) : BitVec 2 := c.extractLsb' 14 2
/-- REPEAT = c[31:16] (R59). -/
def repeatField (c : CmdWord) : BitVec 16 := c.extractLsb' 16 16
/-- MESSAGE = c[63:32] (R59). -/
def messageField (c : CmdWord) : BitVec 32 := c.extractLsb' 32 32

/-- The opcode map (R62), for a word whose reserved bits are 0. -/
def decodeOpcode (c : CmdWord) : Except DecodeReject Instr :=
  match (opField c).toNat with
  | 1 => .ok .claim
  | 2 => .ok (.encode (messageField c) (bitsField c))
  | 3 => .ok (.transmit (repeatField c))
  | 4 => .ok (.send (messageField c) (bitsField c) (repeatField c))
  | 5 => .ok .teardown
  | _ => .error (.reservedOpcode (opField c))

/-- The decoder of command words (R62, R65, R66): total over all 2^64 words. -/
def decodeCommand (c : CmdWord) : Except DecodeReject Instr :=
  if rsv0Field c = 0#4 ∧ rsv1Field c = 0#2 then decodeOpcode c
  else .error (.reservedBits (rsv0Field c) (rsv1Field c))

/-- The decoder of what a requester presents: every 12-bit address is a READ (R60, R67). -/
def decode : Transaction → Except DecodeReject Instr
  | .command c => decodeCommand c
  | .read addr => .ok (.read addr)

/-- `wf_teardown(c)` (R63): the exact pattern OP = 5, RSV0 = 0, RSV1 = 0. -/
def wfTeardown (c : CmdWord) : Bool :=
  opField c == 5#4 && rsv0Field c == 0#4 && rsv1Field c == 0#2

/-- The mask of a command row of the opcode table (R62). -/
def rowMask : CmdWord := 0x000000000000C0FF#64

/-- R62: the word matches the command row of opcode `n`. -/
def matchesRow (n : Nat) (c : CmdWord) : Bool := c &&& rowMask == BitVec.ofNat 64 n

/-- A command word from its fields: MESSAGE in bits 63..32, REPEAT in 31..16, BITS in 13..8, OP in 3..0 (R59). Reserved bits are
0. -/
def packCommand (op : BitVec 4) (bits : BitVec 6) (repeats : BitVec 16) (message : BitVec 32) : CmdWord :=
  (message.setWidth 64 <<< 32) ||| (repeats.setWidth 64 <<< 16) ||| (bits.setWidth 64 <<< 8) ||| op.setWidth 64

/-- The encoder. Unused fields and reserved bits are written as 0 (R68). -/
def encode : Instr → Transaction
  | .claim => .command (packCommand 1#4 0#6 0#16 0#32)
  | .encode message bits => .command (packCommand 2#4 bits 0#16 message)
  | .transmit repeats => .command (packCommand 3#4 0#6 repeats 0#32)
  | .send message bits repeats => .command (packCommand 4#4 bits repeats message)
  | .teardown => .command (packCommand 5#4 0#6 0#16 0#32)
  | .read addr => .read addr

/-- A transport that carries a command as bytes: least significant byte first, and the whole word must be delivered (R50). -/
def commandOfBytes : List Byte → Option CmdWord
  | [b0, b1, b2, b3, b4, b5, b6, b7] =>
    some (b0.setWidth 64 ||| (b1.setWidth 64 <<< 8) ||| (b2.setWidth 64 <<< 16) ||| (b3.setWidth 64 <<< 24) |||
      (b4.setWidth 64 <<< 32) ||| (b5.setWidth 64 <<< 40) ||| (b6.setWidth 64 <<< 48) ||| (b7.setWidth 64 <<< 56))
  | _ => none

/-- The bytes of a command word, least significant first (R50). -/
def bytesOfCommand (c : CmdWord) : List Byte :=
  [c.extractLsb' 0 8, c.extractLsb' 8 8, c.extractLsb' 16 8, c.extractLsb' 24 8,
   c.extractLsb' 32 8, c.extractLsb' 40 8, c.extractLsb' 48 8, c.extractLsb' 56 8]

/-- A transport that carries a command as 32-bit halves: the least significant half first (R50). -/
def commandOfHalves : List Datum → Option CmdWord
  | [lo, hi] => some (lo.setWidth 64 ||| (hi.setWidth 64 <<< 32))
  | _ => none

/-- The decoder on the bytes of a transport: `none` while the word is not wholly delivered (R50), else what the word decodes to. -/
def decodeBytes (bytes : List Byte) : Option (Except DecodeReject Instr) :=
  (commandOfBytes bytes).map decodeCommand

/-- Does the decoder accept the word as one of the five commands? -/
def isCommand (c : CmdWord) : Bool :=
  match decodeCommand c with
  | .ok _ => true
  | .error _ => false

/-- The transaction a table word of `nbits` bits stands for (notes/assumptions/14.md). Bits at and above `nbits` are 0. A word of
at most 12 bits is a read address. A word of 13 to 16 bits is the table's 12-bit row rounded up to bytes unless it reads as one
of the five commands; every other word is a command word. -/
def tableTransaction (nbits w : Nat) : Transaction :=
  let v := w % 2 ^ nbits
  let c := BitVec.ofNat 64 v
  if nbits ≤ 12 then .read (BitVec.ofNat 12 v)
  else if nbits ≤ 16 ∧ v < 4096 ∧ isCommand c = false then .read (BitVec.ofNat 12 v)
  else .command c

/-- The host's view of the decoder: a command word goes through the bytes of its transport (R50). -/
def decodeTableWord (nbits w : Nat) : Option Instr :=
  match tableTransaction nbits w with
  | .read addr => (decode (.read addr)).toOption
  | .command c => (decodeBytes (bytesOfCommand c)).bind Except.toOption

end Sys2Proof
end

