-- ==== Sys2Proof/Machine/Turn.lean ====
section
/-! DEFINITION. The turns that the agents of spec/00_scope.md R17 take, one atomic step each (R17, R54). Which turn comes next is
open in the spec (R64, R104): `State` holds the turns to come as plain data (notes/assumptions/1.md). -/

namespace Sys2Proof.Machine

/-- One turn of one agent. -/
inductive Turn where
  /-- Requester `h` presents the command word `c` on the command port (spec/10_state.md R38). -/
  | present (h : Nat) (c : CmdWord)
  /-- The port offers acceptance to requester `h`: ACCEPT(h) (spec/30_encoding.md R63). -/
  | accept (h : Nat)
  /-- Requester `h` reads the read port at `addr` (spec/42_system.md R99). -/
  | read (h : Nat) (addr : ReadAddr)
  /-- Requester `h` attempts to write the read space: no operation of the block (spec/20_memory.md R48). -/
  | write (h : Nat) (addr : ReadAddr) (datum : Datum)
  /-- The sequencer takes the step it has enabled: FRAME_POLL, GAP_END or TEARDOWN_APPLY (R17). -/
  | sequence
  /-- The clock takes TICK (spec/60_exceptions.md R109). -/
  | tick
  /-- The external reset (spec/70_reset_and_hazards.md R117). -/
  | reset
  deriving DecidableEq, Repr, Inhabited

end Sys2Proof.Machine
end

