-- ==== Sys2Proof/Config.lean ====
section
/-! DEFINITION. What a realisation of rc_pulse_core fixes when it is built (spec/00_scope.md R10 to R14) and the free values:
opaque constants that stand for what the spec leaves open, so that nothing can be proved of their values. -/

namespace Sys2Proof

/-- A symbol of the timing table: how many pulse units it holds HIGH, then LOW (R10). -/
structure Symbol where
  high : BitVec 16
  low : BitVec 16
  deriving DecidableEq, Repr

/-- The protocol timing table TABLE (R10, spec/10_state.md R22). -/
structure Table where
  unit : BitVec 16
  sync : Symbol
  zero : Symbol
  one : Symbol
  deriving DecidableEq, Repr

/-- A symbol whose two counts are at least 1. -/
def Symbol.valid (y : Symbol) : Bool := Nat.ble 1 y.high.toNat && Nat.ble 1 y.low.toNat

/-- R10: "A valid TABLE has `unit >= 1` and every count `>= 1`". -/
def Table.valid (t : Table) : Bool :=
  Nat.ble 1 t.unit.toNat && t.sync.valid && t.zero.valid && t.one.valid

/-- The configuration of one realisation. It carries the proof that it is a valid one, so that an invalid configuration is
refused when it is elaborated (R10, R14, spec/70_reset_and_hazards.md R119). -/
structure Config where
  table : Table
  /-- GAP_JITTER_MAX, in microseconds (R12). -/
  gapJitterMax : Nat
  /-- LAG_MAX, in microseconds (R13). -/
  lagMax : Nat
  /-- N_REQ, the number of requesters (R14). -/
  nReq : Nat
  /-- LINE_ID, read by PlatformGrant only (R14). -/
  lineId : Nat
  tableValid : table.valid = true := by decide
  nReqPos : 1 ≤ nReq := by decide
  deriving DecidableEq, Repr

/-- The default TABLE: `unit = 350`, `sync = (1, 31)`, `zero = (1, 3)`, `one = (3, 1)` (R10). -/
def Table.default : Table :=
  { unit := 350#16, sync := ⟨1#16, 31#16⟩, zero := ⟨1#16, 3#16⟩, one := ⟨3#16, 1#16⟩ }

/-- The configuration of the state after reset: the spec's values for this hardware (R10, R12, R13). N_REQ = 2 and LINE_ID = 0
are DESIGN CHOICES (notes/assumptions/7.md); no rule depends on them, and the statements hold for every configuration. -/
def Config.thisHardware : Config :=
  { table := Table.default, gapJitterMax := 350, lagMax := 0, nReq := 2, lineId := 0 }

/-- FREE VALUE (notes/assumptions/1.md): which agent takes the next turn when `State` lists none (R17, R64, R104). -/
opaque Config.freeTurn : Nat → Machine.Turn

/-- FREE VALUE (notes/assumptions/3.md): the platform's answer to PlatformGrant(LINE_ID), the first argument being LINE_ID
(spec/42_system.md R95). -/
opaque Config.freeGrant : Nat → Nat → Bool

/-- FREE VALUE (notes/assumptions/4.md): a gap-jitter draw, before it is brought into range (spec/41_scheduler.md R83). -/
opaque Config.freeJitter : Nat → Nat

/-- FREE VALUE (notes/assumptions/5.md): what a read of a train entry not written since reset returns (spec/20_memory.md R47). -/
opaque Config.freeWord : Nat → Datum

end Sys2Proof
end

