-- ==== Sys2Proof/Machine/State.lean ====
section
/-! DEFINITION. The state of rc_pulse_core: every piece spec/10_state.md R21 lists, each under the name its rule gives it; the
observation of spec/00_scope.md R18; and the model's own `Environment`, which holds the choices that the spec leaves to the
agents as plain data (notes/assumptions/1.md). -/

namespace Sys2Proof.Machine

/-- A level of the output line (spec/10_state.md R33). -/
inductive Level where
  | low
  | high
  deriving DecidableEq, Repr

/-- LOW = 0, HIGH = 1 (spec/00_scope.md R16). -/
def Level.bit : Level → BitVec 1
  | .low => 0#1
  | .high => 1#1

/-- `not level` (spec/41_scheduler.md R82). -/
def Level.flip : Level → Level
  | .low => .high
  | .high => .low

/-- The sequencer state `st` (spec/10_state.md R23). -/
inductive Phase where
  | idle
  | frame
  | gap
  deriving DecidableEq, Repr

/-- The two bits of `st`: IDLE 0, FRAME 1, GAP 2; the value 3 never occurs (R23). -/
def Phase.code : Phase → BitVec 2
  | .idle => 0#2
  | .frame => 1#2
  | .gap => 2#2

/-- The named result codes (spec/60_exceptions.md R100). Codes 5 to 7 are reserved and never produced, so they have no name
(notes/assumptions/11.md). -/
inductive ResultCode where
  | ok
  | invalidArgument
  /-- Code 2: named by the spec and never produced by this hardware (spec/40_encoder.md R74). -/
  | resourceExhausted
  | hardwareUnavailable
  | cancelledBetweenRepeats
  deriving DecidableEq, Repr

/-- The three bits of a result code (R100). -/
def ResultCode.code : ResultCode → BitVec 3
  | .ok => 0#3
  | .invalidArgument => 1#3
  | .resourceExhausted => 2#3
  | .hardwareUnavailable => 3#3
  | .cancelledBetweenRepeats => 4#3

/-- The requester-side state (spec/10_state.md R38). -/
structure Requester where
  /-- the command word presented on the command port, if any -/
  pending : Option CmdWord
  /-- a command was accepted and its response has not come yet -/
  waiting : Bool
  /-- the result codes delivered, oldest first -/
  resp : List ResultCode
  deriving DecidableEq, Repr

/-- A requester after reset (R38). -/
def Requester.reset : Requester := { pending := none, waiting := false, resp := [] }

/-- The train RAM: the entries written since reset as (index, value) pairs, indices strictly rising (spec/10_state.md R34,
notes/assumptions/9.md). An index that is not listed has not been written since reset. -/
abbrev TrainRam := List (Nat × Datum)

/-- One line write of the history: its instant and its level (spec/60_exceptions.md R112). -/
structure LineWrite where
  time : Nat
  level : Level
  deriving DecidableEq, Repr

/-- One answered read of the read port (spec/00_scope.md R18). -/
structure ReadRecord where
  requester : Nat
  addr : ReadAddr
  datum : Datum
  deriving DecidableEq, Repr

/-- The MODEL's own fields: the environment's choices, no state of the spec. When a list is empty, the next choice is a free
value of Config, applied to `draws`. -/
structure Environment where
  /-- the turns to come (R17, R64; notes/assumptions/1.md) -/
  agenda : List Turn
  /-- the platform's next answers to PlatformGrant (spec/42_system.md R95; notes/assumptions/3.md) -/
  grants : List Bool
  /-- the next gap-jitter draws, brought into range when they are used (spec/41_scheduler.md R83; notes/assumptions/4.md) -/
  jitters : List Nat
  /-- what the next reads of unwritten train entries return (spec/20_memory.md R47; notes/assumptions/5.md) -/
  words : List Datum
  /-- how many free values have been taken -/
  draws : Nat
  /-- the requester whose command or read is being executed (notes/assumptions/19.md) -/
  serving : Nat
  deriving DecidableEq, Repr

/-- The environment of the state after reset: nothing decided yet. -/
def Environment.reset : Environment :=
  { agenda := [], grants := [], jitters := [], words := [], draws := 0, serving := 0 }

/-- The complete state (spec/10_state.md R21), the observation, and the model's environment. -/
structure State where
  /-- TABLE, GAP_JITTER_MAX, LAG_MAX, N_REQ, LINE_ID: constant (R21, R22) -/
  cfg : Config
  /-- R23 -/
  st : Phase
  /-- R24: the index of the next train entry to consume -/
  idx : BitVec 7
  /-- R25 -/
  nextLevel : Level
  /-- R26 -/
  deadline : Nat
  /-- R27 -/
  frameStart : Nat
  /-- R28 -/
  gapEnd : Nat
  /-- R29 -/
  repeatTotal : BitVec 16
  /-- R29 -/
  framesDone : BitVec 16
  /-- R30 -/
  sessOwner : Nat
  /-- R31 -/
  tdPending : Bool
  /-- R31 -/
  tdOwner : Nat
  /-- R32 -/
  claimed : Bool
  /-- R33 -/
  level : Level
  /-- R34 -/
  train : TrainRam
  /-- R35 -/
  trainLen : BitVec 7
  /-- R36 -/
  err : ResultCode
  /-- R37 -/
  now : Nat
  /-- R38, one for each requester -/
  requesters : List Requester
  /-- the line history (spec/60_exceptions.md R112): observation, not hardware state -/
  history : List LineWrite
  /-- the answered reads, oldest first (R18): observation, not hardware state -/
  reads : List ReadRecord
  /-- the model's own fields -/
  env : Environment
  deriving DecidableEq, Repr

/-- Why the machine stops with a fault: never. The block has no traps (spec/60_exceptions.md R105) and no state is stuck
(spec/93_implementation_defined.md section 4), so there is no constructor. -/
inductive Fault where
  deriving DecidableEq, Repr

/-- Why a step has no meaning. -/
inductive Refusal where
  /-- An instruction without a meaning; no arm of `exec` raises it. Safe. -/
  | notModelled (mnemonic : String)
  /-- R48: "refused: read space is read-only". Raised by the step of a turn that attempts to write the read space, which is no
  operation of the block. Safe. -/
  | readSpaceReadOnly
  deriving DecidableEq, Repr

/-- The state right after reset of a block of configuration `cfg` (spec/70_reset_and_hazards.md R117): every field at the reset
value of its rule. `sessOwner` and `tdOwner`, which the spec leaves unspecified, are 0 (DESIGN CHOICE,
notes/assumptions/6.md). No train entry is written, so each reads as a free value. -/
def State.boot (cfg : Config) : State :=
  { cfg := cfg
    st := .idle, idx := 0#7, nextLevel := .high
    deadline := 0, frameStart := 0, gapEnd := 0
    repeatTotal := 0#16, framesDone := 0#16, sessOwner := 0
    tdPending := false, tdOwner := 0
    claimed := false, level := .low
    train := [], trainLen := 0#7
    err := .ok, now := 0
    requesters := List.replicate cfg.nReq Requester.reset
    history := [], reads := []
    env := Environment.reset }

/-- The machine right after reset, with the configuration values of this hardware. -/
def State.reset : State := State.boot Config.thisHardware

end Sys2Proof.Machine
end

