-- ==== Sys2Proof/Machine/Ops.lean ====
section
/-! DEFINITION. The named operations on the state: the train RAM, the requesters and `Respond`, `LineWrite`, the draws, and the
one shared way in which a command ends with a result code. The block has no traps (spec/60_exceptions.md R105, R106): delivering
a result code is its whole exception mechanism, and there is nothing to return from. -/

namespace Sys2Proof.Machine

/-! ### The train RAM (spec/10_state.md R34) -/

/-- TRAIN_DEPTH = 2*MAX_BITS + 1 (spec/00_scope.md R8, R9). -/
def trainDepth : Nat := 65

/-- The value of entry `i`, if an encode step has written it since reset. -/
def TrainRam.entry? : TrainRam → Nat → Option Datum
  | [], _ => none
  | (j, v) :: rest, i => if i = j then some v else TrainRam.entry? rest i

/-- `train[i] <- v`, keeping the indices strictly rising. -/
def TrainRam.write : TrainRam → Nat → Datum → TrainRam
  | [], i, v => [(i, v)]
  | (j, w) :: rest, i, v =>
    if i < j then (i, v) :: (j, w) :: rest
    else if i = j then (i, v) :: rest
    else (j, w) :: TrainRam.write rest i v

/-- `train[i] <- T[0], train[i+1] <- T[1], ...` for a list `T` of values. -/
def TrainRam.writeFrom (ram : TrainRam) (i : Nat) : List Datum → TrainRam
  | [] => ram
  | v :: rest => TrainRam.writeFrom (TrainRam.write ram i v) (i + 1) rest

/-- Every index is at least `lo`, below TRAIN_DEPTH, and larger than the one before it. -/
def TrainRam.wfFrom (lo : Nat) : TrainRam → Bool
  | [] => true
  | (j, _) :: rest => decide (lo ≤ j) && decide (j < trainDepth) && TrainRam.wfFrom (j + 1) rest

/-- The canonical form of the train RAM: indices strictly rising, all below 65. -/
def TrainRam.wf (ram : TrainRam) : Bool := TrainRam.wfFrom 0 ram

/-! ### The draws (spec/00_scope.md R16) -/

/-- Count one free value as taken when `fresh` holds. -/
def Environment.countDraw (e : Environment) (fresh : Bool) : Nat := bif fresh then e.draws + 1 else e.draws

/-- The answer `g` the platform gives to the next PlatformGrant(LINE_ID) (spec/42_system.md R95). -/
def State.grantAnswer (s : State) : Bool := s.env.grants.headD (Config.freeGrant s.cfg.lineId s.env.draws)

/-- The platform has answered: the next request gets another answer. -/
def State.takeGrant (s : State) : State :=
  { s with env := { s.env with grants := s.env.grants.tail, draws := s.env.countDraw s.env.grants.isEmpty } }

/-- `draw j in [0, GAP_JITTER_MAX]` (spec/41_scheduler.md R83): every value of the range, and no other, can be drawn. -/
def State.jitterDraw (s : State) : Nat :=
  s.env.jitters.headD (Config.freeJitter s.env.draws) % (s.cfg.gapJitterMax + 1)

/-- The jitter has been drawn: the next gap gets another draw. -/
def State.takeJitter (s : State) : State :=
  { s with env := { s.env with jitters := s.env.jitters.tail, draws := s.env.countDraw s.env.jitters.isEmpty } }

/-- `draw v in [0, 2^32 - 1]`, for a train entry not written since reset (spec/20_memory.md R47). -/
def State.wordDraw (s : State) : Datum := s.env.words.headD (Config.freeWord s.env.draws)

/-- The unspecified value has been drawn: the next such read gets another. -/
def State.takeWord (s : State) : State :=
  { s with env := { s.env with words := s.env.words.tail, draws := s.env.countDraw s.env.words.isEmpty } }

/-- What a read of `train[i]` gives: the written value, else a draw (spec/10_state.md R34). -/
def State.trainValue (s : State) (i : Nat) : Datum := (s.train.entry? i).getD s.wordDraw

/-- The state after a read of `train[i]`: a draw is used up when the entry is unwritten, and nothing else changes. -/
def State.trainTaken (s : State) (i : Nat) : State := bif (s.train.entry? i).isNone then s.takeWord else s

/-- The next turn: the agenda's first, else a free value (spec/00_scope.md R17, spec/30_encoding.md R64). -/
def State.nextTurn (s : State) : Turn := s.env.agenda.headD (Config.freeTurn s.env.draws)

/-- The turn has been taken from the agenda, or drawn. -/
def State.takeTurn (s : State) : State :=
  { s with env := { s.env with agenda := s.env.agenda.tail, draws := s.env.countDraw s.env.agenda.isEmpty } }

/-! ### The requesters (spec/10_state.md R38) -/

/-- Requester `h`, if the block has one of that number. -/
def State.requesterAt (s : State) (h : Nat) : Option Requester := s.requesters[h]?

/-- Change requester `h`, and no other. -/
def State.updateRequester (s : State) (h : Nat) (f : Requester → Requester) : State :=
  { s with requesters := s.requesters.modify h f }

/-- `pending[h]`. -/
def State.pendingOf (s : State) (h : Nat) : Option CmdWord := (s.requesterAt h).bind Requester.pending

/-- R38: a requester may present a new command only when `pending[h]` is empty and `waiting[h] = 0`. -/
def Requester.mayPresent (r : Requester) : Bool := r.pending.isNone && !r.waiting

/-- A requester presents the word, where it may. -/
def Requester.presenting (c : CmdWord) (r : Requester) : Requester :=
  bif r.mayPresent then { r with pending := some c } else r

/-- Requester `h` presents a command word. -/
def State.present (s : State) (h : Nat) (c : CmdWord) : State := s.updateRequester h (Requester.presenting c)

/-- `pending[h] <- empty; waiting[h] <- 1` (spec/30_encoding.md R63). -/
def Requester.accepted (r : Requester) : Requester := { r with pending := none, waiting := true }

/-- The first two writes of ACCEPT(h); `serving` names the requester whose command is then executed. -/
def State.beginAccept (s : State) (h : Nat) : State :=
  { s with requesters := s.requesters.modify h Requester.accepted, env := { s.env with serving := h } }

/-- A read of requester `h` is being answered. -/
def State.serve (s : State) (h : Nat) : State := { s with env := { s.env with serving := h } }

/-- `resp <- resp ++ [code]; waiting <- 0` (spec/60_exceptions.md R101). -/
def Requester.responded (code : ResultCode) (r : Requester) : Requester :=
  { r with waiting := false, resp := r.resp ++ [code] }

/-- `Respond(h, code)` (R101). -/
def State.respond (s : State) (h : Nat) (code : ResultCode) : State := s.updateRequester h (Requester.responded code)

/-- How every command that ends at its acceptance ends, with OK or with an error: `err <- code; Respond(h, code)` (R101, R102,
R105). -/
def State.complete (s : State) (code : ResultCode) : State :=
  { s.respond s.env.serving code with err := code }

/-! ### The line (spec/60_exceptions.md R111, R112) -/

/-- `LineWrite(v)`: `level <- v; history <- history ++ [(now, v)]`. It "requires claimed = 1", and "while claimed = 0, the block
... makes no line write" (spec/10_state.md R32): a LineWrite of an unclaimed block, which no reachable state makes, writes
nothing (notes/assumptions/10.md). -/
def State.lineWrite (s : State) (v : Level) : State :=
  { s with
    level := bif s.claimed then v else s.level
    history := bif s.claimed then s.history ++ [⟨s.now, v⟩] else s.history }

/-- Take the line and drive it LOW: `claimed <- 1; LineWrite(LOW)` (spec/42_system.md R94). -/
def State.takeLine (s : State) : State := ({ s with claimed := true }).lineWrite .low

/-- Force the line LOW and release it, if it is claimed (spec/42_system.md R97). -/
def State.releaseLine (s : State) : State :=
  bif s.claimed then { s.lineWrite .low with claimed := false } else s

/-! ### The read port and reset -/

/-- The datum goes to the requester that reads; the block's own state does not change (spec/42_system.md R99). -/
def State.logRead (s : State) (addr : ReadAddr) (datum : Datum) : State :=
  { s with reads := s.reads ++ [⟨s.env.serving, addr, datum⟩] }

/-- Reset (spec/70_reset_and_hazards.md R117): every field of the block, the requesters and the observation; what the environment
has still to decide is not the block's. -/
def State.resetBlock (s : State) : State := { State.boot s.cfg with env := s.env }

end Sys2Proof.Machine
end

