-- ==== Sys2Proof/Machine/Operands.lean ====
section
/-! DEFINITION. The operand checks of the commands (spec/60_exceptions.md R103, items 2 and 3) and the operand of READ. Every
operand is an unsigned field, with no extension, scaling or shifting (spec/30_encoding.md R61). -/

namespace Sys2Proof.Machine

/-- MAX_BITS (spec/00_scope.md R8). -/
def maxBits : Nat := 32

/-- A bit width in `[1, 32]` (R8, spec/40_encoder.md R77). -/
def bitsInRange (bits : BitVec 6) : Bool := Nat.ble 1 bits.toNat && Nat.ble bits.toNat maxBits

/-- The argument check of TRANSMIT passes: `repeat` is not 0 and a train has been encoded (spec/41_scheduler.md R80). -/
def State.transmitArgsValid (s : State) (repeats : BitVec 16) : Bool :=
  repeats != 0#16 && s.trainLen != 0#7

/-- The argument check of SEND passes: the whole message is nonzero, the width is in range and `repeat` is not 0
(spec/41_scheduler.md R81). -/
def sendArgsValid (message : BitVec 32) (bits : BitVec 6) (repeats : BitVec 16) : Bool :=
  message != 0#32 && bitsInRange bits && repeats != 0#16

/-- `w = addr[11:2]`: the word index of a read address; `addr[1:0]` is ignored (spec/20_memory.md R47, R51). -/
def readWordIndex (addr : ReadAddr) : Nat := (addr.extractLsb' 2 10).toNat

end Sys2Proof.Machine
end

