-- ==== Sys2Proof/Machine/Flags.lean ====
section
/-! DEFINITION. The status and control registers: read-only words computed from the state at the instant of the read
(spec/10_state.md R39 to R43). The block has no condition codes (R43). -/

namespace Sys2Proof.Machine

/-- One bit of a register, from a flag. -/
def flagBit (b : Bool) : BitVec 1 := bif b then 1#1 else 0#1

/-- STATUS (R39): `zext_32(train_len) << 16 | zext_32(err) << 8 | td_pending << 4 | claimed << 3 | level << 2 | st`. -/
def State.statusWord (s : State) : Datum :=
  (s.trainLen.setWidth 32 <<< 16) ||| (s.err.code.setWidth 32 <<< 8) ||| ((flagBit s.tdPending).setWidth 32 <<< 4) |||
    ((flagBit s.claimed).setWidth 32 <<< 3) ||| (s.level.bit.setWidth 32 <<< 2) ||| s.st.code.setWidth 32

/-- FRAMES (R40): `frames_done` in bits 15..0, `repeat_total` in bits 31..16. -/
def State.framesWord (s : State) : Datum := (s.repeatTotal.setWidth 32 <<< 16) ||| s.framesDone.setWidth 32

/-- CFG_UNIT (R41). -/
def Table.unitWord (t : Table) : Datum := t.unit.setWidth 32

/-- CFG_SYNC, CFG_ZERO and CFG_ONE (R41): the LOW count in bits 31..16, the HIGH count in bits 15..0. -/
def symbolWord (y : Symbol) : Datum := (y.low.setWidth 32 <<< 16) ||| y.high.setWidth 32

/-- BUSY: `st != IDLE` (R23). -/
def State.busy (s : State) : Bool := s.st != .idle

/-- Is the word index one of TRAIN[0..64] (spec/20_memory.md R46)? -/
def isTrainWord (w : Nat) : Bool := Nat.ble 64 w && Nat.ble w 128

/-- `MemRead(addr, 4)` (spec/20_memory.md R47). -/
def State.memRead (s : State) (addr : ReadAddr) : Datum :=
  let w := readWordIndex addr
  if w = 0 then s.statusWord
  else if w = 1 then s.framesWord
  else if w = 2 then Table.unitWord s.cfg.table
  else if w = 3 then symbolWord s.cfg.table.sync
  else if w = 4 then symbolWord s.cfg.table.zero
  else if w = 5 then symbolWord s.cfg.table.one
  else bif isTrainWord w then s.trainValue (w - 64)
  else 0#32

/-- The state after that read: a draw is used up when it read an unwritten train entry, and nothing else changes. -/
def State.memReadTaken (s : State) (addr : ReadAddr) : State :=
  bif isTrainWord (readWordIndex addr) then s.trainTaken (readWordIndex addr - 64) else s

end Sys2Proof.Machine
end

