-- ==== Sys2Proof/Machine/Encoder.lean ====
section
/-! DEFINITION. The pulse encoder (spec/40_encoder.md): symbol durations, the encoding function, the encode step and ENCODE. -/

namespace Sys2Proof.Machine

/-- `hi_us(sym) = zext_32(sym.high) * zext_32(unit)` (R71). -/
def hiUs (t : Table) (y : Symbol) : Datum := y.high.setWidth 32 * t.unit.setWidth 32

/-- `lo_us(sym) = zext_32(sym.low) * zext_32(unit)` (R71). -/
def loUs (t : Table) (y : Symbol) : Datum := y.low.setWidth 32 * t.unit.setWidth 32

/-- SYNC_LOW_US, the nominal gap (spec/00_scope.md R11). -/
def syncLowUs (t : Table) : Nat := (loUs t t.sync).toNat

/-- The symbol of message bit `k`: `one` if it is 1, else `zero` (R72). -/
def symbolOf (t : Table) (message : BitVec 32) (k : Nat) : Symbol := bif message.getLsbD k then t.one else t.zero

/-- The data part of a train of `n` bits: for bits `n-1` down to 0, the hold-HIGH and then the hold-LOW duration (R72). -/
def dataEntries (t : Table) (message : BitVec 32) : Nat → List Datum
  | 0 => []
  | k + 1 => hiUs t (symbolOf t message k) :: loUs t (symbolOf t message k) :: dataEntries t message k

/-- `encode_train(message, bits)` (R72): the data part, then the sync symbol's HIGH; its LOW is not in the train (R76). -/
def encodeTrain (t : Table) (message : BitVec 32) (bits : Nat) : List Datum :=
  dataEntries t message bits ++ [hiUs t t.sync]

/-- `encode_step(message, bits)` (R74): entries `0 .. 2*bits` are written, the others keep their contents. -/
def State.encodeStep (s : State) (message : BitVec 32) (bits : BitVec 6) : State :=
  { s with
    train := s.train.writeFrom 0 (encodeTrain s.cfg.table message bits.toNat)
    trainLen := BitVec.ofNat 7 (2 * bits.toNat + 1) }

/-- `execute_ENCODE` (R77). -/
def execEncode (message : BitVec 32) (bits : BitVec 6) (s : State) : Host.Outcome State Fault Refusal :=
  .next (bif bitsInRange bits then (s.encodeStep message bits).complete .ok
    else s.complete .invalidArgument)

end Sys2Proof.Machine
end

