-- ==== Sys2Proof/Machine/Scheduler.lean ====
section
/-! DEFINITION. The transmission scheduler's commands (spec/41_scheduler.md R78 to R81): TRANSMIT, SEND and the start of a session
and of a frame. -/

namespace Sys2Proof.Machine

/-- `frame_start()` (R79). -/
def State.beginFrame (s : State) : State :=
  { ({ s with st := .frame }).lineWrite .low with
    frameStart := s.now, deadline := s.now, idx := 0#7, nextLevel := .high }

/-- `start_session(r, h)` (R78); `waiting[h]` stays 1. -/
def State.startSession (s : State) (repeats : BitVec 16) (h : Nat) : State :=
  ({ s with repeatTotal := repeats, framesDone := 0#16, sessOwner := h, err := .ok }).beginFrame

/-- `execute_TRANSMIT` (R80). -/
def execTransmit (repeats : BitVec 16) (s : State) : Host.Outcome State Fault Refusal :=
  .next (bif !s.transmitArgsValid repeats then s.complete .invalidArgument
    else bif !s.claimed then s.complete .hardwareUnavailable
    else s.startSession repeats s.env.serving)

/-- `execute_SEND` (R81): all checks come before the encode step. -/
def execSend (message : BitVec 32) (bits : BitVec 6) (repeats : BitVec 16) (s : State) : Host.Outcome State Fault Refusal :=
  .next (bif !sendArgsValid message bits repeats then s.complete .invalidArgument
    else bif !s.claimed then s.complete .hardwareUnavailable
    else (s.encodeStep message bits).startSession repeats s.env.serving)

end Sys2Proof.Machine
end

