-- ==== Sys2Proof/Machine/System.lean ====
section
/-! DEFINITION. The system commands CLAIM and TEARDOWN, the READ transaction (spec/42_system.md), and the effect of an invalid
command (spec/30_encoding.md R65). -/

namespace Sys2Proof.Machine

/-- What CLAIM does once the platform has answered `granted` (R94). -/
def State.claimAnswered (s : State) (granted : Bool) : State :=
  bif granted then s.takeLine.complete .ok
  else s.complete .hardwareUnavailable

/-- `execute_CLAIM` (R94): a claimed line needs no platform request. -/
def execClaim (s : State) : Host.Outcome State Fault Refusal :=
  .next (bif s.claimed then s.complete .ok else s.takeGrant.claimAnswered s.grantAnswer)

/-- `execute_TEARDOWN` (R96): the effect is TEARDOWN_APPLY, and `waiting[h]` stays 1. -/
def execTeardown (s : State) : Host.Outcome State Fault Refusal :=
  .next { s with tdPending := true, tdOwner := s.env.serving }

/-- `READ(h, addr)` (R99): the datum is returned, and the block's state does not change. -/
def execRead (addr : ReadAddr) (s : State) : Host.Outcome State Fault Refusal :=
  .next ((s.memReadTaken addr).logRead addr (s.memRead addr))

/-- `execute_invalid(c, h)` (spec/30_encoding.md R65). -/
def execInvalid (s : State) : Host.Outcome State Fault Refusal := .next (s.complete .invalidArgument)

end Sys2Proof.Machine
end

