-- ==== Sys2Proof/Machine/Dispatch.lean ====
section
/-! DEFINITION. The meaning of each instruction: what `execute(c, h)` does (spec/30_encoding.md R63), `h` being the requester the
state is serving. -/

namespace Sys2Proof.Machine

def exec (i : Instr) (s : State) : Host.Outcome State Fault Refusal :=
  match i with
  | .claim => Sys2Proof.Machine.execClaim s
  | .encode message bits => Sys2Proof.Machine.execEncode message bits s
  | .transmit repeats => Sys2Proof.Machine.execTransmit repeats s
  | .send message bits repeats => Sys2Proof.Machine.execSend message bits repeats s
  | .teardown => Sys2Proof.Machine.execTeardown s
  | .read addr => Sys2Proof.Machine.execRead addr s

end Sys2Proof.Machine
end

