-- ==== Sys2Proof/Machine/Sequencer.lean ====
section
/-! DEFINITION. The sequencer's steps FRAME_POLL, GAP_END (spec/41_scheduler.md R82 to R85) and TEARDOWN_APPLY
(spec/42_system.md R97), their enabling conditions and urgency (R93), and TICK (spec/60_exceptions.md R109). -/

namespace Sys2Proof.Machine

/-- FRAME_POLL, toggle branch, is enabled (R82). -/
def State.toggleEnabled (s : State) : Bool :=
  s.st == .frame && Nat.ble s.deadline s.now && Nat.blt s.idx.toNat s.trainLen.toNat

/-- FRAME_POLL, end branch, is enabled (R83). -/
def State.frameEndEnabled (s : State) : Bool :=
  s.st == .frame && Nat.ble s.deadline s.now && s.idx == s.trainLen

/-- GAP_END is enabled (R84). -/
def State.gapEndEnabled (s : State) : Bool :=
  s.st == .gap && Nat.ble s.gapEnd s.now && !s.tdPending

/-- TEARDOWN_APPLY is enabled (spec/42_system.md R97). -/
def State.teardownApplyEnabled (s : State) : Bool := s.tdPending && s.st != .frame

/-- FRAME_POLL, toggle branch (R82): the deadline advances from the previous deadline, not from `now`. -/
def State.framePollToggle (s : State) : State :=
  { (s.trainTaken s.idx.toNat).lineWrite s.nextLevel with
    deadline := s.deadline + (s.trainValue s.idx.toNat).toNat
    idx := s.idx + 1#7
    nextLevel := s.nextLevel.flip }

/-- FRAME_POLL, end branch (R83): `gap_end <- now + SYNC_LOW_US + j`. -/
def State.framePollEnd (s : State) : State :=
  { s.takeJitter.lineWrite .low with
    framesDone := s.framesDone + 1#16
    st := .gap
    gapEnd := s.now + syncLowUs s.cfg.table + s.jitterDraw }

/-- The session ends with `code`: its owner gets the code, `err` holds it (spec/10_state.md R36), and the block is IDLE. -/
def State.endSession (s : State) (code : ResultCode) : State :=
  { s.respond s.sessOwner code with err := code, st := .idle }

/-- `frames_done < repeat_total`: frames of the session are left (R84). -/
def State.framesLeft (s : State) : Bool := Nat.blt s.framesDone.toNat s.repeatTotal.toNat

/-- GAP_END (R84): the next repeat, or the end of the session. -/
def State.gapEndStep (s : State) : State :=
  bif s.framesLeft then s.beginFrame else s.endSession .ok

/-- The result of a session that TEARDOWN_APPLY ends (spec/42_system.md R97). -/
def State.teardownResult (s : State) : ResultCode :=
  bif s.framesLeft then .cancelledBetweenRepeats else .ok

/-- The first part of TEARDOWN_APPLY: a session between frames ends (spec/42_system.md R97). -/
def State.abandonSession (s : State) : State := bif s.st == .gap then s.endSession s.teardownResult else s

/-- TEARDOWN_APPLY (spec/42_system.md R97). -/
def State.teardownApply (s : State) : State :=
  ({ s.abandonSession.releaseLine with tdPending := false }).respond s.tdOwner .ok

/-- The sequencer takes the step that is enabled. At most one is (spec/60_exceptions.md R104); none may be, and then nothing
happens (notes/assumptions/2.md). -/
def State.sequencerStep (s : State) : State :=
  bif s.toggleEnabled then s.framePollToggle
  else bif s.frameEndEnabled then s.framePollEnd
  else bif s.gapEndEnabled then s.gapEndStep
  else bif s.teardownApplyEnabled then s.teardownApply
  else s

/-- A sequencer step is urgent (R85, R93): FRAME_POLL once it is LAG_MAX late, GAP_END and TEARDOWN_APPLY as soon as they are
enabled. -/
def State.urgent (s : State) : Bool :=
  ((s.toggleEnabled || s.frameEndEnabled) && Nat.ble (s.deadline + s.cfg.lagMax) s.now) ||
    s.gapEndEnabled || s.teardownApplyEnabled

/-- TICK (spec/60_exceptions.md R109): enabled when no sequencer step is urgent. -/
def State.tick (s : State) : State := bif s.urgent then s else { s with now := s.now + 1 }

end Sys2Proof.Machine
end

