-- ==== Sys2Proof/Machine/Port.lean ====
section
/-! DEFINITION. The two ports and the turns: command acceptance (spec/30_encoding.md R63), the read port (spec/42_system.md R99),
and what one turn of one agent does (spec/00_scope.md R17). -/

namespace Sys2Proof.Machine

/-- `ready(s, c)` (R63). -/
def State.ready (s : State) (c : CmdWord) : Bool :=
  bif wfTeardown c then !s.tdPending else s.st == .idle && !s.tdPending

/-- `execute(c, h)` (R63): the rule of the word's opcode, or R65 for an invalid command. -/
def runCommand (c : CmdWord) (s : State) : Host.Outcome State Fault Refusal :=
  match decode (.command c) with
  | .ok i => exec i s
  | .error _ => execInvalid s

/-- ACCEPT(h) (R63). A command that is not ready is held: it stays presented, and nothing changes. -/
def acceptCommand (h : Nat) (s : State) : Host.Outcome State Fault Refusal :=
  match s.pendingOf h with
  | none => .next s
  | some c => bif s.ready c then runCommand c (s.beginAccept h) else .next s

/-- The read port (spec/30_encoding.md R60): a READ is never held and uses no command port. -/
def readPort (h : Nat) (addr : ReadAddr) (s : State) : Host.Outcome State Fault Refusal :=
  match s.requesterAt h with
  | none => .next s
  | some _ =>
    match decode (.read addr) with
    | .ok i => exec i (s.serve h)
    | .error _ => .next s

/-- One turn. A turn whose step is not enabled changes nothing (notes/assumptions/2.md); a write of the read space is refused
by name (spec/20_memory.md R48). -/
def runTurn (turn : Turn) (s : State) : Host.Outcome State Fault Refusal :=
  match turn with
  | .present h c => .next (s.present h c)
  | .accept h => acceptCommand h s
  | .read h addr => readPort h addr s
  | .write _ _ _ => .refused .readSpaceReadOnly
  | .sequence => .next s.sequencerStep
  | .tick => .next s.tick
  | .reset => .next s.resetBlock

/-- Put a transaction of requester 0 where the next turn takes it (notes/assumptions/14.md): a command word is presented and the
next turn accepts it; a read is the next turn. -/
def State.offer (s : State) (t : Transaction) : State :=
  match t with
  | .command c =>
    { s with
      requesters := s.requesters.modify 0 (fun r => { r with pending := some c })
      env := { s.env with agenda := .accept 0 :: s.env.agenda } }
  | .read addr => { s with env := { s.env with agenda := .read 0 addr :: s.env.agenda } }

end Sys2Proof.Machine
end

