-- ==== Sys2Proof/Machine/Step.lean ====
section
/-! DEFINITION. One step of the machine: the next turn is taken from the environment and run (spec/00_scope.md R17: every step is
atomic, and steps interleave one at a time). -/

namespace Sys2Proof.Machine

/-- One atomic step of one agent. -/
def step (s : State) : Host.Outcome State Fault Refusal := runTurn s.nextTurn s.takeTurn

/-- The state whose next step runs the table word `w` of `nbits` bits as a transaction of requester 0
(notes/assumptions/14.md, 15.md). -/
def State.withFetchWord (s : State) (nbits w : Nat) : State := s.offer (tableTransaction nbits w)

end Sys2Proof.Machine
end

