-- ==== Sys2Proof/Machine/Assembler.lean ====
section
/-! DEFINITION. The assembler syntax of spec/30_encoding.md R68 and the pseudo-instruction `wait_idle` (R69). It is the spec's own
syntax and no part of the hardware (spec/92_eei_decisions.md D29): nothing in `step` depends on it. How spaces and commas are read
is a DESIGN CHOICE (notes/assumptions/23.md). -/

namespace Sys2Proof.Machine

/-- A source line whose operands have been read as natural numbers (R68, R69). -/
inductive AsmLine where
  | claim
  | encode (message bits : Nat)
  | transmit (repeats : Nat)
  | send (message bits repeats : Nat)
  | teardown
  | read (addr : Nat)
  /-- `.cmd <64-bit value>`: the raw command word -/
  | cmd (value : Nat)
  /-- the pseudo-instruction `wait_idle` -/
  | waitIdle
  deriving DecidableEq, Repr

/-- Why the assembler refuses a line, by name (R68). -/
inductive AsmFault where
  | messageTooWide
  | bitsTooWide
  | repeatTooWide
  | addrTooWide
  | rawTooWide
  /-- no line of R68 or R69 -/
  | notALine
  deriving DecidableEq, Repr

/-- What a line assembles to: a transaction, or the requester-side loop `wait_idle`, which has no encoding of its own (R69). -/
inductive AsmItem where
  | transaction (t : Transaction)
  | waitIdle
  deriving DecidableEq, Repr

/-- R68: an operand that does not fit its field is refused; representable values that the block rejects are accepted; unused
fields and reserved bits assemble as 0. Where several operands of a line do not fit, the refusal names the first of message, bits,
repeat (DESIGN CHOICE, notes/assumptions/23.md). -/
def AsmLine.assemble : AsmLine → Except AsmFault AsmItem
  | .claim => .ok (.transaction (Sys2Proof.encode .claim))
  | .encode m b =>
    if messageFits m = false then .error .messageTooWide
    else if bitsFit b = false then .error .bitsTooWide
    else .ok (.transaction (Sys2Proof.encode (.encode (BitVec.ofNat 32 m) (BitVec.ofNat 6 b))))
  | .transmit r =>
    if repeatFits r = false then .error .repeatTooWide
    else .ok (.transaction (Sys2Proof.encode (.transmit (BitVec.ofNat 16 r))))
  | .send m b r =>
    if messageFits m = false then .error .messageTooWide
    else if bitsFit b = false then .error .bitsTooWide
    else if repeatFits r = false then .error .repeatTooWide
    else .ok (.transaction (Sys2Proof.encode (.send (BitVec.ofNat 32 m) (BitVec.ofNat 6 b) (BitVec.ofNat 16 r))))
  | .teardown => .ok (.transaction (Sys2Proof.encode .teardown))
  | .read a =>
    if addrFits a = false then .error .addrTooWide
    else .ok (.transaction (Sys2Proof.encode (.read (BitVec.ofNat 12 a))))
  | .cmd v =>
    if rawFits v = false then .error .rawTooWide
    else .ok (.transaction (.command (BitVec.ofNat 64 v)))
  | .waitIdle => .ok .waitIdle

/-- The value of a digit character in base `base`. -/
def digitValue (base : Nat) (c : Char) : Option Nat :=
  let n := c.toNat
  let d := if 48 ≤ n ∧ n ≤ 57 then n - 48
    else if 97 ≤ n ∧ n ≤ 102 then n - 87
    else if 65 ≤ n ∧ n ≤ 70 then n - 55
    else base
  if d < base then some d else none

/-- The number written by digits, the most significant first, after `acc`. -/
def digitsValue (base : Nat) : Nat → List Char → Option Nat
  | acc, [] => some acc
  | acc, c :: rest => (digitValue base c).bind fun d => digitsValue base (acc * base + d) rest

/-- R68: "Numbers are decimal, `0x` hex or `0b` binary." -/
def parseNumber : List Char → Option Nat
  | '0' :: 'x' :: c :: rest => digitsValue 16 0 (c :: rest)
  | '0' :: 'b' :: c :: rest => digitsValue 2 0 (c :: rest)
  | c :: rest => digitsValue 10 0 (c :: rest)
  | [] => none

/-- A blank inside a line. -/
def isBlank (c : Char) : Bool := c == ' ' || c == '\t'

/-- The text without blanks at its ends. -/
def trimBlanks (t : List Char) : List Char := ((t.dropWhile isBlank).reverse.dropWhile isBlank).reverse

/-- The pieces of a text between commas. -/
def splitCommas : List Char → List (List Char)
  | [] => [[]]
  | c :: rest =>
    match splitCommas rest with
    | [] => [[c]]
    | piece :: more => if c = ',' then [] :: piece :: more else (c :: piece) :: more

/-- The operands of a line, read as numbers. -/
def parseOperands (t : List Char) : Option (List Nat) :=
  if trimBlanks t = [] then some [] else (splitCommas t).mapM (fun p => parseNumber (trimBlanks p))

/-- One line of R68 or R69, from its mnemonic and its operands. -/
def lineOf (mnemonic : List Char) (operands : List Nat) : Option AsmLine :=
  match mnemonic, operands with
  | ['c', 'l', 'a', 'i', 'm'], [] => some .claim
  | ['e', 'n', 'c', 'o', 'd', 'e'], [m, b] => some (.encode m b)
  | ['t', 'r', 'a', 'n', 's', 'm', 'i', 't'], [r] => some (.transmit r)
  | ['s', 'e', 'n', 'd'], [m, b, r] => some (.send m b r)
  | ['t', 'e', 'a', 'r', 'd', 'o', 'w', 'n'], [] => some .teardown
  | ['r', 'e', 'a', 'd'], [a] => some (.read a)
  | ['.', 'c', 'm', 'd'], [v] => some (.cmd v)
  | ['w', 'a', 'i', 't', '_', 'i', 'd', 'l', 'e'], [] => some .waitIdle
  | _, _ => none

/-- A source line read from its text: a mnemonic, blanks, and operands between commas. -/
def parseLine (text : List Char) : Option AsmLine :=
  let t := trimBlanks text
  (parseOperands (t.dropWhile fun c => !isBlank c)).bind (lineOf (t.takeWhile fun c => !isBlank c))

/-- One line assembled from its text. -/
def assembleText (text : List Char) : Except AsmFault AsmItem :=
  match parseLine text with
  | some l => l.assemble
  | none => .error .notALine

/-- One command per line (R68); a refusal says its name and its line, lines being counted from `line`. -/
def assembleLines (line : Nat) : List (List Char) → Except (Nat × AsmFault) (List AsmItem)
  | [] => .ok []
  | t :: rest =>
    match assembleText t with
    | .error f => .error (line, f)
    | .ok item =>
      match assembleLines (line + 1) rest with
      | .error e => .error e
      | .ok items => .ok (item :: items)

/-- The address that `wait_idle` reads: STATUS (R69). -/
def waitIdleAddr : ReadAddr := 0#12

/-- R69: `if v[1:0] != 0 goto loop`. -/
def waitIdleLoops (v : Datum) : Bool := v.extractLsb' 0 2 != 0#2

end Sys2Proof.Machine
end

