-- ==== Sys2Proof/Safety.lean ====
section
/-! DEFINITION. The terms in which claims about the block are stated: what an operation leaves unchanged, and the invariants of
spec/10_state.md R44 and of the rules it rests on. -/

namespace Sys2Proof.Machine

/-! ### Frames: what stays as it was -/

/-- The session and frame registers keep their values (spec/10_state.md R23 to R30). -/
structure SameSession (s t : State) : Prop where
  st : t.st = s.st
  idx : t.idx = s.idx
  nextLevel : t.nextLevel = s.nextLevel
  deadline : t.deadline = s.deadline
  frameStart : t.frameStart = s.frameStart
  gapEnd : t.gapEnd = s.gapEnd
  repeatTotal : t.repeatTotal = s.repeatTotal
  framesDone : t.framesDone = s.framesDone
  sessOwner : t.sessOwner = s.sessOwner

/-- The teardown registers keep their values (R31). -/
structure SameTeardown (s t : State) : Prop where
  tdPending : t.tdPending = s.tdPending
  tdOwner : t.tdOwner = s.tdOwner

/-- The line registers keep their values and no LineWrite is made (R32, R33, spec/60_exceptions.md R112). -/
structure SameLine (s t : State) : Prop where
  claimed : t.claimed = s.claimed
  level : t.level = s.level
  history : t.history = s.history

/-- Every train entry reads as before, the unwritten ones are still unwritten, and the length is the same (R34, R35). -/
structure SameTrain (s t : State) : Prop where
  entries : ∀ i, t.train.entry? i = s.train.entry? i
  trainLen : t.trainLen = s.trainLen

/-- The configuration and the time base keep their values (R22, R37). -/
structure SameBase (s t : State) : Prop where
  cfg : t.cfg = s.cfg
  now : t.now = s.now

/-- Every requester keeps its pending word, its waiting bit and its responses (R38), and no read is answered (R18). -/
structure SamePorts (s t : State) : Prop where
  requesters : ∀ h, t.requesterAt h = s.requesterAt h
  reads : t.reads = s.reads

/-- `Respond(h, code)` has happened and nothing else about the requesters: `h` has the code after its earlier ones and waits no
more, every other requester is as before, and no read is answered (spec/60_exceptions.md R101). -/
structure Responded (s t : State) (h : Nat) (code : ResultCode) : Prop where
  owner : t.requesterAt h = (s.requesterAt h).map fun r => { r with waiting := false, resp := r.resp ++ [code] }
  others : ∀ k, k ≠ h → t.requesterAt k = s.requesterAt k
  reads : t.reads = s.reads

/-- A command has been answered with `code` at its acceptance and has changed nothing else: "An error found at acceptance changes
no state other than `err`, `waiting[h]` and `resp[h]`" (spec/60_exceptions.md R102). -/
structure OnlyAnswered (s t : State) (code : ResultCode) : Prop where
  err : t.err = code
  responded : Responded s t s.env.serving code
  session : SameSession s t
  teardown : SameTeardown s t
  line : SameLine s t
  train : SameTrain s t
  base : SameBase s t

/-- `frame_start()` has happened (spec/41_scheduler.md R79): the forced LOW is written and the frame's registers are set. -/
structure FrameStarted (s t : State) : Prop where
  st : t.st = .frame
  level : t.level = .low
  history : t.history = s.history ++ [⟨s.now, .low⟩]
  frameStart : t.frameStart = s.now
  deadline : t.deadline = s.now
  idx : t.idx = 0#7
  nextLevel : t.nextLevel = .high
  claimed : t.claimed = s.claimed
  gapEnd : t.gapEnd = s.gapEnd

/-- `start_session(r, h)` has happened (R78): the session's registers are set, its first frame has started, and no response is
given: `waiting[h]` is as it was. -/
structure SessionStarted (s t : State) (repeats : BitVec 16) (h : Nat) : Prop where
  repeatTotal : t.repeatTotal = repeats
  framesDone : t.framesDone = 0#16
  sessOwner : t.sessOwner = h
  err : t.err = .ok
  frame : FrameStarted s t
  teardown : SameTeardown s t
  ports : SamePorts s t
  base : SameBase s t

/-- The train of `(message, bits)` is in the train RAM, and the entries above it are as before (spec/40_encoder.md R74). -/
structure TrainEncoded (s t : State) (message : BitVec 32) (bits : BitVec 6) : Prop where
  length : t.trainLen.toNat = 2 * bits.toNat + 1
  entries : ∀ i, i ≤ 2 * bits.toNat → t.train.entry? i = (encodeTrain s.cfg.table message bits.toNat)[i]?
  above : ∀ i, 2 * bits.toNat < i → t.train.entry? i = s.train.entry? i

/-- The same state with another agenda: the turns that the agents are to take next. -/
def State.withAgenda (s : State) (turns : List Turn) : State := { s with env := { s.env with agenda := turns } }

/-! ### The terms of the waveform -/

/-- The level of the `i`-th toggle write: HIGH when `i` is even (spec/41_scheduler.md R89). -/
def levelAt (i : Nat) : Level := if i % 2 = 0 then .high else .low

/-- `S_i = train[0] + ... + train[i-1]` (R89); an entry that is not written counts 0. -/
def TrainRam.sumTo (ram : TrainRam) : Nat → Nat
  | 0 => 0
  | i + 1 => TrainRam.sumTo ram i + ((ram.entry? i).getD 0#32).toNat

/-- `ts` is the list of the first toggle writes of a frame that started at `start`: write `i` has the level of `i`, at a time in
`[start + S_i, start + S_i + lag]` (R89). -/
def TogglesFrom (ram : TrainRam) (start lag : Nat) (ts : List LineWrite) : Prop :=
  ∀ i w, ts[i]? = some w →
    w.level = levelAt i ∧ start + ram.sumTo i ≤ w.time ∧ w.time ≤ start + ram.sumTo i + lag

/-! ### Invariants -/

/-- The invariants of spec/10_state.md R44 that speak of the sequencer, the line and the train, with R35, R36 and R29. -/
structure SessionInv (s : State) : Prop where
  /-- R35: the length is 0 or `2*bits + 1` for a width `bits` in `1 .. 32` -/
  trainLen : s.trainLen = 0#7 ∨ ∃ b, 1 ≤ b ∧ b ≤ 32 ∧ s.trainLen.toNat = 2 * b + 1
  /-- R44 items 6 and 7: the entries below the length are written, and each is at least 1 -/
  written : ∀ i, i < s.trainLen.toNat → ∃ v, s.train.entry? i = some v ∧ 1 ≤ v.toNat
  /-- R44 item 1 -/
  busy : s.st ≠ .idle → s.claimed = true ∧ 3 ≤ s.trainLen.toNat ∧ s.trainLen.toNat ≤ 65
  /-- R44 item 2, and R33 for an unclaimed line -/
  quiet : s.st ≠ .frame → s.level = .low
  /-- R44 item 3 -/
  index : s.st = .frame → s.idx.toNat ≤ s.trainLen.toNat ∧ s.nextLevel = levelAt s.idx.toNat
  /-- R44 item 4 -/
  deadline : s.st = .frame → s.deadline = s.frameStart + s.train.sumTo s.idx.toNat
  /-- R44 item 5 -/
  frames : s.framesDone.toNat ≤ s.repeatTotal.toNat
  /-- R44 item 5 -/
  framesLeft : s.st = .frame → s.framesDone.toNat < s.repeatTotal.toNat
  /-- R36: while a session is running, `err` is OK -/
  running : s.st ≠ .idle → s.err = .ok

/-- What the requesters' side always satisfies (R30, R31, R38, spec/60_exceptions.md R100, R101). -/
structure PortInv (s : State) : Prop where
  /-- there are N_REQ requesters -/
  count : s.requesters.length = s.cfg.nReq
  /-- a running session has an owner -/
  sessionOwner : s.st ≠ .idle → s.sessOwner < s.requesters.length
  /-- a pending teardown has an owner -/
  teardownOwner : s.tdPending = true → s.tdOwner < s.requesters.length
  /-- the two are different requesters -/
  ownersDiffer : s.st ≠ .idle → s.tdPending = true → s.sessOwner ≠ s.tdOwner
  /-- a requester waits for a response exactly when the running session or the pending teardown is its own -/
  waiting : ∀ h r, s.requesterAt h = some r →
    (r.waiting = true ↔ (s.st ≠ .idle ∧ h = s.sessOwner) ∨ (s.tdPending = true ∧ h = s.tdOwner))
  /-- a requester that waits presents nothing -/
  presenting : ∀ h r, s.requesterAt h = some r → r.pending ≠ none → r.waiting = false
  /-- RESOURCE_EXHAUSTED is never delivered (R100) -/
  codes : ∀ h r, s.requesterAt h = some r → ResultCode.resourceExhausted ∉ r.resp
  /-- RESOURCE_EXHAUSTED is never in STATUS.ERR (R100) -/
  errCode : s.err ≠ .resourceExhausted

/-- What the line history always satisfies (R33, spec/60_exceptions.md R112): its times do not decrease and are not in the
future, and its last write is the level of the line. -/
structure LineInv (s : State) : Prop where
  ordered : s.history.Pairwise fun a b => a.time ≤ b.time
  past : ∀ w, w ∈ s.history → w.time ≤ s.now
  last : s.level = (s.history.getLast?.map LineWrite.level).getD .low

/-- Urgency keeps the sequencer's steps on time (spec/41_scheduler.md R85). -/
structure TimingInv (s : State) : Prop where
  /-- a frame starts in the past -/
  started : s.st = .frame → s.frameStart ≤ s.now
  /-- a FRAME_POLL is at most LAG_MAX late -/
  poll : s.st = .frame → s.now ≤ s.deadline + s.cfg.lagMax
  /-- a gap is never overrun -/
  gap : s.st = .gap → s.now ≤ s.gapEnd

/-- During a frame the end of the line history is the frame's writes so far: the forced LOW of its start and the first `idx`
toggle writes, each in its window (spec/41_scheduler.md R89). -/
def WaveformInv (s : State) : Prop :=
  s.st = .frame → ∃ before ts, s.history = before ++ ⟨s.frameStart, .low⟩ :: ts ∧ ts.length = s.idx.toNat ∧
    TogglesFrom s.train s.frameStart s.cfg.lagMax ts

end Sys2Proof.Machine
end

