-- ==== Sys2Proof/Certificates/Slice0/Obligations.lean ====
section
/-! DEFINITION. The statements about rc_pulse_core. Each docstring names the rules of spec/ a statement formalises or rests on. -/

open Sys2Proof Sys2Proof.Machine

/-! ### Encoding -/

/-- R59, R61, R62, R68 (encoder): every instruction, with every operand at every value its field admits, decodes to itself. -/
def Obligations.DecodeOfEncodeIsIdentity : Prop :=
  ∀ i : Instr, decode (encode i) = .ok i

/-- R62: a word that matches the row of an opcode decodes to that command, with the operands in the fields of R59; a word matches
no row exactly when its opcode is reserved or a reserved bit is nonzero, and such a word is rejected. -/
def Obligations.DecoderFollowsOpcodeMap : Prop :=
  ∀ c : CmdWord,
    (matchesRow 1 c = true → decodeCommand c = .ok .claim) ∧
    (matchesRow 2 c = true → decodeCommand c = .ok (.encode (c.extractLsb' 32 32) (c.extractLsb' 8 6))) ∧
    (matchesRow 3 c = true → decodeCommand c = .ok (.transmit (c.extractLsb' 16 16))) ∧
    (matchesRow 4 c = true →
      decodeCommand c = .ok (.send (c.extractLsb' 32 32) (c.extractLsb' 8 6) (c.extractLsb' 16 16))) ∧
    (matchesRow 5 c = true → decodeCommand c = .ok .teardown) ∧
    ((∀ n, 1 ≤ n → n ≤ 5 → matchesRow n c = false) ↔
      (c.extractLsb' 0 4 = 0#4 ∨ 6 ≤ (c.extractLsb' 0 4).toNat) ∨ c.extractLsb' 4 4 ≠ 0#4 ∨ c.extractLsb' 14 2 ≠ 0#2) ∧
    ((∀ n, 1 ≤ n → n ≤ 5 → matchesRow n c = false) → ∃ e, decodeCommand c = .error e)

/-- R70: the encoding examples, encoded and decoded. -/
def Obligations.EncodingExamplesAgree : Prop :=
  encode .claim = .command 0x0000000000000001#64 ∧
  encode .teardown = .command 0x0000000000000005#64 ∧
  encode (.encode 0xA#32 4#6) = .command 0x0000000A00000402#64 ∧
  encode (.transmit 2#16) = .command 0x0000000000020003#64 ∧
  encode (.send 0xA#32 4#6 1#16) = .command 0x0000000A00010404#64 ∧
  encode (.send 0xFFFFFFFF#32 32#6 65535#16) = .command 0xFFFFFFFFFFFF2004#64 ∧
  decodeCommand 0x0000000000000001#64 = .ok .claim ∧
  decodeCommand 0x0000000000000005#64 = .ok .teardown ∧
  decodeCommand 0x0000000A00000402#64 = .ok (.encode 0xA#32 4#6) ∧
  decodeCommand 0x0000000000020003#64 = .ok (.transmit 2#16) ∧
  decodeCommand 0x0000000A00010404#64 = .ok (.send 0xA#32 4#6 1#16) ∧
  decodeCommand 0xFFFFFFFFFFFF2004#64 = .ok (.send 0xFFFFFFFF#32 32#6 65535#16) ∧
  ∃ e, decodeCommand 0x0000000000000014#64 = .error e

/-- R61: two words that agree in their opcode, in their reserved bits and in the fields their opcode uses do the same in every
state. -/
def Obligations.IgnoredFieldsHaveNoEffect : Prop :=
  ∀ (c d : CmdWord) (s : State),
    opField c = opField d → rsv0Field c = rsv0Field d → rsv1Field c = rsv1Field d →
    ((opField c = 2#4 ∨ opField c = 4#4) → messageField c = messageField d ∧ bitsField c = bitsField d) →
    ((opField c = 3#4 ∨ opField c = 4#4) → repeatField c = repeatField d) →
    runCommand c s = runCommand d s ∧ s.ready c = s.ready d

/-- R50: as bytes and as 32-bit halves a command is carried least significant first, and a word that is not wholly delivered is no
command. -/
def Obligations.TransportsCarryLeastSignificantFirst : Prop :=
  (∀ c, commandOfBytes (bytesOfCommand c) = some c) ∧
  (∀ bytes c, commandOfBytes bytes = some c →
    bytes.length = 8 ∧ ∀ k b, bytes[k]? = some b → b = c.extractLsb' (8 * k) 8) ∧
  (∀ bytes, bytes.length ≠ 8 → commandOfBytes bytes = none) ∧
  (∀ halves c, commandOfHalves halves = some c ↔ halves = [c.extractLsb' 0 32, c.extractLsb' 32 32])

/-- R68: a line whose operands fit their fields assembles to a transaction that decodes to the instruction of the line with those
operands, and every field its opcode does not use and every reserved bit of the word is 0; `.cmd` assembles to the raw word; a line
with an operand that does not fit is refused with the name of such an operand. The names, which of several such operands is named,
and the refusal of a raw word of more than 64 bits are the model's choice (notes/assumptions/23.md). -/
def Obligations.AssemblerRefusesWhatDoesNotFit : Prop :=
  (∃ c, AsmLine.claim.assemble = .ok (.transaction (.command c)) ∧ decode (.command c) = .ok .claim ∧
    c.extractLsb' 4 4 = 0#4 ∧ c.extractLsb' 8 6 = 0#6 ∧ c.extractLsb' 14 2 = 0#2 ∧ c.extractLsb' 16 16 = 0#16 ∧
    c.extractLsb' 32 32 = 0#32) ∧
  (∀ m b, m < 2 ^ 32 → b < 64 → ∃ c M B, (AsmLine.encode m b).assemble = .ok (.transaction (.command c)) ∧
    M.toNat = m ∧ B.toNat = b ∧ decode (.command c) = .ok (.encode M B) ∧
    c.extractLsb' 4 4 = 0#4 ∧ c.extractLsb' 14 2 = 0#2 ∧ c.extractLsb' 16 16 = 0#16) ∧
  (∀ r, r < 65536 → ∃ c R, (AsmLine.transmit r).assemble = .ok (.transaction (.command c)) ∧
    R.toNat = r ∧ decode (.command c) = .ok (.transmit R) ∧
    c.extractLsb' 4 4 = 0#4 ∧ c.extractLsb' 8 6 = 0#6 ∧ c.extractLsb' 14 2 = 0#2 ∧ c.extractLsb' 32 32 = 0#32) ∧
  (∀ m b r, m < 2 ^ 32 → b < 64 → r < 65536 →
    ∃ c M B R, (AsmLine.send m b r).assemble = .ok (.transaction (.command c)) ∧
      M.toNat = m ∧ B.toNat = b ∧ R.toNat = r ∧ decode (.command c) = .ok (.send M B R) ∧
      c.extractLsb' 4 4 = 0#4 ∧ c.extractLsb' 14 2 = 0#2) ∧
  (∃ c, AsmLine.teardown.assemble = .ok (.transaction (.command c)) ∧ decode (.command c) = .ok .teardown ∧
    c.extractLsb' 4 4 = 0#4 ∧ c.extractLsb' 8 6 = 0#6 ∧ c.extractLsb' 14 2 = 0#2 ∧ c.extractLsb' 16 16 = 0#16 ∧
    c.extractLsb' 32 32 = 0#32) ∧
  (∀ a, a < 4096 → ∃ A, (AsmLine.read a).assemble = .ok (.transaction (.read A)) ∧ A.toNat = a ∧
    decode (.read A) = .ok (.read A)) ∧
  (∀ v, v < 2 ^ 64 → ∃ c : CmdWord, (AsmLine.cmd v).assemble = .ok (.transaction (.command c)) ∧ c.toNat = v) ∧
  (∀ m b, 2 ^ 32 ≤ m ∨ 64 ≤ b → ∃ f, (AsmLine.encode m b).assemble = .error f ∧
    ((f = .messageTooWide ∧ 2 ^ 32 ≤ m) ∨ (f = .bitsTooWide ∧ 64 ≤ b))) ∧
  (∀ r, 65536 ≤ r → (AsmLine.transmit r).assemble = .error .repeatTooWide) ∧
  (∀ m b r, 2 ^ 32 ≤ m ∨ 64 ≤ b ∨ 65536 ≤ r → ∃ f, (AsmLine.send m b r).assemble = .error f ∧
    ((f = .messageTooWide ∧ 2 ^ 32 ≤ m) ∨ (f = .bitsTooWide ∧ 64 ≤ b) ∨ (f = .repeatTooWide ∧ 65536 ≤ r))) ∧
  (∀ a, 4096 ≤ a → (AsmLine.read a).assemble = .error .addrTooWide) ∧
  (∀ v, 2 ^ 64 ≤ v → (AsmLine.cmd v).assemble = .error .rawTooWide)

/-! ### Ports and acceptance -/

/-- A step runs the decoded instruction: when the next turn is the acceptance of requester `h`, whose presented word decodes to `i`
and is ready, the step is `exec i` on the state in which ACCEPT(h) has emptied `pending[h]` and set `waiting[h]` (R63). That `State`
lists the turns to come is the model's choice (notes/assumptions/1.md). -/
def Obligations.StepRunsTheDecodedCommand : Prop :=
  ∀ (s : State) (h : Nat) (rest : List Turn) (r : Requester) (c : CmdWord) (i : Instr),
    s.env.agenda = .accept h :: rest → s.requesterAt h = some r → r.pending = some c →
    decodeCommand c = .ok i → s.ready c = true →
    step s = exec i ((s.withAgenda rest).beginAccept h)

/-- A step runs the read: when the next turn is a read of an existing requester, the step is `exec (.read addr)` on the state that
serves that requester, whatever the sequencer is doing and whether or not the requester waits (R60, R99). -/
def Obligations.StepRunsTheRead : Prop :=
  ∀ (s : State) (h : Nat) (addr : ReadAddr) (rest : List Turn) (r : Requester),
    s.env.agenda = .read h addr :: rest → s.requesterAt h = some r →
    decode (.read addr) = .ok (.read addr) ∧ step s = exec (.read addr) ((s.withAgenda rest).serve h)

/-- R63: ACCEPT(h) is enabled exactly when `ready(s, c)` holds; it empties `pending[h]`, sets `waiting[h]` and executes the word;
a command that is not ready is held: nothing changes but that the turn is over. -/
def Obligations.AcceptanceFollowsReady : Prop :=
  ∀ (s : State) (h : Nat) (rest : List Turn) (r : Requester) (c : CmdWord),
    s.env.agenda = .accept h :: rest → s.requesterAt h = some r → r.pending = some c →
    (s.ready c = true ↔
      if c.extractLsb' 0 4 = 5#4 ∧ c.extractLsb' 4 4 = 0#4 ∧ c.extractLsb' 14 2 = 0#2 then s.tdPending = false
      else s.st = .idle ∧ s.tdPending = false) ∧
    (s.ready c = true → step s = runCommand c ((s.withAgenda rest).beginAccept h)) ∧
    (s.ready c = false → step s = .next (s.withAgenda rest)) ∧
    ((s.withAgenda rest).beginAccept h).requesterAt h = some { r with pending := none, waiting := true } ∧
    (∀ k, k ≠ h → ((s.withAgenda rest).beginAccept h).requesterAt k = s.requesterAt k)

/-- R38: a requester presents a new command only when it presents none and waits for no response; no other requester and no other
state changes. -/
def Obligations.PresentingNeedsAFreeRequester : Prop :=
  ∀ (s : State) (h : Nat) (c : CmdWord) (rest : List Turn) (r : Requester),
    s.env.agenda = .present h c :: rest → s.requesterAt h = some r →
    ∃ t, step s = .next t ∧
      (r.pending = none → r.waiting = false → t.requesterAt h = some { r with pending := some c }) ∧
      ((r.pending ≠ none ∨ r.waiting = true) → t.requesterAt h = some r) ∧
      (∀ k, k ≠ h → t.requesterAt k = s.requesterAt k) ∧ t.reads = s.reads ∧ t.err = s.err ∧
      SameSession s t ∧ SameTeardown s t ∧ SameLine s t ∧ SameTrain s t ∧ SameBase s t

/-- R65: an invalid command is accepted under the condition of any non-TEARDOWN command, is answered INVALID_ARGUMENT, and changes
nothing else. -/
def Obligations.InvalidCommandIsAnswered : Prop :=
  ∀ (c : CmdWord) (s : State),
    ((c.extractLsb' 0 4 = 0#4 ∨ 6 ≤ (c.extractLsb' 0 4).toNat) ∨ c.extractLsb' 4 4 ≠ 0#4 ∨ c.extractLsb' 14 2 ≠ 0#2) →
    (s.ready c = true ↔ s.st = .idle ∧ s.tdPending = false) ∧
    ∃ t, runCommand c s = .next t ∧ OnlyAnswered s t .invalidArgument ∧ t.env = s.env

/-- R48, R105: the machine never stops with a fault, and a step is refused exactly when its turn attempts to write the read space.
-/
def Obligations.OnlyReadSpaceWritesAreRefused : Prop :=
  ∀ s : State,
    (∀ f, step s ≠ .fault f) ∧
    (∀ r, step s = .refused r ↔ r = .readSpaceReadOnly ∧ ∃ h a d, s.nextTurn = .write h a d)

/-- R95, R83, R47: every grant answer, every jitter in range and every value of an unwritten entry can be drawn. How the draws are
held is the model's choice (notes/assumptions/3.md, 4.md, 5.md). -/
def Obligations.EveryDrawIsPossible : Prop :=
  (∀ (s : State) (g : Bool), ∃ e, ({ s with env := e } : State).grantAnswer = g) ∧
  (∀ (s : State) (j : Nat), (∃ e, ({ s with env := e } : State).jitterDraw = j) ↔ j ≤ s.cfg.gapJitterMax) ∧
  (∀ (s : State) (i : Nat) (v : Datum), s.train.entry? i = none → ∃ e, ({ s with env := e } : State).trainValue i = v)

/-! ### The commands -/

/-- R94: CLAIM always completes. A claimed line answers OK and nothing else happens; else the platform's answer decides between
taking the line and driving it LOW, with OK, and HARDWARE_UNAVAILABLE with nothing else changed. -/
def Obligations.ClaimTakesTheLineOrIsRefused : Prop :=
  ∀ s : State, ∃ t, exec .claim s = .next t ∧
    (s.claimed = true → OnlyAnswered s t .ok ∧ t.env = s.env) ∧
    (s.claimed = false → s.grantAnswer = true →
      t.claimed = true ∧ t.level = .low ∧ t.history = s.history ++ [⟨s.now, .low⟩] ∧ t.err = .ok ∧
      Responded s t s.env.serving .ok ∧ SameSession s t ∧ SameTeardown s t ∧ SameTrain s t ∧ SameBase s t) ∧
    (s.claimed = false → s.grantAnswer = false → OnlyAnswered s t .hardwareUnavailable)

/-- R77: ENCODE always completes. A width in `1 .. 32` writes the train, its length, ERR and the response; any other width answers
INVALID_ARGUMENT and changes nothing else. -/
def Obligations.EncodeWritesTheTrainOrIsRejected : Prop :=
  ∀ (message : BitVec 32) (bits : BitVec 6) (s : State), ∃ t, exec (.encode message bits) s = .next t ∧ t.env = s.env ∧
    (1 ≤ bits.toNat → bits.toNat ≤ 32 →
      TrainEncoded s t message bits ∧ t.err = .ok ∧ Responded s t s.env.serving .ok ∧
      SameSession s t ∧ SameTeardown s t ∧ SameLine s t ∧ SameBase s t) ∧
    ((bits.toNat = 0 ∨ 33 ≤ bits.toNat) → OnlyAnswered s t .invalidArgument)

/-- R80, R103: TRANSMIT always completes: INVALID_ARGUMENT without a repeat or a train, else HARDWARE_UNAVAILABLE on an unclaimed
line, else a session of the current train starts. -/
def Obligations.TransmitStartsASessionOrIsRejected : Prop :=
  ∀ (repeats : BitVec 16) (s : State), ∃ t, exec (.transmit repeats) s = .next t ∧ t.env = s.env ∧
    ((repeats = 0#16 ∨ s.trainLen = 0#7) → OnlyAnswered s t .invalidArgument) ∧
    (repeats ≠ 0#16 → s.trainLen ≠ 0#7 → s.claimed = false → OnlyAnswered s t .hardwareUnavailable) ∧
    (repeats ≠ 0#16 → s.trainLen ≠ 0#7 → s.claimed = true →
      SessionStarted s t repeats s.env.serving ∧ SameTrain s t)

/-- R81, R103: SEND always completes: INVALID_ARGUMENT for a zero message, a width outside `1 .. 32` or a zero repeat, else
HARDWARE_UNAVAILABLE on an unclaimed line, both with the train untouched, else the train is encoded and a session starts. -/
def Obligations.SendStartsASessionOrIsRejected : Prop :=
  ∀ (message : BitVec 32) (bits : BitVec 6) (repeats : BitVec 16) (s : State), ∃ t,
    exec (.send message bits repeats) s = .next t ∧ t.env = s.env ∧
    ((message = 0#32 ∨ bits.toNat = 0 ∨ 33 ≤ bits.toNat ∨ repeats = 0#16) → OnlyAnswered s t .invalidArgument) ∧
    (message ≠ 0#32 → 1 ≤ bits.toNat → bits.toNat ≤ 32 → repeats ≠ 0#16 → s.claimed = false →
      OnlyAnswered s t .hardwareUnavailable) ∧
    (message ≠ 0#32 → 1 ≤ bits.toNat → bits.toNat ≤ 32 → repeats ≠ 0#16 → s.claimed = true →
      SessionStarted s t repeats s.env.serving ∧ TrainEncoded s t message bits)

/-- R96: TEARDOWN always completes: it only marks the teardown pending for its requester; ERR is not written, no response is given,
and its effect is left to TEARDOWN_APPLY. -/
def Obligations.TeardownOnlyMarksItselfPending : Prop :=
  ∀ s : State, ∃ t, exec .teardown s = .next t ∧
    t.tdPending = true ∧ t.tdOwner = s.env.serving ∧ t.err = s.err ∧ t.env = s.env ∧
    SameSession s t ∧ SameLine s t ∧ SameTrain s t ∧ SameBase s t ∧ SamePorts s t

/-- R99: a READ always completes, whatever the state and whoever reads: it is never held, returns MemRead(addr, 4) and has no effect
on the block's state; an unmapped address returns 0; after reset with the default TABLE, `read 0x000` gives 0 and `read 0x008` gives
0x0000015E. -/
def Obligations.ReadReturnsTheWordWithoutEffect : Prop :=
  (∀ (addr : ReadAddr) (s : State), ∃ t, exec (.read addr) s = .next t ∧
    t.reads = s.reads ++ [⟨s.env.serving, addr, s.memRead addr⟩] ∧ t.requesters = s.requesters ∧ t.err = s.err ∧
    SameSession s t ∧ SameTeardown s t ∧ SameLine s t ∧ SameTrain s t ∧ SameBase s t) ∧
  (∀ (addr : ReadAddr) (s : State),
    (0x018 ≤ addr.toNat ∧ addr.toNat ≤ 0x0FF) ∨ 0x204 ≤ addr.toNat → s.memRead addr = 0#32) ∧
  (∀ (s : State) (h : Nat) (addr : ReadAddr) (rest : List Turn) (r : Requester),
    s.env.agenda = .read h addr :: rest → s.requesterAt h = some r →
    ∃ t, step s = .next t ∧ t.reads = s.reads ++ [⟨h, addr, s.memRead addr⟩]) ∧
  State.reset.memRead 0x000#12 = 0x00000000#32 ∧ State.reset.memRead 0x008#12 = 0x0000015E#32

/-- R103: the order of checks. An invalid encoding is reported whatever else is wrong; then an argument that is out of range, whether
or not the line is claimed; then an unclaimed line. Each error is the one response of the command, and the command has no other
effect. `send 0, 0, 0` on an unclaimed line answers INVALID_ARGUMENT. -/
def Obligations.ArgumentErrorsComeBeforeTheLine : Prop :=
  ∀ s : State,
    (∀ c e, decodeCommand c = .error e → ∃ t, runCommand c s = .next t ∧ OnlyAnswered s t .invalidArgument) ∧
    (∀ m (b : BitVec 6), b.toNat = 0 ∨ 33 ≤ b.toNat →
      ∃ t, exec (.encode m b) s = .next t ∧ OnlyAnswered s t .invalidArgument) ∧
    (∀ m b r, m = 0#32 ∨ b.toNat = 0 ∨ 33 ≤ b.toNat ∨ r = 0#16 →
      ∃ t, exec (.send m b r) s = .next t ∧ OnlyAnswered s t .invalidArgument) ∧
    (∀ r, r = 0#16 ∨ s.trainLen = 0#7 → ∃ t, exec (.transmit r) s = .next t ∧ OnlyAnswered s t .invalidArgument) ∧
    (s.claimed = false →
      (∀ m b r, m ≠ 0#32 → 1 ≤ b.toNat → b.toNat ≤ 32 → r ≠ 0#16 →
        ∃ t, exec (.send m b r) s = .next t ∧ OnlyAnswered s t .hardwareUnavailable) ∧
      (∀ r, r ≠ 0#16 → s.trainLen ≠ 0#7 →
        ∃ t, exec (.transmit r) s = .next t ∧ OnlyAnswered s t .hardwareUnavailable) ∧
      (∃ t, exec (.send 0#32 0#6 0#16) s = .next t ∧ OnlyAnswered s t .invalidArgument))

/-! ### The read space -/

/-- R47: the read space, word by word; an entry not written since reset reads as a draw, so as any value; a read returns the word
of the state in which it takes place and has no side effect. -/
def Obligations.ReadSpaceFollowsTheMap : Prop :=
  ∀ (s : State) (addr : ReadAddr),
    (addr.toNat / 4 = 0 → s.memRead addr = s.statusWord) ∧
    (addr.toNat / 4 = 1 → s.memRead addr = s.framesWord) ∧
    (addr.toNat / 4 = 2 → s.memRead addr = s.cfg.table.unit.setWidth 32) ∧
    (addr.toNat / 4 = 3 → s.memRead addr = s.cfg.table.sync.low ++ s.cfg.table.sync.high) ∧
    (addr.toNat / 4 = 4 → s.memRead addr = s.cfg.table.zero.low ++ s.cfg.table.zero.high) ∧
    (addr.toNat / 4 = 5 → s.memRead addr = s.cfg.table.one.low ++ s.cfg.table.one.high) ∧
    (∀ i v, addr.toNat / 4 = 64 + i → i ≤ 64 → s.train.entry? i = some v → s.memRead addr = v) ∧
    (∀ i v, addr.toNat / 4 = 64 + i → i ≤ 64 → s.train.entry? i = none →
      ∃ e, ({ s with env := e } : State).memRead addr = v) ∧
    ((6 ≤ addr.toNat / 4 ∧ addr.toNat / 4 < 64) ∨ 128 < addr.toNat / 4 → s.memRead addr = 0#32) ∧
    (∃ t, exec (.read addr) s = .next t ∧ t.reads = s.reads ++ [⟨s.env.serving, addr, s.memRead addr⟩] ∧
      t.requesters = s.requesters ∧ t.err = s.err ∧ SameSession s t ∧ SameTeardown s t ∧ SameLine s t ∧
      SameTrain s t ∧ SameBase s t)

/-- R51: `addr[1:0]` is ignored. -/
def Obligations.ReadAddressLowBitsIgnored : Prop :=
  ∀ (s : State) (a b : ReadAddr), a.toNat / 4 = b.toNat / 4 → s.memRead a = s.memRead b

/-- R39: the fields of STATUS with their values (R23, R16, R100), its reserved bits, its address, its value after reset, and that it
is read-only. -/
def Obligations.StatusShowsItsFields : Prop :=
  ∀ s : State,
    s.memRead 0x000#12 = s.statusWord ∧
    s.statusWord.extractLsb' 0 2 = s.st.code ∧ s.st.code ≠ 3#2 ∧
    (s.statusWord.extractLsb' 0 2 = 0#2 ↔ s.st = .idle) ∧
    (s.statusWord.extractLsb' 0 2 = 1#2 ↔ s.st = .frame) ∧
    (s.statusWord.extractLsb' 0 2 = 2#2 ↔ s.st = .gap) ∧
    s.statusWord.extractLsb' 2 1 = s.level.bit ∧ (s.statusWord.extractLsb' 2 1 = 1#1 ↔ s.level = .high) ∧
    s.statusWord.extractLsb' 3 1 = flagBit s.claimed ∧ (s.statusWord.extractLsb' 3 1 = 1#1 ↔ s.claimed = true) ∧
    s.statusWord.extractLsb' 4 1 = flagBit s.tdPending ∧ (s.statusWord.extractLsb' 4 1 = 1#1 ↔ s.tdPending = true) ∧
    s.statusWord.extractLsb' 5 3 = 0#3 ∧
    s.statusWord.extractLsb' 8 3 = s.err.code ∧
    (s.statusWord.extractLsb' 8 3 = 0#3 ↔ s.err = .ok) ∧
    (s.statusWord.extractLsb' 8 3 = 1#3 ↔ s.err = .invalidArgument) ∧
    (s.statusWord.extractLsb' 8 3 = 2#3 ↔ s.err = .resourceExhausted) ∧
    (s.statusWord.extractLsb' 8 3 = 3#3 ↔ s.err = .hardwareUnavailable) ∧
    (s.statusWord.extractLsb' 8 3 = 4#3 ↔ s.err = .cancelledBetweenRepeats) ∧
    s.statusWord.extractLsb' 11 5 = 0#5 ∧
    s.statusWord.extractLsb' 16 7 = s.trainLen ∧
    s.statusWord.extractLsb' 23 9 = 0#9 ∧
    (∀ cfg, (State.boot cfg).statusWord = 0x00000000#32) ∧
    (∀ h d rest, s.env.agenda = .write h 0x000#12 d :: rest → step s = .refused .readSpaceReadOnly)

/-- R40: FRAMES, its address, its value after reset, and that it is read-only. -/
def Obligations.FramesShowsItsCounters : Prop :=
  ∀ s : State,
    s.memRead 0x004#12 = s.framesWord ∧ s.framesWord.extractLsb' 0 16 = s.framesDone ∧
    s.framesWord.extractLsb' 16 16 = s.repeatTotal ∧ (∀ cfg, (State.boot cfg).framesWord = 0x00000000#32) ∧
    (∀ h d rest, s.env.agenda = .write h 0x004#12 d :: rest → step s = .refused .readSpaceReadOnly)

/-- R41: configuration readback in every state, its values with the default TABLE, and that these words are read-only and constant.
-/
def Obligations.ConfigurationReadback : Prop :=
  (∀ s : State,
    (s.memRead 0x008#12).extractLsb' 0 16 = s.cfg.table.unit ∧ (s.memRead 0x008#12).extractLsb' 16 16 = 0#16 ∧
    (s.memRead 0x00C#12).extractLsb' 0 16 = s.cfg.table.sync.high ∧
    (s.memRead 0x00C#12).extractLsb' 16 16 = s.cfg.table.sync.low ∧
    (s.memRead 0x010#12).extractLsb' 0 16 = s.cfg.table.zero.high ∧
    (s.memRead 0x010#12).extractLsb' 16 16 = s.cfg.table.zero.low ∧
    (s.memRead 0x014#12).extractLsb' 0 16 = s.cfg.table.one.high ∧
    (s.memRead 0x014#12).extractLsb' 16 16 = s.cfg.table.one.low) ∧
  (∀ s : State, s.cfg.table = Table.default →
    s.memRead 0x008#12 = 0x0000015E#32 ∧ s.memRead 0x00C#12 = 0x001F0001#32 ∧
    s.memRead 0x010#12 = 0x00030001#32 ∧ s.memRead 0x014#12 = 0x00010003#32) ∧
  (∀ a, a = 0x008#12 ∨ a = 0x00C#12 ∨ a = 0x010#12 ∨ a = 0x014#12 →
    (∀ s t : State, step s = .next t → t.memRead a = s.memRead a) ∧
    (∀ (s : State) (h : Nat) (d : Datum) (rest : List Turn),
      s.env.agenda = .write h a d :: rest → step s = .refused .readSpaceReadOnly))

/-- R69: `wait_idle` goes round exactly while the block is not IDLE. -/
def Obligations.WaitIdleLoopsWhileBusy : Prop :=
  ∀ s : State, waitIdleLoops (s.memRead waitIdleAddr) = true ↔ s.st ≠ .idle

/-! ### The encoder -/

/-- R71: the symbol durations are the exact products and at least 1 under every valid TABLE, with the values of the default one. -/
def Obligations.SymbolDurationsAreExact : Prop :=
  (∀ (t : Table) (y : Symbol),
    (hiUs t y).toNat = y.high.toNat * t.unit.toNat ∧ (loUs t y).toNat = y.low.toNat * t.unit.toNat) ∧
  (∀ t : Table, t.valid = true → ∀ y, y = t.sync ∨ y = t.zero ∨ y = t.one →
    1 ≤ (hiUs t y).toNat ∧ 1 ≤ (loUs t y).toNat) ∧
  hiUs Table.default Table.default.zero = 350#32 ∧ loUs Table.default Table.default.zero = 1050#32 ∧
  hiUs Table.default Table.default.one = 1050#32 ∧ loUs Table.default Table.default.one = 350#32 ∧
  hiUs Table.default Table.default.sync = 350#32 ∧ loUs Table.default Table.default.sync = 10850#32

/-- R72: the train's layout, most significant data bit first, closed by the sync HIGH; message bits at and above `bits` have no
effect. -/
def Obligations.EncodedTrainHasItsLayout : Prop :=
  ∀ (t : Table) (message : BitVec 32) (bits : Nat), 1 ≤ bits → bits ≤ 32 →
    (encodeTrain t message bits).length = 2 * bits + 1 ∧
    (∀ k, k < bits →
      (encodeTrain t message bits)[2 * (bits - 1 - k)]? = some (hiUs t (if message.getLsbD k then t.one else t.zero)) ∧
      (encodeTrain t message bits)[2 * (bits - 1 - k) + 1]? =
        some (loUs t (if message.getLsbD k then t.one else t.zero))) ∧
    (encodeTrain t message bits)[2 * bits]? = some (hiUs t t.sync) ∧
    (∀ other : BitVec 32, (∀ k, k < bits → other.getLsbD k = message.getLsbD k) →
      encodeTrain t other bits = encodeTrain t message bits)

/-- R74: the encode step writes entries `0 .. 2*bits` and the length, keeps the entries above, and touches nothing else; it reads
neither `claimed` nor `st`. -/
def Obligations.EncodeStepWritesOnlyTheTrain : Prop :=
  ∀ (s : State) (message : BitVec 32) (bits : BitVec 6), 1 ≤ bits.toNat → bits.toNat ≤ 32 →
    TrainEncoded s (s.encodeStep message bits) message bits ∧
    SameSession s (s.encodeStep message bits) ∧ SameTeardown s (s.encodeStep message bits) ∧
    SameLine s (s.encodeStep message bits) ∧ SameBase s (s.encodeStep message bits) ∧
    SamePorts s (s.encodeStep message bits) ∧ (s.encodeStep message bits).err = s.err ∧
    (∀ (cl : Bool) (ph : Phase),
      ({ s with claimed := cl, st := ph } : State).encodeStep message bits =
        { s.encodeStep message bits with claimed := cl, st := ph })

/-- R75 item 5: the sum of a train is the sum of its symbols and the sync HIGH; with the default TABLE it is
`1400*bits + 350`. -/
def Obligations.TrainSumsToItsSymbols : Prop :=
  (∀ (t : Table) (message : BitVec 32) (bits : Nat),
    ((encodeTrain t message bits).map BitVec.toNat).sum =
      ((List.range bits).map fun k =>
        (hiUs t (symbolOf t message k)).toNat + (loUs t (symbolOf t message k)).toNat).sum + (hiUs t t.sync).toNat) ∧
  (∀ (message : BitVec 32) (bits : Nat),
    ((encodeTrain Table.default message bits).map BitVec.toNat).sum = 1400 * bits + 350)

/-! ### The sequencer -/

/-- R79: the start of a frame on a claimed line forces the line LOW and sets the frame's registers, and no others; and every step
that enters FRAME is such a start. -/
def Obligations.FrameStartForcesLow : Prop :=
  (∀ s : State, s.claimed = true →
    FrameStarted s s.beginFrame ∧ s.beginFrame.repeatTotal = s.repeatTotal ∧ s.beginFrame.framesDone = s.framesDone ∧
    s.beginFrame.sessOwner = s.sessOwner ∧ s.beginFrame.err = s.err ∧ s.beginFrame.env = s.env ∧
    SameTeardown s s.beginFrame ∧ SameTrain s s.beginFrame ∧ SameBase s s.beginFrame ∧ SamePorts s s.beginFrame) ∧
  (∀ s t : State, SessionInv s → step s = .next t → s.st ≠ .frame → t.st = .frame → FrameStarted s t)

/-- R82: the toggle branch of FRAME_POLL and when it is enabled. The deadline advances from the previous deadline; when the write
is late past the next deadline, FRAME_POLL is enabled again at once. -/
def Obligations.FramePollWritesTheNextLevel : Prop :=
  (∀ s : State,
    s.toggleEnabled = true ↔ s.st = .frame ∧ s.deadline ≤ s.now ∧ s.idx.toNat < s.trainLen.toNat) ∧
  (∀ (s : State) (rest : List Turn) (v : Datum),
    s.env.agenda = .sequence :: rest → s.claimed = true → s.st = .frame → s.deadline ≤ s.now →
    s.idx.toNat < s.trainLen.toNat → s.train.entry? s.idx.toNat = some v →
    ∃ t, step s = .next t ∧ t.level = s.nextLevel ∧ t.history = s.history ++ [⟨s.now, s.nextLevel⟩] ∧
      t.deadline = s.deadline + v.toNat ∧ t.idx.toNat = s.idx.toNat + 1 ∧ t.nextLevel = s.nextLevel.flip ∧
      t.st = .frame ∧ t.claimed = true ∧ t.frameStart = s.frameStart ∧ t.gapEnd = s.gapEnd ∧
      t.repeatTotal = s.repeatTotal ∧ t.framesDone = s.framesDone ∧ t.sessOwner = s.sessOwner ∧ t.err = s.err ∧
      SameTeardown s t ∧ SameTrain s t ∧ SameBase s t ∧ SamePorts s t ∧
      (s.deadline + v.toNat ≤ s.now → t.toggleEnabled = true ∨ t.frameEndEnabled = true))

/-- R83: the end branch of FRAME_POLL and when it is enabled: a gap of SYNC_LOW_US and some jitter in `[0, GAP_JITTER_MAX]`, any of
which can be drawn; a pending teardown is enabled from the gap at once. -/
def Obligations.FrameEndOpensTheGap : Prop :=
  (∀ s : State, s.frameEndEnabled = true ↔ s.st = .frame ∧ s.deadline ≤ s.now ∧ s.idx = s.trainLen) ∧
  (∀ (s : State) (rest : List Turn),
    s.env.agenda = .sequence :: rest → s.claimed = true → s.st = .frame → s.deadline ≤ s.now → s.idx = s.trainLen →
    s.framesDone.toNat < s.repeatTotal.toNat →
    (∃ t j, step s = .next t ∧ j ≤ s.cfg.gapJitterMax ∧ t.st = .gap ∧ t.level = .low ∧
      t.history = s.history ++ [⟨s.now, .low⟩] ∧ t.framesDone.toNat = s.framesDone.toNat + 1 ∧
      t.gapEnd = s.now + s.cfg.table.sync.low.toNat * s.cfg.table.unit.toNat + j ∧
      t.idx = s.idx ∧ t.nextLevel = s.nextLevel ∧ t.deadline = s.deadline ∧ t.frameStart = s.frameStart ∧
      t.repeatTotal = s.repeatTotal ∧ t.sessOwner = s.sessOwner ∧ t.claimed = true ∧ t.err = s.err ∧
      SameTeardown s t ∧ SameTrain s t ∧ SameBase s t ∧ SamePorts s t ∧
      (s.tdPending = true → t.teardownApplyEnabled = true)) ∧
    (∀ j, j ≤ s.cfg.gapJitterMax → ∃ e t, e.agenda = .sequence :: rest ∧ step { s with env := e } = .next t ∧
      t.gapEnd = s.now + s.cfg.table.sync.low.toNat * s.cfg.table.unit.toNat + j))

/-- R84: GAP_END and when it is enabled. It starts the next frame while frames are left; after the last gap it makes the block IDLE
and answers OK, with the line LOW and still claimed. -/
def Obligations.GapEndStartsTheNextFrameOrEndsTheSession : Prop :=
  (∀ s : State, s.gapEndEnabled = true ↔ s.st = .gap ∧ s.gapEnd ≤ s.now ∧ s.tdPending = false) ∧
  (∀ (s : State) (rest : List Turn),
    SessionInv s → s.env.agenda = .sequence :: rest → s.st = .gap → s.gapEnd ≤ s.now → s.tdPending = false →
    ∃ t, step s = .next t ∧ t.err = .ok ∧ t.level = .low ∧ t.claimed = true ∧ t.repeatTotal = s.repeatTotal ∧
      t.framesDone = s.framesDone ∧ t.sessOwner = s.sessOwner ∧ SameTeardown s t ∧ SameTrain s t ∧ SameBase s t ∧
      (s.framesDone.toNat < s.repeatTotal.toNat → FrameStarted s t ∧ SamePorts s t) ∧
      (s.repeatTotal.toNat ≤ s.framesDone.toNat →
        t.st = .idle ∧ Responded s t s.sessOwner .ok ∧ SameLine s t ∧ t.idx = s.idx ∧ t.nextLevel = s.nextLevel ∧
        t.deadline = s.deadline ∧ t.frameStart = s.frameStart ∧ t.gapEnd = s.gapEnd))

/-- R97: TEARDOWN_APPLY in IDLE and in GAP. In GAP the session's owner gets CANCELLED_BETWEEN_REPEATS if frames are left and else
OK; the line, if claimed, is forced LOW and released; the teardown's owner gets OK. It is enabled in IDLE and GAP only, is urgent
there, and is enabled at the very instant at which a frame ends. -/
def Obligations.TeardownApplyEndsTheSessionAndReleasesTheLine : Prop :=
  (∀ (s : State) (rest : List Turn),
    s.env.agenda = .sequence :: rest → s.tdPending = true → s.st ≠ .frame →
    (s.st = .gap → s.sessOwner ≠ s.tdOwner) →
    ∃ t, step s = .next t ∧ t.tdPending = false ∧ t.st = .idle ∧ t.claimed = false ∧
      t.requesterAt s.tdOwner =
        (s.requesterAt s.tdOwner).map (fun r => { r with waiting := false, resp := r.resp ++ [.ok] }) ∧
      (s.claimed = true → t.level = .low ∧ t.history = s.history ++ [⟨s.now, .low⟩]) ∧
      (s.claimed = false → t.level = s.level ∧ t.history = s.history) ∧
      (s.st = .idle → t.err = s.err ∧ ∀ k, k ≠ s.tdOwner → t.requesterAt k = s.requesterAt k) ∧
      (s.st = .gap →
        t.err = (if s.framesDone.toNat < s.repeatTotal.toNat then .cancelledBetweenRepeats else .ok) ∧
        t.requesterAt s.sessOwner = (s.requesterAt s.sessOwner).map (fun r =>
          { r with waiting := false, resp := r.resp ++
            [if s.framesDone.toNat < s.repeatTotal.toNat then .cancelledBetweenRepeats else .ok] }) ∧
        ∀ k, k ≠ s.tdOwner → k ≠ s.sessOwner → t.requesterAt k = s.requesterAt k) ∧
      t.repeatTotal = s.repeatTotal ∧ t.framesDone = s.framesDone ∧ t.idx = s.idx ∧ t.nextLevel = s.nextLevel ∧
      t.deadline = s.deadline ∧ t.frameStart = s.frameStart ∧ t.gapEnd = s.gapEnd ∧ t.sessOwner = s.sessOwner ∧
      t.tdOwner = s.tdOwner ∧ t.reads = s.reads ∧ SameTrain s t ∧ SameBase s t) ∧
  (∀ s : State, s.teardownApplyEnabled = true ↔ s.tdPending = true ∧ (s.st = .idle ∨ s.st = .gap)) ∧
  (∀ s : State, s.teardownApplyEnabled = true → s.urgent = true) ∧
  (∀ (s t : State) (rest : List Turn), s.env.agenda = .sequence :: rest → s.st = .frame → s.tdPending = true →
    step s = .next t → t.st ≠ .frame → t.teardownApplyEnabled = true ∧ t.now = s.now)

/-- R104: in every state at most one sequencer step is enabled. -/
def Obligations.AtMostOneSequencerStepIsEnabled : Prop :=
  ∀ s : State,
    ([s.toggleEnabled, s.frameEndEnabled, s.gapEndEnabled, s.teardownApplyEnabled].filter (fun b => b)).length ≤ 1

/-- R85, R109: TICK adds one microsecond and changes nothing else, but for an urgent sequencer step, which it waits for. -/
def Obligations.UrgentStepsStopTheClock : Prop :=
  ∀ (s : State) (rest : List Turn), SessionInv s → s.env.agenda = .tick :: rest →
    (((s.st = .frame ∧ s.deadline + s.cfg.lagMax ≤ s.now) ∨ (s.st = .gap ∧ s.gapEnd ≤ s.now ∧ s.tdPending = false) ∨
        (s.tdPending = true ∧ s.st ≠ .frame)) →
      step s = .next (s.withAgenda rest)) ∧
    (¬((s.st = .frame ∧ s.deadline + s.cfg.lagMax ≤ s.now) ∨ (s.st = .gap ∧ s.gapEnd ≤ s.now ∧ s.tdPending = false) ∨
        (s.tdPending = true ∧ s.st ≠ .frame)) →
      step s = .next { s.withAgenda rest with now := s.now + 1 })

/-- R85: the line write of FRAME_POLL happens at a time in `[deadline, deadline + LAG_MAX]`, and GAP_END happens exactly at
`gap_end`, in every state in which urgency has been respected. -/
def Obligations.SequencerStepsAreOnTime : Prop :=
  ∀ s : State, TimingInv s →
    ((s.toggleEnabled = true ∨ s.frameEndEnabled = true) → s.deadline ≤ s.now ∧ s.now ≤ s.deadline + s.cfg.lagMax) ∧
    (s.gapEndEnabled = true → s.now = s.gapEnd)

/-- R110: with LAG_MAX = 0 no sequencer step is enabled right after a toggle, so at one instant a frame makes one toggle at most. -/
def Obligations.NoSecondToggleAtOneInstant : Prop :=
  ∀ s : State, SessionInv s → TimingInv s → s.cfg.lagMax = 0 → s.toggleEnabled = true →
    s.sequencerStep.toggleEnabled = false ∧ s.sequencerStep.frameEndEnabled = false ∧
    s.sequencerStep.gapEndEnabled = false ∧ s.sequencerStep.teardownApplyEnabled = false

/-- spec/93_implementation_defined.md section 4, R109: no state is stuck: TICK advances the time, or the sequencer has a step that
changes the state. -/
def Obligations.NoStateIsStuck : Prop :=
  ∀ s : State, s.tick.now = s.now + 1 ∨ s.sequencerStep ≠ s

/-! ### Exclusivity and serialisation -/

/-- R86: while a frame plays, no step but FRAME_POLL (and the external reset) writes the line or changes the session; no command but
TEARDOWN is accepted; an accepted TEARDOWN changes only its marks and its requester; and TEARDOWN_APPLY is not enabled. -/
def Obligations.NothingDisturbsAFrame : Prop :=
  ∀ s t : State, s.st = .frame → step s = .next t → s.nextTurn ≠ .reset →
    (s.nextTurn ≠ .sequence → SameLine s t ∧ SameSession s t ∧ SameTrain s t) ∧
    (∀ c, s.ready c = true → wfTeardown c = true) ∧
    (∀ h r c, s.nextTurn = .accept h → s.requesterAt h = some r → r.pending = some c →
      (wfTeardown c = false → t = s.takeTurn) ∧
      (wfTeardown c = true → s.tdPending = false →
        t.tdPending = true ∧ t.tdOwner = h ∧ t.err = s.err ∧ t.reads = s.reads ∧ SameBase s t ∧
        t.requesterAt h = some { r with pending := none, waiting := true } ∧
        ∀ k, k ≠ h → t.requesterAt k = s.requesterAt k)) ∧
    s.teardownApplyEnabled = false

/-- R87: a frame that has started runs to its end branch: a step leaves FRAME only by the end branch, or by reset. -/
def Obligations.FramesAreNeverCancelled : Prop :=
  ∀ s t : State, s.st = .frame → step s = .next t → s.nextTurn ≠ .reset → t.st ≠ .frame →
    s.nextTurn = .sequence ∧ s.frameEndEnabled = true ∧ t.st = .gap ∧ t.framesDone = s.framesDone + 1#16

/-- R88, R57: while a session is active and stays active, its owner, its repeat count and the train stay what they are. -/
def Obligations.SessionsNeverOverlap : Prop :=
  ∀ s t : State, s.st ≠ .idle → step s = .next t → t.st ≠ .idle →
    t.sessOwner = s.sessOwner ∧ t.repeatTotal = s.repeatTotal ∧ t.claimed = s.claimed ∧ SameTrain s t

/-! ### Invariants -/

/-- Every invariant holds right after reset, whatever the configuration, and the train RAM is in canonical form. The invariants rest on
R44 and R117; the canonical form is the model's choice (notes/assumptions/9.md). -/
def Obligations.InvariantsHoldAtReset : Prop :=
  ∀ cfg : Config, SessionInv (State.boot cfg) ∧ PortInv (State.boot cfg) ∧ LineInv (State.boot cfg) ∧
    TimingInv (State.boot cfg) ∧ WaveformInv (State.boot cfg) ∧ (State.boot cfg).train.wf = true

/-- R44: every step keeps the invariants of the sequencer, the line and the train. -/
def Obligations.StepKeepsSessionInvariants : Prop :=
  ∀ s t : State, SessionInv s → step s = .next t → SessionInv t

/-- R38, R100, R101: every step keeps the requesters' invariants: exactly the owners of the running session and of the pending
teardown wait for a response, and RESOURCE_EXHAUSTED is never produced. -/
def Obligations.StepKeepsPortInvariants : Prop :=
  ∀ s t : State, PortInv s → step s = .next t → PortInv t

/-- R33, R112: every step keeps the line history in time order, in the past, and its last write the level of the line. -/
def Obligations.StepKeepsLineHistoryInvariants : Prop :=
  ∀ s t : State, LineInv s → step s = .next t → LineInv t

/-- R85: every step keeps the sequencer on time: a FRAME_POLL is at most LAG_MAX late and a gap is never overrun. -/
def Obligations.StepKeepsTheSequencerOnTime : Prop :=
  ∀ s t : State, SessionInv s → TimingInv s → step s = .next t → TimingInv t

/-- R89: every step, whoever takes it, keeps the line history of the running frame the prescribed waveform. -/
def Obligations.StepKeepsTheWaveform : Prop :=
  ∀ s t : State, SessionInv s → TimingInv s → WaveformInv s → step s = .next t → WaveformInv t

/-- R89, R90: when the end branch is taken, the frame has made exactly `train_len + 2` line writes: the forced LOW of its start,
`train_len` toggle writes in order, each in its window, and the forced LOW of its end, in its window. -/
def Obligations.WholeFrameHasItsWaveform : Prop :=
  ∀ s t : State, SessionInv s → TimingInv s → WaveformInv s → s.frameEndEnabled = true → s.nextTurn = .sequence →
    step s = .next t →
    ∃ before ts e, t.history = before ++ ⟨s.frameStart, .low⟩ :: ts ++ [⟨e, .low⟩] ∧
      ts.length = s.trainLen.toNat ∧ TogglesFrom s.train s.frameStart s.cfg.lagMax ts ∧
      s.frameStart + s.train.sumTo s.trainLen.toNat ≤ e ∧
      e ≤ s.frameStart + s.train.sumTo s.trainLen.toNat + s.cfg.lagMax

/-- R34: every step keeps the train RAM in canonical form, indices rising and below 65. Holding it as a list in this form is the
model's choice (notes/assumptions/9.md). -/
def Obligations.StepKeepsTheTrainRamCanonical : Prop :=
  ∀ s t : State, s.train.wf = true → step s = .next t → t.train.wf = true

/-- R22: no step changes the configuration. -/
def Obligations.ConfigurationNeverChanges : Prop :=
  ∀ s t : State, step s = .next t → t.cfg = s.cfg

/-- R101: the responses answer the accepted commands one for one (reset apart). A requester that waits, or whose command is accepted in
this step, either waits after the step, with no response, or waits no more and has got exactly one response after its earlier ones;
any other requester gets none and does not come to wait. That the response of a session comes at all is EverySessionCanRunToItsEnd. -/
def Obligations.EachCommandGetsOneResponse : Prop :=
  ∀ s t : State, PortInv s → step s = .next t → s.nextTurn ≠ .reset →
    ∀ h r, s.requesterAt h = some r → ∃ r', t.requesterAt h = some r' ∧
      ((r.waiting = true ∨ (s.nextTurn = .accept h ∧ ∃ c, r.pending = some c ∧ s.ready c = true)) →
        (r'.waiting = true ∧ r'.resp = r.resp) ∨ (r'.waiting = false ∧ ∃ code, r'.resp = r.resp ++ [code])) ∧
      (¬(r.waiting = true ∨ (s.nextTurn = .accept h ∧ ∃ c, r.pending = some c ∧ s.ready c = true)) →
        r'.waiting = false ∧ r'.resp = r.resp)

/-- R37, R109: only TICK advances the time, by one microsecond; no other step but reset changes it. -/
def Obligations.OnlyTickAdvancesTime : Prop :=
  ∀ s t : State, step s = .next t → s.nextTurn ≠ .reset →
    t.now = s.now ∨ (s.nextTurn = .tick ∧ t.now = s.now + 1)

/-- R112, R111: the line history only grows (reset apart), and what a step adds to it bears the time of that step. -/
def Obligations.LineHistoryOnlyGrows : Prop :=
  ∀ s t : State, step s = .next t → s.nextTurn ≠ .reset →
    ∃ ws, t.history = s.history ++ ws ∧ ∀ w, w ∈ ws → w.time = s.now

/-- R32: while the line is unclaimed the block makes no line write. In states that no run reaches this rests on the model's choice of
notes/assumptions/10.md. -/
def Obligations.UnclaimedLineIsNotWritten : Prop :=
  ∀ s t : State, step s = .next t → s.nextTurn ≠ .reset → s.claimed = false → t.claimed = false →
    t.history = s.history ∧ t.level = s.level

/-- R117: reset in any state sets every field to its reset value, makes no LineWrite and empties the history; STATUS and FRAMES read
0. The owners, whose reset values the spec leaves unspecified, are not mentioned. -/
def Obligations.ResetClearsTheBlock : Prop :=
  ∀ (s : State) (rest : List Turn), s.env.agenda = .reset :: rest →
    ∃ t, step s = .next t ∧ t.cfg = s.cfg ∧
      t.st = .idle ∧ t.idx = 0#7 ∧ t.nextLevel = .high ∧ t.deadline = 0 ∧ t.frameStart = 0 ∧ t.gapEnd = 0 ∧
      t.repeatTotal = 0#16 ∧ t.framesDone = 0#16 ∧ t.tdPending = false ∧ t.claimed = false ∧ t.level = .low ∧
      t.trainLen = 0#7 ∧ t.err = .ok ∧ t.now = 0 ∧ (∀ i, t.train.entry? i = none) ∧
      (∀ h, h < s.cfg.nReq → t.requesterAt h = some ⟨none, false, []⟩) ∧
      (∀ h, s.cfg.nReq ≤ h → t.requesterAt h = none) ∧ t.history = [] ∧
      t.memRead 0x000#12 = 0x00000000#32 ∧ t.memRead 0x004#12 = 0x00000000#32

/-! ### Completion -/

/-- R87, R89, R92: every frame can be played to its end: from every frame state that satisfies the session invariant, some turns of
the sequencer and the clock alone reach its end branch, at the time of its last deadline if it is not already late. -/
def Obligations.EveryFrameCanRunToItsEnd : Prop :=
  ∀ s : State, SessionInv s → s.st = .frame →
    ∃ turns t, (∀ u, u ∈ turns → u = .sequence ∨ u = .tick) ∧
      Host.Core.run Sys2Proof.core turns.length (s.withAgenda turns) = .next t ∧
      t.st = .gap ∧ t.framesDone.toNat = s.framesDone.toNat + 1 ∧
      t.now = max s.now (s.frameStart + s.train.sumTo s.trainLen.toNat)

/-- R84, R87, R92, R101: every session can be played to its end: from every state with a running session and no pending teardown,
some turns of the sequencer and the clock alone make all its frames and gaps, leave the line LOW and claimed, and answer OK to its
owner and to nobody else. -/
def Obligations.EverySessionCanRunToItsEnd : Prop :=
  ∀ s : State, SessionInv s → s.st ≠ .idle → s.tdPending = false →
    ∃ turns t, (∀ u, u ∈ turns → u = .sequence ∨ u = .tick) ∧
      Host.Core.run Sys2Proof.core turns.length (s.withAgenda turns) = .next t ∧
      t.st = .idle ∧ t.repeatTotal = s.repeatTotal ∧ t.framesDone = s.repeatTotal ∧ t.err = .ok ∧
      t.level = .low ∧ t.claimed = true ∧ Responded s t s.sessOwner .ok ∧ SameTrain s t
end

