-- ==== Sys2Proof/Laws/State.lean ====
section
/-! SUPPORT. One lemma per field per update of the state, so that no proof unfolds a record update. The lemmas of one update stand
together, in the order in which the update is defined; a field an update does not name keeps its value. -/

namespace Sys2Proof.Machine

variable (s : State)

/-! ### takeGrant -/

@[simp] theorem State.takeGrant_cfg : (s.takeGrant).cfg = s.cfg := rfl
@[simp] theorem State.takeGrant_st : (s.takeGrant).st = s.st := rfl
@[simp] theorem State.takeGrant_idx : (s.takeGrant).idx = s.idx := rfl
@[simp] theorem State.takeGrant_nextLevel : (s.takeGrant).nextLevel = s.nextLevel := rfl
@[simp] theorem State.takeGrant_deadline : (s.takeGrant).deadline = s.deadline := rfl
@[simp] theorem State.takeGrant_frameStart : (s.takeGrant).frameStart = s.frameStart := rfl
@[simp] theorem State.takeGrant_gapEnd : (s.takeGrant).gapEnd = s.gapEnd := rfl
@[simp] theorem State.takeGrant_repeatTotal : (s.takeGrant).repeatTotal = s.repeatTotal := rfl
@[simp] theorem State.takeGrant_framesDone : (s.takeGrant).framesDone = s.framesDone := rfl
@[simp] theorem State.takeGrant_sessOwner : (s.takeGrant).sessOwner = s.sessOwner := rfl
@[simp] theorem State.takeGrant_tdPending : (s.takeGrant).tdPending = s.tdPending := rfl
@[simp] theorem State.takeGrant_tdOwner : (s.takeGrant).tdOwner = s.tdOwner := rfl
@[simp] theorem State.takeGrant_claimed : (s.takeGrant).claimed = s.claimed := rfl
@[simp] theorem State.takeGrant_level : (s.takeGrant).level = s.level := rfl
@[simp] theorem State.takeGrant_train : (s.takeGrant).train = s.train := rfl
@[simp] theorem State.takeGrant_trainLen : (s.takeGrant).trainLen = s.trainLen := rfl
@[simp] theorem State.takeGrant_err : (s.takeGrant).err = s.err := rfl
@[simp] theorem State.takeGrant_now : (s.takeGrant).now = s.now := rfl
@[simp] theorem State.takeGrant_requesters : (s.takeGrant).requesters = s.requesters := rfl
@[simp] theorem State.takeGrant_history : (s.takeGrant).history = s.history := rfl
@[simp] theorem State.takeGrant_reads : (s.takeGrant).reads = s.reads := rfl
@[simp] theorem State.takeGrant_env :
    (s.takeGrant).env = { s.env with grants := s.env.grants.tail, draws := s.env.countDraw s.env.grants.isEmpty } :=
  rfl

/-! ### takeJitter -/

@[simp] theorem State.takeJitter_cfg : (s.takeJitter).cfg = s.cfg := rfl
@[simp] theorem State.takeJitter_st : (s.takeJitter).st = s.st := rfl
@[simp] theorem State.takeJitter_idx : (s.takeJitter).idx = s.idx := rfl
@[simp] theorem State.takeJitter_nextLevel : (s.takeJitter).nextLevel = s.nextLevel := rfl
@[simp] theorem State.takeJitter_deadline : (s.takeJitter).deadline = s.deadline := rfl
@[simp] theorem State.takeJitter_frameStart : (s.takeJitter).frameStart = s.frameStart := rfl
@[simp] theorem State.takeJitter_gapEnd : (s.takeJitter).gapEnd = s.gapEnd := rfl
@[simp] theorem State.takeJitter_repeatTotal : (s.takeJitter).repeatTotal = s.repeatTotal := rfl
@[simp] theorem State.takeJitter_framesDone : (s.takeJitter).framesDone = s.framesDone := rfl
@[simp] theorem State.takeJitter_sessOwner : (s.takeJitter).sessOwner = s.sessOwner := rfl
@[simp] theorem State.takeJitter_tdPending : (s.takeJitter).tdPending = s.tdPending := rfl
@[simp] theorem State.takeJitter_tdOwner : (s.takeJitter).tdOwner = s.tdOwner := rfl
@[simp] theorem State.takeJitter_claimed : (s.takeJitter).claimed = s.claimed := rfl
@[simp] theorem State.takeJitter_level : (s.takeJitter).level = s.level := rfl
@[simp] theorem State.takeJitter_train : (s.takeJitter).train = s.train := rfl
@[simp] theorem State.takeJitter_trainLen : (s.takeJitter).trainLen = s.trainLen := rfl
@[simp] theorem State.takeJitter_err : (s.takeJitter).err = s.err := rfl
@[simp] theorem State.takeJitter_now : (s.takeJitter).now = s.now := rfl
@[simp] theorem State.takeJitter_requesters : (s.takeJitter).requesters = s.requesters := rfl
@[simp] theorem State.takeJitter_history : (s.takeJitter).history = s.history := rfl
@[simp] theorem State.takeJitter_reads : (s.takeJitter).reads = s.reads := rfl
@[simp] theorem State.takeJitter_env :
    (s.takeJitter).env = { s.env with jitters := s.env.jitters.tail, draws := s.env.countDraw s.env.jitters.isEmpty } :=
  rfl

/-! ### takeWord -/

@[simp] theorem State.takeWord_cfg : (s.takeWord).cfg = s.cfg := rfl
@[simp] theorem State.takeWord_st : (s.takeWord).st = s.st := rfl
@[simp] theorem State.takeWord_idx : (s.takeWord).idx = s.idx := rfl
@[simp] theorem State.takeWord_nextLevel : (s.takeWord).nextLevel = s.nextLevel := rfl
@[simp] theorem State.takeWord_deadline : (s.takeWord).deadline = s.deadline := rfl
@[simp] theorem State.takeWord_frameStart : (s.takeWord).frameStart = s.frameStart := rfl
@[simp] theorem State.takeWord_gapEnd : (s.takeWord).gapEnd = s.gapEnd := rfl
@[simp] theorem State.takeWord_repeatTotal : (s.takeWord).repeatTotal = s.repeatTotal := rfl
@[simp] theorem State.takeWord_framesDone : (s.takeWord).framesDone = s.framesDone := rfl
@[simp] theorem State.takeWord_sessOwner : (s.takeWord).sessOwner = s.sessOwner := rfl
@[simp] theorem State.takeWord_tdPending : (s.takeWord).tdPending = s.tdPending := rfl
@[simp] theorem State.takeWord_tdOwner : (s.takeWord).tdOwner = s.tdOwner := rfl
@[simp] theorem State.takeWord_claimed : (s.takeWord).claimed = s.claimed := rfl
@[simp] theorem State.takeWord_level : (s.takeWord).level = s.level := rfl
@[simp] theorem State.takeWord_train : (s.takeWord).train = s.train := rfl
@[simp] theorem State.takeWord_trainLen : (s.takeWord).trainLen = s.trainLen := rfl
@[simp] theorem State.takeWord_err : (s.takeWord).err = s.err := rfl
@[simp] theorem State.takeWord_now : (s.takeWord).now = s.now := rfl
@[simp] theorem State.takeWord_requesters : (s.takeWord).requesters = s.requesters := rfl
@[simp] theorem State.takeWord_history : (s.takeWord).history = s.history := rfl
@[simp] theorem State.takeWord_reads : (s.takeWord).reads = s.reads := rfl
@[simp] theorem State.takeWord_env :
    (s.takeWord).env = { s.env with words := s.env.words.tail, draws := s.env.countDraw s.env.words.isEmpty } :=
  rfl

/-! ### takeTurn -/

@[simp] theorem State.takeTurn_cfg : (s.takeTurn).cfg = s.cfg := rfl
@[simp] theorem State.takeTurn_st : (s.takeTurn).st = s.st := rfl
@[simp] theorem State.takeTurn_idx : (s.takeTurn).idx = s.idx := rfl
@[simp] theorem State.takeTurn_nextLevel : (s.takeTurn).nextLevel = s.nextLevel := rfl
@[simp] theorem State.takeTurn_deadline : (s.takeTurn).deadline = s.deadline := rfl
@[simp] theorem State.takeTurn_frameStart : (s.takeTurn).frameStart = s.frameStart := rfl
@[simp] theorem State.takeTurn_gapEnd : (s.takeTurn).gapEnd = s.gapEnd := rfl
@[simp] theorem State.takeTurn_repeatTotal : (s.takeTurn).repeatTotal = s.repeatTotal := rfl
@[simp] theorem State.takeTurn_framesDone : (s.takeTurn).framesDone = s.framesDone := rfl
@[simp] theorem State.takeTurn_sessOwner : (s.takeTurn).sessOwner = s.sessOwner := rfl
@[simp] theorem State.takeTurn_tdPending : (s.takeTurn).tdPending = s.tdPending := rfl
@[simp] theorem State.takeTurn_tdOwner : (s.takeTurn).tdOwner = s.tdOwner := rfl
@[simp] theorem State.takeTurn_claimed : (s.takeTurn).claimed = s.claimed := rfl
@[simp] theorem State.takeTurn_level : (s.takeTurn).level = s.level := rfl
@[simp] theorem State.takeTurn_train : (s.takeTurn).train = s.train := rfl
@[simp] theorem State.takeTurn_trainLen : (s.takeTurn).trainLen = s.trainLen := rfl
@[simp] theorem State.takeTurn_err : (s.takeTurn).err = s.err := rfl
@[simp] theorem State.takeTurn_now : (s.takeTurn).now = s.now := rfl
@[simp] theorem State.takeTurn_requesters : (s.takeTurn).requesters = s.requesters := rfl
@[simp] theorem State.takeTurn_history : (s.takeTurn).history = s.history := rfl
@[simp] theorem State.takeTurn_reads : (s.takeTurn).reads = s.reads := rfl
@[simp] theorem State.takeTurn_env :
    (s.takeTurn).env = { s.env with agenda := s.env.agenda.tail, draws := s.env.countDraw s.env.agenda.isEmpty } :=
  rfl

/-! ### trainTaken -/

@[simp] theorem State.trainTaken_cfg (i : Nat) :
    (s.trainTaken i).cfg = s.cfg :=
  by unfold State.trainTaken; cases (s.train.entry? i).isNone <;> rfl
@[simp] theorem State.trainTaken_st (i : Nat) :
    (s.trainTaken i).st = s.st :=
  by unfold State.trainTaken; cases (s.train.entry? i).isNone <;> rfl
@[simp] theorem State.trainTaken_idx (i : Nat) :
    (s.trainTaken i).idx = s.idx :=
  by unfold State.trainTaken; cases (s.train.entry? i).isNone <;> rfl
@[simp] theorem State.trainTaken_nextLevel (i : Nat) :
    (s.trainTaken i).nextLevel = s.nextLevel :=
  by unfold State.trainTaken; cases (s.train.entry? i).isNone <;> rfl
@[simp] theorem State.trainTaken_deadline (i : Nat) :
    (s.trainTaken i).deadline = s.deadline :=
  by unfold State.trainTaken; cases (s.train.entry? i).isNone <;> rfl
@[simp] theorem State.trainTaken_frameStart (i : Nat) :
    (s.trainTaken i).frameStart = s.frameStart :=
  by unfold State.trainTaken; cases (s.train.entry? i).isNone <;> rfl
@[simp] theorem State.trainTaken_gapEnd (i : Nat) :
    (s.trainTaken i).gapEnd = s.gapEnd :=
  by unfold State.trainTaken; cases (s.train.entry? i).isNone <;> rfl
@[simp] theorem State.trainTaken_repeatTotal (i : Nat) :
    (s.trainTaken i).repeatTotal = s.repeatTotal :=
  by unfold State.trainTaken; cases (s.train.entry? i).isNone <;> rfl
@[simp] theorem State.trainTaken_framesDone (i : Nat) :
    (s.trainTaken i).framesDone = s.framesDone :=
  by unfold State.trainTaken; cases (s.train.entry? i).isNone <;> rfl
@[simp] theorem State.trainTaken_sessOwner (i : Nat) :
    (s.trainTaken i).sessOwner = s.sessOwner :=
  by unfold State.trainTaken; cases (s.train.entry? i).isNone <;> rfl
@[simp] theorem State.trainTaken_tdPending (i : Nat) :
    (s.trainTaken i).tdPending = s.tdPending :=
  by unfold State.trainTaken; cases (s.train.entry? i).isNone <;> rfl
@[simp] theorem State.trainTaken_tdOwner (i : Nat) :
    (s.trainTaken i).tdOwner = s.tdOwner :=
  by unfold State.trainTaken; cases (s.train.entry? i).isNone <;> rfl
@[simp] theorem State.trainTaken_claimed (i : Nat) :
    (s.trainTaken i).claimed = s.claimed :=
  by unfold State.trainTaken; cases (s.train.entry? i).isNone <;> rfl
@[simp] theorem State.trainTaken_level (i : Nat) :
    (s.trainTaken i).level = s.level :=
  by unfold State.trainTaken; cases (s.train.entry? i).isNone <;> rfl
@[simp] theorem State.trainTaken_train (i : Nat) :
    (s.trainTaken i).train = s.train :=
  by unfold State.trainTaken; cases (s.train.entry? i).isNone <;> rfl
@[simp] theorem State.trainTaken_trainLen (i : Nat) :
    (s.trainTaken i).trainLen = s.trainLen :=
  by unfold State.trainTaken; cases (s.train.entry? i).isNone <;> rfl
@[simp] theorem State.trainTaken_err (i : Nat) :
    (s.trainTaken i).err = s.err :=
  by unfold State.trainTaken; cases (s.train.entry? i).isNone <;> rfl
@[simp] theorem State.trainTaken_now (i : Nat) :
    (s.trainTaken i).now = s.now :=
  by unfold State.trainTaken; cases (s.train.entry? i).isNone <;> rfl
@[simp] theorem State.trainTaken_requesters (i : Nat) :
    (s.trainTaken i).requesters = s.requesters :=
  by unfold State.trainTaken; cases (s.train.entry? i).isNone <;> rfl
@[simp] theorem State.trainTaken_history (i : Nat) :
    (s.trainTaken i).history = s.history :=
  by unfold State.trainTaken; cases (s.train.entry? i).isNone <;> rfl
@[simp] theorem State.trainTaken_reads (i : Nat) :
    (s.trainTaken i).reads = s.reads :=
  by unfold State.trainTaken; cases (s.train.entry? i).isNone <;> rfl
@[simp] theorem State.trainTaken_env (i : Nat) :
    (s.trainTaken i).env = bif (s.train.entry? i).isNone then s.takeWord.env else s.env :=
  by unfold State.trainTaken; cases (s.train.entry? i).isNone <;> rfl

/-! ### memReadTaken -/

@[simp] theorem State.memReadTaken_cfg (a : ReadAddr) :
    (s.memReadTaken a).cfg = s.cfg :=
  by unfold State.memReadTaken; cases isTrainWord (readWordIndex a) <;> simp
@[simp] theorem State.memReadTaken_st (a : ReadAddr) :
    (s.memReadTaken a).st = s.st :=
  by unfold State.memReadTaken; cases isTrainWord (readWordIndex a) <;> simp
@[simp] theorem State.memReadTaken_idx (a : ReadAddr) :
    (s.memReadTaken a).idx = s.idx :=
  by unfold State.memReadTaken; cases isTrainWord (readWordIndex a) <;> simp
@[simp] theorem State.memReadTaken_nextLevel (a : ReadAddr) :
    (s.memReadTaken a).nextLevel = s.nextLevel :=
  by unfold State.memReadTaken; cases isTrainWord (readWordIndex a) <;> simp
@[simp] theorem State.memReadTaken_deadline (a : ReadAddr) :
    (s.memReadTaken a).deadline = s.deadline :=
  by unfold State.memReadTaken; cases isTrainWord (readWordIndex a) <;> simp
@[simp] theorem State.memReadTaken_frameStart (a : ReadAddr) :
    (s.memReadTaken a).frameStart = s.frameStart :=
  by unfold State.memReadTaken; cases isTrainWord (readWordIndex a) <;> simp
@[simp] theorem State.memReadTaken_gapEnd (a : ReadAddr) :
    (s.memReadTaken a).gapEnd = s.gapEnd :=
  by unfold State.memReadTaken; cases isTrainWord (readWordIndex a) <;> simp
@[simp] theorem State.memReadTaken_repeatTotal (a : ReadAddr) :
    (s.memReadTaken a).repeatTotal = s.repeatTotal :=
  by unfold State.memReadTaken; cases isTrainWord (readWordIndex a) <;> simp
@[simp] theorem State.memReadTaken_framesDone (a : ReadAddr) :
    (s.memReadTaken a).framesDone = s.framesDone :=
  by unfold State.memReadTaken; cases isTrainWord (readWordIndex a) <;> simp
@[simp] theorem State.memReadTaken_sessOwner (a : ReadAddr) :
    (s.memReadTaken a).sessOwner = s.sessOwner :=
  by unfold State.memReadTaken; cases isTrainWord (readWordIndex a) <;> simp
@[simp] theorem State.memReadTaken_tdPending (a : ReadAddr) :
    (s.memReadTaken a).tdPending = s.tdPending :=
  by unfold State.memReadTaken; cases isTrainWord (readWordIndex a) <;> simp
@[simp] theorem State.memReadTaken_tdOwner (a : ReadAddr) :
    (s.memReadTaken a).tdOwner = s.tdOwner :=
  by unfold State.memReadTaken; cases isTrainWord (readWordIndex a) <;> simp
@[simp] theorem State.memReadTaken_claimed (a : ReadAddr) :
    (s.memReadTaken a).claimed = s.claimed :=
  by unfold State.memReadTaken; cases isTrainWord (readWordIndex a) <;> simp
@[simp] theorem State.memReadTaken_level (a : ReadAddr) :
    (s.memReadTaken a).level = s.level :=
  by unfold State.memReadTaken; cases isTrainWord (readWordIndex a) <;> simp
@[simp] theorem State.memReadTaken_train (a : ReadAddr) :
    (s.memReadTaken a).train = s.train :=
  by unfold State.memReadTaken; cases isTrainWord (readWordIndex a) <;> simp
@[simp] theorem State.memReadTaken_trainLen (a : ReadAddr) :
    (s.memReadTaken a).trainLen = s.trainLen :=
  by unfold State.memReadTaken; cases isTrainWord (readWordIndex a) <;> simp
@[simp] theorem State.memReadTaken_err (a : ReadAddr) :
    (s.memReadTaken a).err = s.err :=
  by unfold State.memReadTaken; cases isTrainWord (readWordIndex a) <;> simp
@[simp] theorem State.memReadTaken_now (a : ReadAddr) :
    (s.memReadTaken a).now = s.now :=
  by unfold State.memReadTaken; cases isTrainWord (readWordIndex a) <;> simp
@[simp] theorem State.memReadTaken_requesters (a : ReadAddr) :
    (s.memReadTaken a).requesters = s.requesters :=
  by unfold State.memReadTaken; cases isTrainWord (readWordIndex a) <;> simp
@[simp] theorem State.memReadTaken_history (a : ReadAddr) :
    (s.memReadTaken a).history = s.history :=
  by unfold State.memReadTaken; cases isTrainWord (readWordIndex a) <;> simp
@[simp] theorem State.memReadTaken_reads (a : ReadAddr) :
    (s.memReadTaken a).reads = s.reads :=
  by unfold State.memReadTaken; cases isTrainWord (readWordIndex a) <;> simp

/-! ### updateRequester -/

@[simp] theorem State.updateRequester_cfg (h : Nat) (f : Requester → Requester) : (s.updateRequester h f).cfg = s.cfg := rfl
@[simp] theorem State.updateRequester_st (h : Nat) (f : Requester → Requester) : (s.updateRequester h f).st = s.st := rfl
@[simp] theorem State.updateRequester_idx (h : Nat) (f : Requester → Requester) : (s.updateRequester h f).idx = s.idx := rfl
@[simp] theorem State.updateRequester_nextLevel (h : Nat) (f : Requester → Requester) :
    (s.updateRequester h f).nextLevel = s.nextLevel :=
  rfl
@[simp] theorem State.updateRequester_deadline (h : Nat) (f : Requester → Requester) :
    (s.updateRequester h f).deadline = s.deadline :=
  rfl
@[simp] theorem State.updateRequester_frameStart (h : Nat) (f : Requester → Requester) :
    (s.updateRequester h f).frameStart = s.frameStart :=
  rfl
@[simp] theorem State.updateRequester_gapEnd (h : Nat) (f : Requester → Requester) :
    (s.updateRequester h f).gapEnd = s.gapEnd :=
  rfl
@[simp] theorem State.updateRequester_repeatTotal (h : Nat) (f : Requester → Requester) :
    (s.updateRequester h f).repeatTotal = s.repeatTotal :=
  rfl
@[simp] theorem State.updateRequester_framesDone (h : Nat) (f : Requester → Requester) :
    (s.updateRequester h f).framesDone = s.framesDone :=
  rfl
@[simp] theorem State.updateRequester_sessOwner (h : Nat) (f : Requester → Requester) :
    (s.updateRequester h f).sessOwner = s.sessOwner :=
  rfl
@[simp] theorem State.updateRequester_tdPending (h : Nat) (f : Requester → Requester) :
    (s.updateRequester h f).tdPending = s.tdPending :=
  rfl
@[simp] theorem State.updateRequester_tdOwner (h : Nat) (f : Requester → Requester) :
    (s.updateRequester h f).tdOwner = s.tdOwner :=
  rfl
@[simp] theorem State.updateRequester_claimed (h : Nat) (f : Requester → Requester) :
    (s.updateRequester h f).claimed = s.claimed :=
  rfl
@[simp] theorem State.updateRequester_level (h : Nat) (f : Requester → Requester) :
    (s.updateRequester h f).level = s.level :=
  rfl
@[simp] theorem State.updateRequester_train (h : Nat) (f : Requester → Requester) :
    (s.updateRequester h f).train = s.train :=
  rfl
@[simp] theorem State.updateRequester_trainLen (h : Nat) (f : Requester → Requester) :
    (s.updateRequester h f).trainLen = s.trainLen :=
  rfl
@[simp] theorem State.updateRequester_err (h : Nat) (f : Requester → Requester) : (s.updateRequester h f).err = s.err := rfl
@[simp] theorem State.updateRequester_now (h : Nat) (f : Requester → Requester) : (s.updateRequester h f).now = s.now := rfl
@[simp] theorem State.updateRequester_requesters (h : Nat) (f : Requester → Requester) :
    (s.updateRequester h f).requesters = s.requesters.modify h f :=
  rfl
@[simp] theorem State.updateRequester_history (h : Nat) (f : Requester → Requester) :
    (s.updateRequester h f).history = s.history :=
  rfl
@[simp] theorem State.updateRequester_reads (h : Nat) (f : Requester → Requester) :
    (s.updateRequester h f).reads = s.reads :=
  rfl
@[simp] theorem State.updateRequester_env (h : Nat) (f : Requester → Requester) : (s.updateRequester h f).env = s.env := rfl

/-! ### present -/

@[simp] theorem State.present_cfg (h : Nat) (c : CmdWord) : (s.present h c).cfg = s.cfg := rfl
@[simp] theorem State.present_st (h : Nat) (c : CmdWord) : (s.present h c).st = s.st := rfl
@[simp] theorem State.present_idx (h : Nat) (c : CmdWord) : (s.present h c).idx = s.idx := rfl
@[simp] theorem State.present_nextLevel (h : Nat) (c : CmdWord) : (s.present h c).nextLevel = s.nextLevel := rfl
@[simp] theorem State.present_deadline (h : Nat) (c : CmdWord) : (s.present h c).deadline = s.deadline := rfl
@[simp] theorem State.present_frameStart (h : Nat) (c : CmdWord) : (s.present h c).frameStart = s.frameStart := rfl
@[simp] theorem State.present_gapEnd (h : Nat) (c : CmdWord) : (s.present h c).gapEnd = s.gapEnd := rfl
@[simp] theorem State.present_repeatTotal (h : Nat) (c : CmdWord) : (s.present h c).repeatTotal = s.repeatTotal := rfl
@[simp] theorem State.present_framesDone (h : Nat) (c : CmdWord) : (s.present h c).framesDone = s.framesDone := rfl
@[simp] theorem State.present_sessOwner (h : Nat) (c : CmdWord) : (s.present h c).sessOwner = s.sessOwner := rfl
@[simp] theorem State.present_tdPending (h : Nat) (c : CmdWord) : (s.present h c).tdPending = s.tdPending := rfl
@[simp] theorem State.present_tdOwner (h : Nat) (c : CmdWord) : (s.present h c).tdOwner = s.tdOwner := rfl
@[simp] theorem State.present_claimed (h : Nat) (c : CmdWord) : (s.present h c).claimed = s.claimed := rfl
@[simp] theorem State.present_level (h : Nat) (c : CmdWord) : (s.present h c).level = s.level := rfl
@[simp] theorem State.present_train (h : Nat) (c : CmdWord) : (s.present h c).train = s.train := rfl
@[simp] theorem State.present_trainLen (h : Nat) (c : CmdWord) : (s.present h c).trainLen = s.trainLen := rfl
@[simp] theorem State.present_err (h : Nat) (c : CmdWord) : (s.present h c).err = s.err := rfl
@[simp] theorem State.present_now (h : Nat) (c : CmdWord) : (s.present h c).now = s.now := rfl
@[simp] theorem State.present_requesters (h : Nat) (c : CmdWord) :
    (s.present h c).requesters = s.requesters.modify h (Requester.presenting c) :=
  rfl
@[simp] theorem State.present_history (h : Nat) (c : CmdWord) : (s.present h c).history = s.history := rfl
@[simp] theorem State.present_reads (h : Nat) (c : CmdWord) : (s.present h c).reads = s.reads := rfl
@[simp] theorem State.present_env (h : Nat) (c : CmdWord) : (s.present h c).env = s.env := rfl

/-! ### beginAccept -/

@[simp] theorem State.beginAccept_cfg (h : Nat) : (s.beginAccept h).cfg = s.cfg := rfl
@[simp] theorem State.beginAccept_st (h : Nat) : (s.beginAccept h).st = s.st := rfl
@[simp] theorem State.beginAccept_idx (h : Nat) : (s.beginAccept h).idx = s.idx := rfl
@[simp] theorem State.beginAccept_nextLevel (h : Nat) : (s.beginAccept h).nextLevel = s.nextLevel := rfl
@[simp] theorem State.beginAccept_deadline (h : Nat) : (s.beginAccept h).deadline = s.deadline := rfl
@[simp] theorem State.beginAccept_frameStart (h : Nat) : (s.beginAccept h).frameStart = s.frameStart := rfl
@[simp] theorem State.beginAccept_gapEnd (h : Nat) : (s.beginAccept h).gapEnd = s.gapEnd := rfl
@[simp] theorem State.beginAccept_repeatTotal (h : Nat) : (s.beginAccept h).repeatTotal = s.repeatTotal := rfl
@[simp] theorem State.beginAccept_framesDone (h : Nat) : (s.beginAccept h).framesDone = s.framesDone := rfl
@[simp] theorem State.beginAccept_sessOwner (h : Nat) : (s.beginAccept h).sessOwner = s.sessOwner := rfl
@[simp] theorem State.beginAccept_tdPending (h : Nat) : (s.beginAccept h).tdPending = s.tdPending := rfl
@[simp] theorem State.beginAccept_tdOwner (h : Nat) : (s.beginAccept h).tdOwner = s.tdOwner := rfl
@[simp] theorem State.beginAccept_claimed (h : Nat) : (s.beginAccept h).claimed = s.claimed := rfl
@[simp] theorem State.beginAccept_level (h : Nat) : (s.beginAccept h).level = s.level := rfl
@[simp] theorem State.beginAccept_train (h : Nat) : (s.beginAccept h).train = s.train := rfl
@[simp] theorem State.beginAccept_trainLen (h : Nat) : (s.beginAccept h).trainLen = s.trainLen := rfl
@[simp] theorem State.beginAccept_err (h : Nat) : (s.beginAccept h).err = s.err := rfl
@[simp] theorem State.beginAccept_now (h : Nat) : (s.beginAccept h).now = s.now := rfl
@[simp] theorem State.beginAccept_requesters (h : Nat) :
    (s.beginAccept h).requesters = s.requesters.modify h Requester.accepted :=
  rfl
@[simp] theorem State.beginAccept_history (h : Nat) : (s.beginAccept h).history = s.history := rfl
@[simp] theorem State.beginAccept_reads (h : Nat) : (s.beginAccept h).reads = s.reads := rfl
@[simp] theorem State.beginAccept_env (h : Nat) : (s.beginAccept h).env = { s.env with serving := h } := rfl

/-! ### serve -/

@[simp] theorem State.serve_cfg (h : Nat) : (s.serve h).cfg = s.cfg := rfl
@[simp] theorem State.serve_st (h : Nat) : (s.serve h).st = s.st := rfl
@[simp] theorem State.serve_idx (h : Nat) : (s.serve h).idx = s.idx := rfl
@[simp] theorem State.serve_nextLevel (h : Nat) : (s.serve h).nextLevel = s.nextLevel := rfl
@[simp] theorem State.serve_deadline (h : Nat) : (s.serve h).deadline = s.deadline := rfl
@[simp] theorem State.serve_frameStart (h : Nat) : (s.serve h).frameStart = s.frameStart := rfl
@[simp] theorem State.serve_gapEnd (h : Nat) : (s.serve h).gapEnd = s.gapEnd := rfl
@[simp] theorem State.serve_repeatTotal (h : Nat) : (s.serve h).repeatTotal = s.repeatTotal := rfl
@[simp] theorem State.serve_framesDone (h : Nat) : (s.serve h).framesDone = s.framesDone := rfl
@[simp] theorem State.serve_sessOwner (h : Nat) : (s.serve h).sessOwner = s.sessOwner := rfl
@[simp] theorem State.serve_tdPending (h : Nat) : (s.serve h).tdPending = s.tdPending := rfl
@[simp] theorem State.serve_tdOwner (h : Nat) : (s.serve h).tdOwner = s.tdOwner := rfl
@[simp] theorem State.serve_claimed (h : Nat) : (s.serve h).claimed = s.claimed := rfl
@[simp] theorem State.serve_level (h : Nat) : (s.serve h).level = s.level := rfl
@[simp] theorem State.serve_train (h : Nat) : (s.serve h).train = s.train := rfl
@[simp] theorem State.serve_trainLen (h : Nat) : (s.serve h).trainLen = s.trainLen := rfl
@[simp] theorem State.serve_err (h : Nat) : (s.serve h).err = s.err := rfl
@[simp] theorem State.serve_now (h : Nat) : (s.serve h).now = s.now := rfl
@[simp] theorem State.serve_requesters (h : Nat) : (s.serve h).requesters = s.requesters := rfl
@[simp] theorem State.serve_history (h : Nat) : (s.serve h).history = s.history := rfl
@[simp] theorem State.serve_reads (h : Nat) : (s.serve h).reads = s.reads := rfl
@[simp] theorem State.serve_env (h : Nat) : (s.serve h).env = { s.env with serving := h } := rfl

/-! ### respond -/

@[simp] theorem State.respond_cfg (h : Nat) (c : ResultCode) : (s.respond h c).cfg = s.cfg := rfl
@[simp] theorem State.respond_st (h : Nat) (c : ResultCode) : (s.respond h c).st = s.st := rfl
@[simp] theorem State.respond_idx (h : Nat) (c : ResultCode) : (s.respond h c).idx = s.idx := rfl
@[simp] theorem State.respond_nextLevel (h : Nat) (c : ResultCode) : (s.respond h c).nextLevel = s.nextLevel := rfl
@[simp] theorem State.respond_deadline (h : Nat) (c : ResultCode) : (s.respond h c).deadline = s.deadline := rfl
@[simp] theorem State.respond_frameStart (h : Nat) (c : ResultCode) : (s.respond h c).frameStart = s.frameStart := rfl
@[simp] theorem State.respond_gapEnd (h : Nat) (c : ResultCode) : (s.respond h c).gapEnd = s.gapEnd := rfl
@[simp] theorem State.respond_repeatTotal (h : Nat) (c : ResultCode) : (s.respond h c).repeatTotal = s.repeatTotal := rfl
@[simp] theorem State.respond_framesDone (h : Nat) (c : ResultCode) : (s.respond h c).framesDone = s.framesDone := rfl
@[simp] theorem State.respond_sessOwner (h : Nat) (c : ResultCode) : (s.respond h c).sessOwner = s.sessOwner := rfl
@[simp] theorem State.respond_tdPending (h : Nat) (c : ResultCode) : (s.respond h c).tdPending = s.tdPending := rfl
@[simp] theorem State.respond_tdOwner (h : Nat) (c : ResultCode) : (s.respond h c).tdOwner = s.tdOwner := rfl
@[simp] theorem State.respond_claimed (h : Nat) (c : ResultCode) : (s.respond h c).claimed = s.claimed := rfl
@[simp] theorem State.respond_level (h : Nat) (c : ResultCode) : (s.respond h c).level = s.level := rfl
@[simp] theorem State.respond_train (h : Nat) (c : ResultCode) : (s.respond h c).train = s.train := rfl
@[simp] theorem State.respond_trainLen (h : Nat) (c : ResultCode) : (s.respond h c).trainLen = s.trainLen := rfl
@[simp] theorem State.respond_err (h : Nat) (c : ResultCode) : (s.respond h c).err = s.err := rfl
@[simp] theorem State.respond_now (h : Nat) (c : ResultCode) : (s.respond h c).now = s.now := rfl
@[simp] theorem State.respond_requesters (h : Nat) (c : ResultCode) :
    (s.respond h c).requesters = s.requesters.modify h (Requester.responded c) :=
  rfl
@[simp] theorem State.respond_history (h : Nat) (c : ResultCode) : (s.respond h c).history = s.history := rfl
@[simp] theorem State.respond_reads (h : Nat) (c : ResultCode) : (s.respond h c).reads = s.reads := rfl
@[simp] theorem State.respond_env (h : Nat) (c : ResultCode) : (s.respond h c).env = s.env := rfl

/-! ### complete -/

@[simp] theorem State.complete_cfg (c : ResultCode) : (s.complete c).cfg = s.cfg := rfl
@[simp] theorem State.complete_st (c : ResultCode) : (s.complete c).st = s.st := rfl
@[simp] theorem State.complete_idx (c : ResultCode) : (s.complete c).idx = s.idx := rfl
@[simp] theorem State.complete_nextLevel (c : ResultCode) : (s.complete c).nextLevel = s.nextLevel := rfl
@[simp] theorem State.complete_deadline (c : ResultCode) : (s.complete c).deadline = s.deadline := rfl
@[simp] theorem State.complete_frameStart (c : ResultCode) : (s.complete c).frameStart = s.frameStart := rfl
@[simp] theorem State.complete_gapEnd (c : ResultCode) : (s.complete c).gapEnd = s.gapEnd := rfl
@[simp] theorem State.complete_repeatTotal (c : ResultCode) : (s.complete c).repeatTotal = s.repeatTotal := rfl
@[simp] theorem State.complete_framesDone (c : ResultCode) : (s.complete c).framesDone = s.framesDone := rfl
@[simp] theorem State.complete_sessOwner (c : ResultCode) : (s.complete c).sessOwner = s.sessOwner := rfl
@[simp] theorem State.complete_tdPending (c : ResultCode) : (s.complete c).tdPending = s.tdPending := rfl
@[simp] theorem State.complete_tdOwner (c : ResultCode) : (s.complete c).tdOwner = s.tdOwner := rfl
@[simp] theorem State.complete_claimed (c : ResultCode) : (s.complete c).claimed = s.claimed := rfl
@[simp] theorem State.complete_level (c : ResultCode) : (s.complete c).level = s.level := rfl
@[simp] theorem State.complete_train (c : ResultCode) : (s.complete c).train = s.train := rfl
@[simp] theorem State.complete_trainLen (c : ResultCode) : (s.complete c).trainLen = s.trainLen := rfl
@[simp] theorem State.complete_err (c : ResultCode) : (s.complete c).err = c := rfl
@[simp] theorem State.complete_now (c : ResultCode) : (s.complete c).now = s.now := rfl
@[simp] theorem State.complete_requesters (c : ResultCode) :
    (s.complete c).requesters = s.requesters.modify s.env.serving (Requester.responded c) :=
  rfl
@[simp] theorem State.complete_history (c : ResultCode) : (s.complete c).history = s.history := rfl
@[simp] theorem State.complete_reads (c : ResultCode) : (s.complete c).reads = s.reads := rfl
@[simp] theorem State.complete_env (c : ResultCode) : (s.complete c).env = s.env := rfl

/-! ### lineWrite -/

@[simp] theorem State.lineWrite_cfg (v : Level) : (s.lineWrite v).cfg = s.cfg := rfl
@[simp] theorem State.lineWrite_st (v : Level) : (s.lineWrite v).st = s.st := rfl
@[simp] theorem State.lineWrite_idx (v : Level) : (s.lineWrite v).idx = s.idx := rfl
@[simp] theorem State.lineWrite_nextLevel (v : Level) : (s.lineWrite v).nextLevel = s.nextLevel := rfl
@[simp] theorem State.lineWrite_deadline (v : Level) : (s.lineWrite v).deadline = s.deadline := rfl
@[simp] theorem State.lineWrite_frameStart (v : Level) : (s.lineWrite v).frameStart = s.frameStart := rfl
@[simp] theorem State.lineWrite_gapEnd (v : Level) : (s.lineWrite v).gapEnd = s.gapEnd := rfl
@[simp] theorem State.lineWrite_repeatTotal (v : Level) : (s.lineWrite v).repeatTotal = s.repeatTotal := rfl
@[simp] theorem State.lineWrite_framesDone (v : Level) : (s.lineWrite v).framesDone = s.framesDone := rfl
@[simp] theorem State.lineWrite_sessOwner (v : Level) : (s.lineWrite v).sessOwner = s.sessOwner := rfl
@[simp] theorem State.lineWrite_tdPending (v : Level) : (s.lineWrite v).tdPending = s.tdPending := rfl
@[simp] theorem State.lineWrite_tdOwner (v : Level) : (s.lineWrite v).tdOwner = s.tdOwner := rfl
@[simp] theorem State.lineWrite_claimed (v : Level) : (s.lineWrite v).claimed = s.claimed := rfl
@[simp] theorem State.lineWrite_level (v : Level) : (s.lineWrite v).level = bif s.claimed then v else s.level := rfl
@[simp] theorem State.lineWrite_train (v : Level) : (s.lineWrite v).train = s.train := rfl
@[simp] theorem State.lineWrite_trainLen (v : Level) : (s.lineWrite v).trainLen = s.trainLen := rfl
@[simp] theorem State.lineWrite_err (v : Level) : (s.lineWrite v).err = s.err := rfl
@[simp] theorem State.lineWrite_now (v : Level) : (s.lineWrite v).now = s.now := rfl
@[simp] theorem State.lineWrite_requesters (v : Level) : (s.lineWrite v).requesters = s.requesters := rfl
@[simp] theorem State.lineWrite_history (v : Level) :
    (s.lineWrite v).history = bif s.claimed then s.history ++ [⟨s.now, v⟩] else s.history :=
  rfl
@[simp] theorem State.lineWrite_reads (v : Level) : (s.lineWrite v).reads = s.reads := rfl
@[simp] theorem State.lineWrite_env (v : Level) : (s.lineWrite v).env = s.env := rfl

/-! ### takeLine -/

@[simp] theorem State.takeLine_cfg : (s.takeLine).cfg = s.cfg := rfl
@[simp] theorem State.takeLine_st : (s.takeLine).st = s.st := rfl
@[simp] theorem State.takeLine_idx : (s.takeLine).idx = s.idx := rfl
@[simp] theorem State.takeLine_nextLevel : (s.takeLine).nextLevel = s.nextLevel := rfl
@[simp] theorem State.takeLine_deadline : (s.takeLine).deadline = s.deadline := rfl
@[simp] theorem State.takeLine_frameStart : (s.takeLine).frameStart = s.frameStart := rfl
@[simp] theorem State.takeLine_gapEnd : (s.takeLine).gapEnd = s.gapEnd := rfl
@[simp] theorem State.takeLine_repeatTotal : (s.takeLine).repeatTotal = s.repeatTotal := rfl
@[simp] theorem State.takeLine_framesDone : (s.takeLine).framesDone = s.framesDone := rfl
@[simp] theorem State.takeLine_sessOwner : (s.takeLine).sessOwner = s.sessOwner := rfl
@[simp] theorem State.takeLine_tdPending : (s.takeLine).tdPending = s.tdPending := rfl
@[simp] theorem State.takeLine_tdOwner : (s.takeLine).tdOwner = s.tdOwner := rfl
@[simp] theorem State.takeLine_claimed : (s.takeLine).claimed = true := rfl
@[simp] theorem State.takeLine_level : (s.takeLine).level = .low := rfl
@[simp] theorem State.takeLine_train : (s.takeLine).train = s.train := rfl
@[simp] theorem State.takeLine_trainLen : (s.takeLine).trainLen = s.trainLen := rfl
@[simp] theorem State.takeLine_err : (s.takeLine).err = s.err := rfl
@[simp] theorem State.takeLine_now : (s.takeLine).now = s.now := rfl
@[simp] theorem State.takeLine_requesters : (s.takeLine).requesters = s.requesters := rfl
@[simp] theorem State.takeLine_history : (s.takeLine).history = s.history ++ [⟨s.now, .low⟩] := rfl
@[simp] theorem State.takeLine_reads : (s.takeLine).reads = s.reads := rfl
@[simp] theorem State.takeLine_env : (s.takeLine).env = s.env := rfl

/-! ### releaseLine -/

@[simp] theorem State.releaseLine_cfg :
    (s.releaseLine).cfg = s.cfg :=
  by unfold State.releaseLine; cases hc : s.claimed <;> simp [hc]
@[simp] theorem State.releaseLine_st :
    (s.releaseLine).st = s.st :=
  by unfold State.releaseLine; cases hc : s.claimed <;> simp [hc]
@[simp] theorem State.releaseLine_idx :
    (s.releaseLine).idx = s.idx :=
  by unfold State.releaseLine; cases hc : s.claimed <;> simp [hc]
@[simp] theorem State.releaseLine_nextLevel :
    (s.releaseLine).nextLevel = s.nextLevel :=
  by unfold State.releaseLine; cases hc : s.claimed <;> simp [hc]
@[simp] theorem State.releaseLine_deadline :
    (s.releaseLine).deadline = s.deadline :=
  by unfold State.releaseLine; cases hc : s.claimed <;> simp [hc]
@[simp] theorem State.releaseLine_frameStart :
    (s.releaseLine).frameStart = s.frameStart :=
  by unfold State.releaseLine; cases hc : s.claimed <;> simp [hc]
@[simp] theorem State.releaseLine_gapEnd :
    (s.releaseLine).gapEnd = s.gapEnd :=
  by unfold State.releaseLine; cases hc : s.claimed <;> simp [hc]
@[simp] theorem State.releaseLine_repeatTotal :
    (s.releaseLine).repeatTotal = s.repeatTotal :=
  by unfold State.releaseLine; cases hc : s.claimed <;> simp [hc]
@[simp] theorem State.releaseLine_framesDone :
    (s.releaseLine).framesDone = s.framesDone :=
  by unfold State.releaseLine; cases hc : s.claimed <;> simp [hc]
@[simp] theorem State.releaseLine_sessOwner :
    (s.releaseLine).sessOwner = s.sessOwner :=
  by unfold State.releaseLine; cases hc : s.claimed <;> simp [hc]
@[simp] theorem State.releaseLine_tdPending :
    (s.releaseLine).tdPending = s.tdPending :=
  by unfold State.releaseLine; cases hc : s.claimed <;> simp [hc]
@[simp] theorem State.releaseLine_tdOwner :
    (s.releaseLine).tdOwner = s.tdOwner :=
  by unfold State.releaseLine; cases hc : s.claimed <;> simp [hc]
@[simp] theorem State.releaseLine_claimed :
    (s.releaseLine).claimed = false :=
  by unfold State.releaseLine; cases hc : s.claimed <;> simp [hc]
@[simp] theorem State.releaseLine_level :
    (s.releaseLine).level = bif s.claimed then .low else s.level :=
  by unfold State.releaseLine; cases hc : s.claimed <;> simp [hc]
@[simp] theorem State.releaseLine_train :
    (s.releaseLine).train = s.train :=
  by unfold State.releaseLine; cases hc : s.claimed <;> simp [hc]
@[simp] theorem State.releaseLine_trainLen :
    (s.releaseLine).trainLen = s.trainLen :=
  by unfold State.releaseLine; cases hc : s.claimed <;> simp [hc]
@[simp] theorem State.releaseLine_err :
    (s.releaseLine).err = s.err :=
  by unfold State.releaseLine; cases hc : s.claimed <;> simp [hc]
@[simp] theorem State.releaseLine_now :
    (s.releaseLine).now = s.now :=
  by unfold State.releaseLine; cases hc : s.claimed <;> simp [hc]
@[simp] theorem State.releaseLine_requesters :
    (s.releaseLine).requesters = s.requesters :=
  by unfold State.releaseLine; cases hc : s.claimed <;> simp [hc]
@[simp] theorem State.releaseLine_history :
    (s.releaseLine).history = bif s.claimed then s.history ++ [⟨s.now, .low⟩] else s.history :=
  by unfold State.releaseLine; cases hc : s.claimed <;> simp [hc]
@[simp] theorem State.releaseLine_reads :
    (s.releaseLine).reads = s.reads :=
  by unfold State.releaseLine; cases hc : s.claimed <;> simp [hc]
@[simp] theorem State.releaseLine_env :
    (s.releaseLine).env = s.env :=
  by unfold State.releaseLine; cases hc : s.claimed <;> simp [hc]

/-! ### logRead -/

@[simp] theorem State.logRead_cfg (a : ReadAddr) (d : Datum) : (s.logRead a d).cfg = s.cfg := rfl
@[simp] theorem State.logRead_st (a : ReadAddr) (d : Datum) : (s.logRead a d).st = s.st := rfl
@[simp] theorem State.logRead_idx (a : ReadAddr) (d : Datum) : (s.logRead a d).idx = s.idx := rfl
@[simp] theorem State.logRead_nextLevel (a : ReadAddr) (d : Datum) : (s.logRead a d).nextLevel = s.nextLevel := rfl
@[simp] theorem State.logRead_deadline (a : ReadAddr) (d : Datum) : (s.logRead a d).deadline = s.deadline := rfl
@[simp] theorem State.logRead_frameStart (a : ReadAddr) (d : Datum) : (s.logRead a d).frameStart = s.frameStart := rfl
@[simp] theorem State.logRead_gapEnd (a : ReadAddr) (d : Datum) : (s.logRead a d).gapEnd = s.gapEnd := rfl
@[simp] theorem State.logRead_repeatTotal (a : ReadAddr) (d : Datum) : (s.logRead a d).repeatTotal = s.repeatTotal := rfl
@[simp] theorem State.logRead_framesDone (a : ReadAddr) (d : Datum) : (s.logRead a d).framesDone = s.framesDone := rfl
@[simp] theorem State.logRead_sessOwner (a : ReadAddr) (d : Datum) : (s.logRead a d).sessOwner = s.sessOwner := rfl
@[simp] theorem State.logRead_tdPending (a : ReadAddr) (d : Datum) : (s.logRead a d).tdPending = s.tdPending := rfl
@[simp] theorem State.logRead_tdOwner (a : ReadAddr) (d : Datum) : (s.logRead a d).tdOwner = s.tdOwner := rfl
@[simp] theorem State.logRead_claimed (a : ReadAddr) (d : Datum) : (s.logRead a d).claimed = s.claimed := rfl
@[simp] theorem State.logRead_level (a : ReadAddr) (d : Datum) : (s.logRead a d).level = s.level := rfl
@[simp] theorem State.logRead_train (a : ReadAddr) (d : Datum) : (s.logRead a d).train = s.train := rfl
@[simp] theorem State.logRead_trainLen (a : ReadAddr) (d : Datum) : (s.logRead a d).trainLen = s.trainLen := rfl
@[simp] theorem State.logRead_err (a : ReadAddr) (d : Datum) : (s.logRead a d).err = s.err := rfl
@[simp] theorem State.logRead_now (a : ReadAddr) (d : Datum) : (s.logRead a d).now = s.now := rfl
@[simp] theorem State.logRead_requesters (a : ReadAddr) (d : Datum) : (s.logRead a d).requesters = s.requesters := rfl
@[simp] theorem State.logRead_history (a : ReadAddr) (d : Datum) : (s.logRead a d).history = s.history := rfl
@[simp] theorem State.logRead_reads (a : ReadAddr) (d : Datum) :
    (s.logRead a d).reads = s.reads ++ [⟨s.env.serving, a, d⟩] :=
  rfl
@[simp] theorem State.logRead_env (a : ReadAddr) (d : Datum) : (s.logRead a d).env = s.env := rfl

/-! ### encodeStep -/

@[simp] theorem State.encodeStep_cfg (m : BitVec 32) (b : BitVec 6) : (s.encodeStep m b).cfg = s.cfg := rfl
@[simp] theorem State.encodeStep_st (m : BitVec 32) (b : BitVec 6) : (s.encodeStep m b).st = s.st := rfl
@[simp] theorem State.encodeStep_idx (m : BitVec 32) (b : BitVec 6) : (s.encodeStep m b).idx = s.idx := rfl
@[simp] theorem State.encodeStep_nextLevel (m : BitVec 32) (b : BitVec 6) : (s.encodeStep m b).nextLevel = s.nextLevel := rfl
@[simp] theorem State.encodeStep_deadline (m : BitVec 32) (b : BitVec 6) : (s.encodeStep m b).deadline = s.deadline := rfl
@[simp] theorem State.encodeStep_frameStart (m : BitVec 32) (b : BitVec 6) : (s.encodeStep m b).frameStart = s.frameStart := rfl
@[simp] theorem State.encodeStep_gapEnd (m : BitVec 32) (b : BitVec 6) : (s.encodeStep m b).gapEnd = s.gapEnd := rfl
@[simp] theorem State.encodeStep_repeatTotal (m : BitVec 32) (b : BitVec 6) :
    (s.encodeStep m b).repeatTotal = s.repeatTotal :=
  rfl
@[simp] theorem State.encodeStep_framesDone (m : BitVec 32) (b : BitVec 6) : (s.encodeStep m b).framesDone = s.framesDone := rfl
@[simp] theorem State.encodeStep_sessOwner (m : BitVec 32) (b : BitVec 6) : (s.encodeStep m b).sessOwner = s.sessOwner := rfl
@[simp] theorem State.encodeStep_tdPending (m : BitVec 32) (b : BitVec 6) : (s.encodeStep m b).tdPending = s.tdPending := rfl
@[simp] theorem State.encodeStep_tdOwner (m : BitVec 32) (b : BitVec 6) : (s.encodeStep m b).tdOwner = s.tdOwner := rfl
@[simp] theorem State.encodeStep_claimed (m : BitVec 32) (b : BitVec 6) : (s.encodeStep m b).claimed = s.claimed := rfl
@[simp] theorem State.encodeStep_level (m : BitVec 32) (b : BitVec 6) : (s.encodeStep m b).level = s.level := rfl
@[simp] theorem State.encodeStep_train (m : BitVec 32) (b : BitVec 6) :
    (s.encodeStep m b).train = s.train.writeFrom 0 (encodeTrain s.cfg.table m b.toNat) :=
  rfl
@[simp] theorem State.encodeStep_trainLen (m : BitVec 32) (b : BitVec 6) :
    (s.encodeStep m b).trainLen = BitVec.ofNat 7 (2 * b.toNat + 1) :=
  rfl
@[simp] theorem State.encodeStep_err (m : BitVec 32) (b : BitVec 6) : (s.encodeStep m b).err = s.err := rfl
@[simp] theorem State.encodeStep_now (m : BitVec 32) (b : BitVec 6) : (s.encodeStep m b).now = s.now := rfl
@[simp] theorem State.encodeStep_requesters (m : BitVec 32) (b : BitVec 6) : (s.encodeStep m b).requesters = s.requesters := rfl
@[simp] theorem State.encodeStep_history (m : BitVec 32) (b : BitVec 6) : (s.encodeStep m b).history = s.history := rfl
@[simp] theorem State.encodeStep_reads (m : BitVec 32) (b : BitVec 6) : (s.encodeStep m b).reads = s.reads := rfl
@[simp] theorem State.encodeStep_env (m : BitVec 32) (b : BitVec 6) : (s.encodeStep m b).env = s.env := rfl

/-! ### beginFrame -/

@[simp] theorem State.beginFrame_cfg : (s.beginFrame).cfg = s.cfg := rfl
@[simp] theorem State.beginFrame_st : (s.beginFrame).st = .frame := rfl
@[simp] theorem State.beginFrame_idx : (s.beginFrame).idx = 0#7 := rfl
@[simp] theorem State.beginFrame_nextLevel : (s.beginFrame).nextLevel = .high := rfl
@[simp] theorem State.beginFrame_deadline : (s.beginFrame).deadline = s.now := rfl
@[simp] theorem State.beginFrame_frameStart : (s.beginFrame).frameStart = s.now := rfl
@[simp] theorem State.beginFrame_gapEnd : (s.beginFrame).gapEnd = s.gapEnd := rfl
@[simp] theorem State.beginFrame_repeatTotal : (s.beginFrame).repeatTotal = s.repeatTotal := rfl
@[simp] theorem State.beginFrame_framesDone : (s.beginFrame).framesDone = s.framesDone := rfl
@[simp] theorem State.beginFrame_sessOwner : (s.beginFrame).sessOwner = s.sessOwner := rfl
@[simp] theorem State.beginFrame_tdPending : (s.beginFrame).tdPending = s.tdPending := rfl
@[simp] theorem State.beginFrame_tdOwner : (s.beginFrame).tdOwner = s.tdOwner := rfl
@[simp] theorem State.beginFrame_claimed : (s.beginFrame).claimed = s.claimed := rfl
@[simp] theorem State.beginFrame_level : (s.beginFrame).level = bif s.claimed then .low else s.level := rfl
@[simp] theorem State.beginFrame_train : (s.beginFrame).train = s.train := rfl
@[simp] theorem State.beginFrame_trainLen : (s.beginFrame).trainLen = s.trainLen := rfl
@[simp] theorem State.beginFrame_err : (s.beginFrame).err = s.err := rfl
@[simp] theorem State.beginFrame_now : (s.beginFrame).now = s.now := rfl
@[simp] theorem State.beginFrame_requesters : (s.beginFrame).requesters = s.requesters := rfl
@[simp] theorem State.beginFrame_history :
    (s.beginFrame).history = bif s.claimed then s.history ++ [⟨s.now, .low⟩] else s.history :=
  rfl
@[simp] theorem State.beginFrame_reads : (s.beginFrame).reads = s.reads := rfl
@[simp] theorem State.beginFrame_env : (s.beginFrame).env = s.env := rfl

/-! ### startSession -/

@[simp] theorem State.startSession_cfg (n : BitVec 16) (h : Nat) : (s.startSession n h).cfg = s.cfg := rfl
@[simp] theorem State.startSession_st (n : BitVec 16) (h : Nat) : (s.startSession n h).st = .frame := rfl
@[simp] theorem State.startSession_idx (n : BitVec 16) (h : Nat) : (s.startSession n h).idx = 0#7 := rfl
@[simp] theorem State.startSession_nextLevel (n : BitVec 16) (h : Nat) : (s.startSession n h).nextLevel = .high := rfl
@[simp] theorem State.startSession_deadline (n : BitVec 16) (h : Nat) : (s.startSession n h).deadline = s.now := rfl
@[simp] theorem State.startSession_frameStart (n : BitVec 16) (h : Nat) : (s.startSession n h).frameStart = s.now := rfl
@[simp] theorem State.startSession_gapEnd (n : BitVec 16) (h : Nat) : (s.startSession n h).gapEnd = s.gapEnd := rfl
@[simp] theorem State.startSession_repeatTotal (n : BitVec 16) (h : Nat) : (s.startSession n h).repeatTotal = n := rfl
@[simp] theorem State.startSession_framesDone (n : BitVec 16) (h : Nat) : (s.startSession n h).framesDone = 0#16 := rfl
@[simp] theorem State.startSession_sessOwner (n : BitVec 16) (h : Nat) : (s.startSession n h).sessOwner = h := rfl
@[simp] theorem State.startSession_tdPending (n : BitVec 16) (h : Nat) : (s.startSession n h).tdPending = s.tdPending := rfl
@[simp] theorem State.startSession_tdOwner (n : BitVec 16) (h : Nat) : (s.startSession n h).tdOwner = s.tdOwner := rfl
@[simp] theorem State.startSession_claimed (n : BitVec 16) (h : Nat) : (s.startSession n h).claimed = s.claimed := rfl
@[simp] theorem State.startSession_level (n : BitVec 16) (h : Nat) :
    (s.startSession n h).level = bif s.claimed then .low else s.level :=
  rfl
@[simp] theorem State.startSession_train (n : BitVec 16) (h : Nat) : (s.startSession n h).train = s.train := rfl
@[simp] theorem State.startSession_trainLen (n : BitVec 16) (h : Nat) : (s.startSession n h).trainLen = s.trainLen := rfl
@[simp] theorem State.startSession_err (n : BitVec 16) (h : Nat) : (s.startSession n h).err = .ok := rfl
@[simp] theorem State.startSession_now (n : BitVec 16) (h : Nat) : (s.startSession n h).now = s.now := rfl
@[simp] theorem State.startSession_requesters (n : BitVec 16) (h : Nat) : (s.startSession n h).requesters = s.requesters := rfl
@[simp] theorem State.startSession_history (n : BitVec 16) (h : Nat) :
    (s.startSession n h).history = bif s.claimed then s.history ++ [⟨s.now, .low⟩] else s.history :=
  rfl
@[simp] theorem State.startSession_reads (n : BitVec 16) (h : Nat) : (s.startSession n h).reads = s.reads := rfl
@[simp] theorem State.startSession_env (n : BitVec 16) (h : Nat) : (s.startSession n h).env = s.env := rfl

/-! ### framePollToggle -/

@[simp] theorem State.framePollToggle_cfg : (s.framePollToggle).cfg = s.cfg := by simp [State.framePollToggle]
@[simp] theorem State.framePollToggle_st : (s.framePollToggle).st = s.st := by simp [State.framePollToggle]
@[simp] theorem State.framePollToggle_idx : (s.framePollToggle).idx = s.idx + 1#7 := by simp [State.framePollToggle]
@[simp] theorem State.framePollToggle_nextLevel :
    (s.framePollToggle).nextLevel = s.nextLevel.flip :=
  by simp [State.framePollToggle]
@[simp] theorem State.framePollToggle_deadline :
    (s.framePollToggle).deadline = s.deadline + (s.trainValue s.idx.toNat).toNat :=
  by simp [State.framePollToggle]
@[simp] theorem State.framePollToggle_frameStart :
    (s.framePollToggle).frameStart = s.frameStart :=
  by simp [State.framePollToggle]
@[simp] theorem State.framePollToggle_gapEnd : (s.framePollToggle).gapEnd = s.gapEnd := by simp [State.framePollToggle]
@[simp] theorem State.framePollToggle_repeatTotal :
    (s.framePollToggle).repeatTotal = s.repeatTotal :=
  by simp [State.framePollToggle]
@[simp] theorem State.framePollToggle_framesDone :
    (s.framePollToggle).framesDone = s.framesDone :=
  by simp [State.framePollToggle]
@[simp] theorem State.framePollToggle_sessOwner : (s.framePollToggle).sessOwner = s.sessOwner := by simp [State.framePollToggle]
@[simp] theorem State.framePollToggle_tdPending : (s.framePollToggle).tdPending = s.tdPending := by simp [State.framePollToggle]
@[simp] theorem State.framePollToggle_tdOwner : (s.framePollToggle).tdOwner = s.tdOwner := by simp [State.framePollToggle]
@[simp] theorem State.framePollToggle_claimed : (s.framePollToggle).claimed = s.claimed := by simp [State.framePollToggle]
@[simp] theorem State.framePollToggle_level :
    (s.framePollToggle).level = bif s.claimed then s.nextLevel else s.level :=
  by simp [State.framePollToggle]
@[simp] theorem State.framePollToggle_train : (s.framePollToggle).train = s.train := by simp [State.framePollToggle]
@[simp] theorem State.framePollToggle_trainLen : (s.framePollToggle).trainLen = s.trainLen := by simp [State.framePollToggle]
@[simp] theorem State.framePollToggle_err : (s.framePollToggle).err = s.err := by simp [State.framePollToggle]
@[simp] theorem State.framePollToggle_now : (s.framePollToggle).now = s.now := by simp [State.framePollToggle]
@[simp] theorem State.framePollToggle_requesters :
    (s.framePollToggle).requesters = s.requesters :=
  by simp [State.framePollToggle]
@[simp] theorem State.framePollToggle_history :
    (s.framePollToggle).history = bif s.claimed then s.history ++ [⟨s.now, s.nextLevel⟩] else s.history :=
  by simp [State.framePollToggle]
@[simp] theorem State.framePollToggle_reads : (s.framePollToggle).reads = s.reads := by simp [State.framePollToggle]
@[simp] theorem State.framePollToggle_env :
    (s.framePollToggle).env = (s.trainTaken s.idx.toNat).env :=
  by simp [State.framePollToggle]

/-! ### framePollEnd -/

@[simp] theorem State.framePollEnd_cfg : (s.framePollEnd).cfg = s.cfg := rfl
@[simp] theorem State.framePollEnd_st : (s.framePollEnd).st = .gap := rfl
@[simp] theorem State.framePollEnd_idx : (s.framePollEnd).idx = s.idx := rfl
@[simp] theorem State.framePollEnd_nextLevel : (s.framePollEnd).nextLevel = s.nextLevel := rfl
@[simp] theorem State.framePollEnd_deadline : (s.framePollEnd).deadline = s.deadline := rfl
@[simp] theorem State.framePollEnd_frameStart : (s.framePollEnd).frameStart = s.frameStart := rfl
@[simp] theorem State.framePollEnd_gapEnd : (s.framePollEnd).gapEnd = s.now + syncLowUs s.cfg.table + s.jitterDraw := rfl
@[simp] theorem State.framePollEnd_repeatTotal : (s.framePollEnd).repeatTotal = s.repeatTotal := rfl
@[simp] theorem State.framePollEnd_framesDone : (s.framePollEnd).framesDone = s.framesDone + 1#16 := rfl
@[simp] theorem State.framePollEnd_sessOwner : (s.framePollEnd).sessOwner = s.sessOwner := rfl
@[simp] theorem State.framePollEnd_tdPending : (s.framePollEnd).tdPending = s.tdPending := rfl
@[simp] theorem State.framePollEnd_tdOwner : (s.framePollEnd).tdOwner = s.tdOwner := rfl
@[simp] theorem State.framePollEnd_claimed : (s.framePollEnd).claimed = s.claimed := rfl
@[simp] theorem State.framePollEnd_level : (s.framePollEnd).level = bif s.claimed then .low else s.level := rfl
@[simp] theorem State.framePollEnd_train : (s.framePollEnd).train = s.train := rfl
@[simp] theorem State.framePollEnd_trainLen : (s.framePollEnd).trainLen = s.trainLen := rfl
@[simp] theorem State.framePollEnd_err : (s.framePollEnd).err = s.err := rfl
@[simp] theorem State.framePollEnd_now : (s.framePollEnd).now = s.now := rfl
@[simp] theorem State.framePollEnd_requesters : (s.framePollEnd).requesters = s.requesters := rfl
@[simp] theorem State.framePollEnd_history :
    (s.framePollEnd).history = bif s.claimed then s.history ++ [⟨s.now, .low⟩] else s.history :=
  rfl
@[simp] theorem State.framePollEnd_reads : (s.framePollEnd).reads = s.reads := rfl
@[simp] theorem State.framePollEnd_env : (s.framePollEnd).env = s.takeJitter.env := rfl

/-! ### endSession -/

@[simp] theorem State.endSession_cfg (c : ResultCode) : (s.endSession c).cfg = s.cfg := rfl
@[simp] theorem State.endSession_st (c : ResultCode) : (s.endSession c).st = .idle := rfl
@[simp] theorem State.endSession_idx (c : ResultCode) : (s.endSession c).idx = s.idx := rfl
@[simp] theorem State.endSession_nextLevel (c : ResultCode) : (s.endSession c).nextLevel = s.nextLevel := rfl
@[simp] theorem State.endSession_deadline (c : ResultCode) : (s.endSession c).deadline = s.deadline := rfl
@[simp] theorem State.endSession_frameStart (c : ResultCode) : (s.endSession c).frameStart = s.frameStart := rfl
@[simp] theorem State.endSession_gapEnd (c : ResultCode) : (s.endSession c).gapEnd = s.gapEnd := rfl
@[simp] theorem State.endSession_repeatTotal (c : ResultCode) : (s.endSession c).repeatTotal = s.repeatTotal := rfl
@[simp] theorem State.endSession_framesDone (c : ResultCode) : (s.endSession c).framesDone = s.framesDone := rfl
@[simp] theorem State.endSession_sessOwner (c : ResultCode) : (s.endSession c).sessOwner = s.sessOwner := rfl
@[simp] theorem State.endSession_tdPending (c : ResultCode) : (s.endSession c).tdPending = s.tdPending := rfl
@[simp] theorem State.endSession_tdOwner (c : ResultCode) : (s.endSession c).tdOwner = s.tdOwner := rfl
@[simp] theorem State.endSession_claimed (c : ResultCode) : (s.endSession c).claimed = s.claimed := rfl
@[simp] theorem State.endSession_level (c : ResultCode) : (s.endSession c).level = s.level := rfl
@[simp] theorem State.endSession_train (c : ResultCode) : (s.endSession c).train = s.train := rfl
@[simp] theorem State.endSession_trainLen (c : ResultCode) : (s.endSession c).trainLen = s.trainLen := rfl
@[simp] theorem State.endSession_err (c : ResultCode) : (s.endSession c).err = c := rfl
@[simp] theorem State.endSession_now (c : ResultCode) : (s.endSession c).now = s.now := rfl
@[simp] theorem State.endSession_requesters (c : ResultCode) :
    (s.endSession c).requesters = s.requesters.modify s.sessOwner (Requester.responded c) :=
  rfl
@[simp] theorem State.endSession_history (c : ResultCode) : (s.endSession c).history = s.history := rfl
@[simp] theorem State.endSession_reads (c : ResultCode) : (s.endSession c).reads = s.reads := rfl
@[simp] theorem State.endSession_env (c : ResultCode) : (s.endSession c).env = s.env := rfl

/-! ### abandonSession -/

@[simp] theorem State.abandonSession_cfg :
    (s.abandonSession).cfg = s.cfg :=
  by unfold State.abandonSession; cases s.st == .gap <;> simp
@[simp] theorem State.abandonSession_st :
    (s.abandonSession).st = bif s.st == .gap then .idle else s.st :=
  by unfold State.abandonSession; cases s.st == .gap <;> simp
@[simp] theorem State.abandonSession_idx :
    (s.abandonSession).idx = s.idx :=
  by unfold State.abandonSession; cases s.st == .gap <;> simp
@[simp] theorem State.abandonSession_nextLevel :
    (s.abandonSession).nextLevel = s.nextLevel :=
  by unfold State.abandonSession; cases s.st == .gap <;> simp
@[simp] theorem State.abandonSession_deadline :
    (s.abandonSession).deadline = s.deadline :=
  by unfold State.abandonSession; cases s.st == .gap <;> simp
@[simp] theorem State.abandonSession_frameStart :
    (s.abandonSession).frameStart = s.frameStart :=
  by unfold State.abandonSession; cases s.st == .gap <;> simp
@[simp] theorem State.abandonSession_gapEnd :
    (s.abandonSession).gapEnd = s.gapEnd :=
  by unfold State.abandonSession; cases s.st == .gap <;> simp
@[simp] theorem State.abandonSession_repeatTotal :
    (s.abandonSession).repeatTotal = s.repeatTotal :=
  by unfold State.abandonSession; cases s.st == .gap <;> simp
@[simp] theorem State.abandonSession_framesDone :
    (s.abandonSession).framesDone = s.framesDone :=
  by unfold State.abandonSession; cases s.st == .gap <;> simp
@[simp] theorem State.abandonSession_sessOwner :
    (s.abandonSession).sessOwner = s.sessOwner :=
  by unfold State.abandonSession; cases s.st == .gap <;> simp
@[simp] theorem State.abandonSession_tdPending :
    (s.abandonSession).tdPending = s.tdPending :=
  by unfold State.abandonSession; cases s.st == .gap <;> simp
@[simp] theorem State.abandonSession_tdOwner :
    (s.abandonSession).tdOwner = s.tdOwner :=
  by unfold State.abandonSession; cases s.st == .gap <;> simp
@[simp] theorem State.abandonSession_claimed :
    (s.abandonSession).claimed = s.claimed :=
  by unfold State.abandonSession; cases s.st == .gap <;> simp
@[simp] theorem State.abandonSession_level :
    (s.abandonSession).level = s.level :=
  by unfold State.abandonSession; cases s.st == .gap <;> simp
@[simp] theorem State.abandonSession_train :
    (s.abandonSession).train = s.train :=
  by unfold State.abandonSession; cases s.st == .gap <;> simp
@[simp] theorem State.abandonSession_trainLen :
    (s.abandonSession).trainLen = s.trainLen :=
  by unfold State.abandonSession; cases s.st == .gap <;> simp
@[simp] theorem State.abandonSession_err :
    (s.abandonSession).err = bif s.st == .gap then s.teardownResult else s.err :=
  by unfold State.abandonSession; cases s.st == .gap <;> simp
@[simp] theorem State.abandonSession_now :
    (s.abandonSession).now = s.now :=
  by unfold State.abandonSession; cases s.st == .gap <;> simp
@[simp] theorem State.abandonSession_requesters :
    (s.abandonSession).requesters = bif s.st == .gap then s.requesters.modify s.sessOwner (Requester.responded s.teardownResult) else s.requesters :=
  by unfold State.abandonSession; cases s.st == .gap <;> simp
@[simp] theorem State.abandonSession_history :
    (s.abandonSession).history = s.history :=
  by unfold State.abandonSession; cases s.st == .gap <;> simp
@[simp] theorem State.abandonSession_reads :
    (s.abandonSession).reads = s.reads :=
  by unfold State.abandonSession; cases s.st == .gap <;> simp
@[simp] theorem State.abandonSession_env :
    (s.abandonSession).env = s.env :=
  by unfold State.abandonSession; cases s.st == .gap <;> simp

/-! ### teardownApply -/

@[simp] theorem State.teardownApply_cfg : (s.teardownApply).cfg = s.cfg := by simp [State.teardownApply]
@[simp] theorem State.teardownApply_st :
    (s.teardownApply).st = bif s.st == .gap then .idle else s.st :=
  by simp [State.teardownApply]
@[simp] theorem State.teardownApply_idx : (s.teardownApply).idx = s.idx := by simp [State.teardownApply]
@[simp] theorem State.teardownApply_nextLevel : (s.teardownApply).nextLevel = s.nextLevel := by simp [State.teardownApply]
@[simp] theorem State.teardownApply_deadline : (s.teardownApply).deadline = s.deadline := by simp [State.teardownApply]
@[simp] theorem State.teardownApply_frameStart : (s.teardownApply).frameStart = s.frameStart := by simp [State.teardownApply]
@[simp] theorem State.teardownApply_gapEnd : (s.teardownApply).gapEnd = s.gapEnd := by simp [State.teardownApply]
@[simp] theorem State.teardownApply_repeatTotal : (s.teardownApply).repeatTotal = s.repeatTotal := by simp [State.teardownApply]
@[simp] theorem State.teardownApply_framesDone : (s.teardownApply).framesDone = s.framesDone := by simp [State.teardownApply]
@[simp] theorem State.teardownApply_sessOwner : (s.teardownApply).sessOwner = s.sessOwner := by simp [State.teardownApply]
@[simp] theorem State.teardownApply_tdPending : (s.teardownApply).tdPending = false := by simp [State.teardownApply]
@[simp] theorem State.teardownApply_tdOwner : (s.teardownApply).tdOwner = s.tdOwner := by simp [State.teardownApply]
@[simp] theorem State.teardownApply_claimed : (s.teardownApply).claimed = false := by simp [State.teardownApply]
@[simp] theorem State.teardownApply_level :
    (s.teardownApply).level = bif s.claimed then .low else s.level :=
  by simp [State.teardownApply]
@[simp] theorem State.teardownApply_train : (s.teardownApply).train = s.train := by simp [State.teardownApply]
@[simp] theorem State.teardownApply_trainLen : (s.teardownApply).trainLen = s.trainLen := by simp [State.teardownApply]
@[simp] theorem State.teardownApply_err :
    (s.teardownApply).err = bif s.st == .gap then s.teardownResult else s.err :=
  by simp [State.teardownApply]
@[simp] theorem State.teardownApply_now : (s.teardownApply).now = s.now := by simp [State.teardownApply]
@[simp] theorem State.teardownApply_requesters :
    (s.teardownApply).requesters = s.abandonSession.requesters.modify s.tdOwner (Requester.responded .ok) :=
  by simp [State.teardownApply]
@[simp] theorem State.teardownApply_history :
    (s.teardownApply).history = bif s.claimed then s.history ++ [⟨s.now, .low⟩] else s.history :=
  by simp [State.teardownApply]
@[simp] theorem State.teardownApply_reads : (s.teardownApply).reads = s.reads := by simp [State.teardownApply]
@[simp] theorem State.teardownApply_env : (s.teardownApply).env = s.env := by simp [State.teardownApply]

/-! ### tick -/

@[simp] theorem State.tick_cfg : (s.tick).cfg = s.cfg := by unfold State.tick; cases s.urgent <;> rfl
@[simp] theorem State.tick_st : (s.tick).st = s.st := by unfold State.tick; cases s.urgent <;> rfl
@[simp] theorem State.tick_idx : (s.tick).idx = s.idx := by unfold State.tick; cases s.urgent <;> rfl
@[simp] theorem State.tick_nextLevel : (s.tick).nextLevel = s.nextLevel := by unfold State.tick; cases s.urgent <;> rfl
@[simp] theorem State.tick_deadline : (s.tick).deadline = s.deadline := by unfold State.tick; cases s.urgent <;> rfl
@[simp] theorem State.tick_frameStart : (s.tick).frameStart = s.frameStart := by unfold State.tick; cases s.urgent <;> rfl
@[simp] theorem State.tick_gapEnd : (s.tick).gapEnd = s.gapEnd := by unfold State.tick; cases s.urgent <;> rfl
@[simp] theorem State.tick_repeatTotal : (s.tick).repeatTotal = s.repeatTotal := by unfold State.tick; cases s.urgent <;> rfl
@[simp] theorem State.tick_framesDone : (s.tick).framesDone = s.framesDone := by unfold State.tick; cases s.urgent <;> rfl
@[simp] theorem State.tick_sessOwner : (s.tick).sessOwner = s.sessOwner := by unfold State.tick; cases s.urgent <;> rfl
@[simp] theorem State.tick_tdPending : (s.tick).tdPending = s.tdPending := by unfold State.tick; cases s.urgent <;> rfl
@[simp] theorem State.tick_tdOwner : (s.tick).tdOwner = s.tdOwner := by unfold State.tick; cases s.urgent <;> rfl
@[simp] theorem State.tick_claimed : (s.tick).claimed = s.claimed := by unfold State.tick; cases s.urgent <;> rfl
@[simp] theorem State.tick_level : (s.tick).level = s.level := by unfold State.tick; cases s.urgent <;> rfl
@[simp] theorem State.tick_train : (s.tick).train = s.train := by unfold State.tick; cases s.urgent <;> rfl
@[simp] theorem State.tick_trainLen : (s.tick).trainLen = s.trainLen := by unfold State.tick; cases s.urgent <;> rfl
@[simp] theorem State.tick_err : (s.tick).err = s.err := by unfold State.tick; cases s.urgent <;> rfl
@[simp] theorem State.tick_now :
    (s.tick).now = bif s.urgent then s.now else s.now + 1 :=
  by unfold State.tick; cases s.urgent <;> rfl
@[simp] theorem State.tick_requesters : (s.tick).requesters = s.requesters := by unfold State.tick; cases s.urgent <;> rfl
@[simp] theorem State.tick_history : (s.tick).history = s.history := by unfold State.tick; cases s.urgent <;> rfl
@[simp] theorem State.tick_reads : (s.tick).reads = s.reads := by unfold State.tick; cases s.urgent <;> rfl
@[simp] theorem State.tick_env : (s.tick).env = s.env := by unfold State.tick; cases s.urgent <;> rfl

/-! ### resetBlock -/

@[simp] theorem State.resetBlock_cfg : (s.resetBlock).cfg = s.cfg := rfl
@[simp] theorem State.resetBlock_st : (s.resetBlock).st = .idle := rfl
@[simp] theorem State.resetBlock_idx : (s.resetBlock).idx = 0#7 := rfl
@[simp] theorem State.resetBlock_nextLevel : (s.resetBlock).nextLevel = .high := rfl
@[simp] theorem State.resetBlock_deadline : (s.resetBlock).deadline = 0 := rfl
@[simp] theorem State.resetBlock_frameStart : (s.resetBlock).frameStart = 0 := rfl
@[simp] theorem State.resetBlock_gapEnd : (s.resetBlock).gapEnd = 0 := rfl
@[simp] theorem State.resetBlock_repeatTotal : (s.resetBlock).repeatTotal = 0#16 := rfl
@[simp] theorem State.resetBlock_framesDone : (s.resetBlock).framesDone = 0#16 := rfl
@[simp] theorem State.resetBlock_sessOwner : (s.resetBlock).sessOwner = 0 := rfl
@[simp] theorem State.resetBlock_tdPending : (s.resetBlock).tdPending = false := rfl
@[simp] theorem State.resetBlock_tdOwner : (s.resetBlock).tdOwner = 0 := rfl
@[simp] theorem State.resetBlock_claimed : (s.resetBlock).claimed = false := rfl
@[simp] theorem State.resetBlock_level : (s.resetBlock).level = .low := rfl
@[simp] theorem State.resetBlock_train : (s.resetBlock).train = [] := rfl
@[simp] theorem State.resetBlock_trainLen : (s.resetBlock).trainLen = 0#7 := rfl
@[simp] theorem State.resetBlock_err : (s.resetBlock).err = .ok := rfl
@[simp] theorem State.resetBlock_now : (s.resetBlock).now = 0 := rfl
@[simp] theorem State.resetBlock_requesters : (s.resetBlock).requesters = List.replicate s.cfg.nReq Requester.reset := rfl
@[simp] theorem State.resetBlock_history : (s.resetBlock).history = [] := rfl
@[simp] theorem State.resetBlock_reads : (s.resetBlock).reads = [] := rfl
@[simp] theorem State.resetBlock_env : (s.resetBlock).env = s.env := rfl

/-! ### boot -/

@[simp] theorem State.boot_cfg (c : Config) : (State.boot c).cfg = c := rfl
@[simp] theorem State.boot_st (c : Config) : (State.boot c).st = .idle := rfl
@[simp] theorem State.boot_idx (c : Config) : (State.boot c).idx = 0#7 := rfl
@[simp] theorem State.boot_nextLevel (c : Config) : (State.boot c).nextLevel = .high := rfl
@[simp] theorem State.boot_deadline (c : Config) : (State.boot c).deadline = 0 := rfl
@[simp] theorem State.boot_frameStart (c : Config) : (State.boot c).frameStart = 0 := rfl
@[simp] theorem State.boot_gapEnd (c : Config) : (State.boot c).gapEnd = 0 := rfl
@[simp] theorem State.boot_repeatTotal (c : Config) : (State.boot c).repeatTotal = 0#16 := rfl
@[simp] theorem State.boot_framesDone (c : Config) : (State.boot c).framesDone = 0#16 := rfl
@[simp] theorem State.boot_sessOwner (c : Config) : (State.boot c).sessOwner = 0 := rfl
@[simp] theorem State.boot_tdPending (c : Config) : (State.boot c).tdPending = false := rfl
@[simp] theorem State.boot_tdOwner (c : Config) : (State.boot c).tdOwner = 0 := rfl
@[simp] theorem State.boot_claimed (c : Config) : (State.boot c).claimed = false := rfl
@[simp] theorem State.boot_level (c : Config) : (State.boot c).level = .low := rfl
@[simp] theorem State.boot_train (c : Config) : (State.boot c).train = [] := rfl
@[simp] theorem State.boot_trainLen (c : Config) : (State.boot c).trainLen = 0#7 := rfl
@[simp] theorem State.boot_err (c : Config) : (State.boot c).err = .ok := rfl
@[simp] theorem State.boot_now (c : Config) : (State.boot c).now = 0 := rfl
@[simp] theorem State.boot_requesters (c : Config) : (State.boot c).requesters = List.replicate c.nReq Requester.reset := rfl
@[simp] theorem State.boot_history (c : Config) : (State.boot c).history = [] := rfl
@[simp] theorem State.boot_reads (c : Config) : (State.boot c).reads = [] := rfl
@[simp] theorem State.boot_env (c : Config) : (State.boot c).env = Environment.reset := rfl

end Sys2Proof.Machine
end

