-- ==== Sys2Proof/Laws/Ops.lean ====
section
/-! SUPPORT. One lemma per shared operation that says what it does: the train RAM, the requesters, the encoder's list, the draws,
the decoder's reading of TEARDOWN, and the outcomes of a turn. -/

namespace Sys2Proof.Machine

/-! ### The train RAM -/

/-- A read after a write to the same entry gives the value written. -/
@[simp] theorem TrainRam.entry?_write_same (ram : TrainRam) (i : Nat) (v : Datum) :
    TrainRam.entry? (TrainRam.write ram i v) i = some v := by
  induction ram with
  | nil => simp [TrainRam.write, TrainRam.entry?]
  | cons e rest ih =>
    obtain ⟨j, w⟩ := e
    rw [TrainRam.write]
    split
    · simp [TrainRam.entry?]
    · split
      · simp [TrainRam.entry?]
      · rename_i h
        simp [TrainRam.entry?, h, ih]

/-- A write leaves every other entry as it was. -/
theorem TrainRam.entry?_write_other (ram : TrainRam) (i k : Nat) (v : Datum) (hk : k ≠ i) :
    TrainRam.entry? (TrainRam.write ram i v) k = TrainRam.entry? ram k := by
  induction ram with
  | nil => simp [TrainRam.write, TrainRam.entry?, hk]
  | cons e rest ih =>
    obtain ⟨j, w⟩ := e
    rw [TrainRam.write]
    split
    · simp [TrainRam.entry?, hk]
    · split
      · rename_i h
        simp [TrainRam.entry?, hk, ← h]
      · simp [TrainRam.entry?, ih]

/-- What an entry reads as after a run of writes: the value of its place in the list, or what it was. -/
theorem TrainRam.entry?_writeFrom (vs : List Datum) (ram : TrainRam) (i k : Nat) :
    TrainRam.entry? (TrainRam.writeFrom ram i vs) k =
      if i ≤ k ∧ k < i + vs.length then vs[k - i]? else TrainRam.entry? ram k := by
  induction vs generalizing ram i with
  | nil => simp [TrainRam.writeFrom]
  | cons v rest ih =>
    rw [TrainRam.writeFrom, ih]
    by_cases hk : k = i
    · subst hk
      simp
    · rw [TrainRam.entry?_write_other _ _ _ _ hk]
      by_cases h : i ≤ k ∧ k < i + (v :: rest).length
      · have h1 : i + 1 ≤ k ∧ k < i + 1 + rest.length := by simp at h; omega
        obtain ⟨d, rfl⟩ : ∃ d, k = i + 1 + d := ⟨k - (i + 1), by omega⟩
        rw [if_pos h, if_pos h1]
        have e1 : i + 1 + d - (i + 1) = d := by omega
        have e2 : i + 1 + d - i = d + 1 := by omega
        rw [e1, e2, List.getElem?_cons_succ]
      · have h1 : ¬(i + 1 ≤ k ∧ k < i + 1 + rest.length) := by simp at h; omega
        rw [if_neg h, if_neg h1]

/-- A write keeps the indices rising and in range. -/
theorem TrainRam.wfFrom_write (ram : TrainRam) (lo i : Nat) (v : Datum) (hl : lo ≤ i) (hi : i < trainDepth)
    (h : TrainRam.wfFrom lo ram = true) : TrainRam.wfFrom lo (TrainRam.write ram i v) = true := by
  induction ram generalizing lo with
  | nil => simp [TrainRam.write, TrainRam.wfFrom, hl, hi]
  | cons e rest ih =>
    obtain ⟨j, w⟩ := e
    simp only [TrainRam.wfFrom, Bool.and_eq_true, decide_eq_true_eq] at h
    obtain ⟨⟨h1, h2⟩, h3⟩ := h
    rw [TrainRam.write]
    split
    · simp only [TrainRam.wfFrom, Bool.and_eq_true, decide_eq_true_eq]
      exact ⟨⟨hl, hi⟩, ⟨by omega, h2⟩, h3⟩
    · split
      · rename_i _ h4
        subst h4
        simp only [TrainRam.wfFrom, Bool.and_eq_true, decide_eq_true_eq]
        exact ⟨⟨hl, hi⟩, h3⟩
      · simp only [TrainRam.wfFrom, Bool.and_eq_true, decide_eq_true_eq]
        exact ⟨⟨h1, h2⟩, ih (j + 1) (by omega) h3⟩

/-- One write keeps the canonical form. -/
theorem TrainRam.wf_write (ram : TrainRam) (i : Nat) (v : Datum) (hi : i < trainDepth) (h : ram.wf = true) :
    TrainRam.wf (TrainRam.write ram i v) = true :=
  TrainRam.wfFrom_write ram 0 i v (Nat.zero_le i) hi h

/-- A run of writes inside the RAM keeps the canonical form. -/
theorem TrainRam.wf_writeFrom (vs : List Datum) (ram : TrainRam) (i : Nat) (hi : i + vs.length ≤ trainDepth)
    (h : ram.wf = true) : TrainRam.wf (TrainRam.writeFrom ram i vs) = true := by
  induction vs generalizing ram i with
  | nil => simpa [TrainRam.writeFrom] using h
  | cons v rest ih =>
    simp only [List.length_cons] at hi
    exact ih _ _ (by omega) (TrainRam.wf_write ram i v (by omega) h)

/-- The sum of the first entries depends on those entries only. -/
theorem TrainRam.sumTo_congr (a b : TrainRam) (n : Nat) (h : ∀ i, i < n → TrainRam.entry? a i = TrainRam.entry? b i) :
    TrainRam.sumTo a n = TrainRam.sumTo b n := by
  induction n with
  | zero => rfl
  | succ n ih => simp [TrainRam.sumTo, ih (fun i hi => h i (by omega)), h n (by omega)]

/-! ### The encoder's list (spec/40_encoder.md R72) -/

@[simp] theorem dataEntries_length (t : Table) (m : BitVec 32) (n : Nat) : (dataEntries t m n).length = 2 * n := by
  induction n with
  | zero => rfl
  | succ n ih => simp [dataEntries, ih]; omega

@[simp] theorem encodeTrain_length (t : Table) (m : BitVec 32) (n : Nat) :
    (encodeTrain t m n).length = 2 * n + 1 := by simp [encodeTrain]

/-! ### The requesters -/

@[simp] theorem State.requesterAt_modify (s : State) (h k : Nat) (f : Requester → Requester) :
    ({ s with requesters := s.requesters.modify h f } : State).requesterAt k =
      if h = k then (s.requesterAt k).map f else s.requesterAt k := by
  simp only [State.requesterAt, List.getElem?_modify]
  split <;> simp

/-- `complete` is one response to the requester being served and one write of `err`; the rest of the state stays. -/
theorem State.complete_onlyAnswered (s : State) (c : ResultCode) : OnlyAnswered s (s.complete c) c where
  err := rfl
  responded :=
    { owner := (s.requesterAt_modify _ _ _).trans (if_pos rfl)
      others := fun _ hk => (s.requesterAt_modify _ _ _).trans (if_neg fun h => hk h.symm)
      reads := rfl }
  session := ⟨rfl, rfl, rfl, rfl, rfl, rfl, rfl, rfl, rfl⟩
  teardown := ⟨rfl, rfl⟩
  line := ⟨rfl, rfl, rfl⟩
  train := ⟨fun _ => rfl, rfl⟩
  base := ⟨rfl, rfl⟩

/-! ### The draws -/

/-- A gap jitter is at most GAP_JITTER_MAX (spec/41_scheduler.md R83). -/
theorem State.jitterDraw_le (s : State) : s.jitterDraw ≤ s.cfg.gapJitterMax :=
  Nat.lt_succ_iff.mp (Nat.mod_lt _ (Nat.succ_pos _))

/-- A read of a written entry gives its value and takes no draw. -/
theorem State.trainValue_written (s : State) (i : Nat) (v : Datum) (h : s.train.entry? i = some v) :
    s.trainValue i = v ∧ s.trainTaken i = s := by
  simp [State.trainValue, State.trainTaken, h]

/-! ### The decoder and the port -/

/-- The decoder reads TEARDOWN from exactly the words of `wf_teardown` (spec/30_encoding.md R63). -/
theorem wfTeardown_iff (c : CmdWord) : wfTeardown c = true ↔ decodeCommand c = .ok .teardown := by
  have hop : ∀ k : Nat, (opField c).toNat = k ↔ opField c = BitVec.ofNat 4 k ∧ k < 16 := by
    intro k
    constructor
    · intro h
      exact ⟨BitVec.eq_of_toNat_eq (by have := (opField c).isLt; simp; omega), h ▸ (opField c).isLt⟩
    · rintro ⟨h, hk⟩
      rw [h]
      simp; omega
  unfold wfTeardown decodeCommand
  by_cases hr : rsv0Field c = 0#4 ∧ rsv1Field c = 0#2
  · rw [if_pos hr]
    unfold decodeOpcode
    simp only [hr.1, hr.2, beq_self_eq_true, Bool.and_true, beq_iff_eq]
    constructor
    · intro h
      simp [h]
    · intro h
      split at h <;> first | (exact ((hop 5).1 (by assumption)).1) | cases h
  · rw [if_neg hr]
    simp only [Bool.and_eq_true, beq_iff_eq]
    constructor
    · rintro ⟨⟨-, h0⟩, h1⟩
      exact absurd ⟨h0, h1⟩ hr
    · intro h
      cases h

/-- What one turn can do, once for all: every turn has a next state, but a write of the read space, which is refused. -/
theorem runTurn_next_or_refused (turn : Turn) (s : State) :
    (∃ t, runTurn turn s = .next t) ∨ (runTurn turn s = .refused .readSpaceReadOnly ∧ ∃ h a d, turn = .write h a d) := by
  have hexec : ∀ i u, ∃ t, exec i u = .next t := by
    intro i u
    cases i <;> exact ⟨_, rfl⟩
  cases turn with
  | accept h =>
    left
    simp only [runTurn, acceptCommand]
    split
    · exact ⟨_, rfl⟩
    · rename_i c _
      cases s.ready c
      · exact ⟨_, rfl⟩
      · simp only [runCommand, cond_true]
        split
        · exact hexec _ _
        · exact ⟨_, rfl⟩
  | read h a =>
    left
    simp only [runTurn, readPort, decode]
    split
    · exact ⟨_, rfl⟩
    · exact hexec _ _
  | write h a d => exact .inr ⟨rfl, h, a, d, rfl⟩
  | present h c => exact .inl ⟨_, rfl⟩
  | sequence => exact .inl ⟨_, rfl⟩
  | tick => exact .inl ⟨_, rfl⟩
  | reset => exact .inl ⟨_, rfl⟩

/-- What a command can do to the state it runs in: one of these, and nothing else (spec/40_encoder.md R77, spec/41_scheduler.md
R80, R81, spec/42_system.md R94, R96). The READ instruction is not a command. -/
theorem exec_command_cases (i : Instr) (s t : State) (hi : ∀ a, i ≠ .read a) (h : exec i s = .next t) :
    (∃ c, c ≠ .resourceExhausted ∧ t = s.complete c) ∨
    (i = .claim ∧ s.claimed = false ∧
      (t = s.takeGrant.takeLine.complete .ok ∨ t = s.takeGrant.complete .hardwareUnavailable)) ∨
    (∃ m b, i = .encode m b ∧ bitsInRange b = true ∧ t = (s.encodeStep m b).complete .ok) ∨
    (∃ r, i = .transmit r ∧ r ≠ 0#16 ∧ s.trainLen ≠ 0#7 ∧ s.claimed = true ∧ t = s.startSession r s.env.serving) ∨
    (∃ m b r, i = .send m b r ∧ m ≠ 0#32 ∧ bitsInRange b = true ∧ r ≠ 0#16 ∧ s.claimed = true ∧
      t = (s.encodeStep m b).startSession r s.env.serving) ∨
    (i = .teardown ∧ t = { s with tdPending := true, tdOwner := s.env.serving }) := by
  cases i with
  | claim =>
    simp only [exec, execClaim, Host.Outcome.next.injEq] at h
    subst h
    cases hc : s.claimed
    · refine .inr (.inl ⟨rfl, rfl, ?_⟩)
      simp only [State.claimAnswered]
      cases s.grantAnswer <;> simp
    · exact .inl ⟨.ok, by decide, rfl⟩
  | encode m b =>
    simp only [exec, execEncode, Host.Outcome.next.injEq] at h
    subst h
    cases hb : bitsInRange b
    · exact .inl ⟨.invalidArgument, by decide, rfl⟩
    · exact .inr (.inr (.inl ⟨m, b, rfl, hb, rfl⟩))
  | transmit r =>
    simp only [exec, execTransmit, Host.Outcome.next.injEq] at h
    subst h
    cases ha : s.transmitArgsValid r
    · exact .inl ⟨.invalidArgument, by decide, rfl⟩
    · cases hc : s.claimed
      · exact .inl ⟨.hardwareUnavailable, by decide, rfl⟩
      · simp only [State.transmitArgsValid, Bool.and_eq_true, bne_iff_ne] at ha
        exact .inr (.inr (.inr (.inl ⟨r, rfl, ha.1, ha.2, rfl, rfl⟩)))
  | send m b r =>
    simp only [exec, execSend, Host.Outcome.next.injEq] at h
    subst h
    cases ha : sendArgsValid m b r
    · exact .inl ⟨.invalidArgument, by decide, rfl⟩
    · cases hc : s.claimed
      · exact .inl ⟨.hardwareUnavailable, by decide, rfl⟩
      · simp only [sendArgsValid, Bool.and_eq_true, bne_iff_ne] at ha
        exact .inr (.inr (.inr (.inr (.inl ⟨m, b, r, rfl, ha.1.1, ha.1.2, ha.2, rfl, rfl⟩))))
  | teardown =>
    simp only [exec, execTeardown, Host.Outcome.next.injEq] at h
    exact .inr (.inr (.inr (.inr (.inr ⟨rfl, h.symm⟩))))
  | read a => exact absurd rfl (hi a)

/-- No command word decodes to READ (spec/30_encoding.md R60: a READ is not a command). -/
theorem decodeCommand_ne_read (c : CmdWord) (a : ReadAddr) : decodeCommand c ≠ .ok (.read a) := by
  unfold decodeCommand decodeOpcode
  split
  · split <;> simp
  · simp

/-- What one step can do, once for all: if it answers `next t`, one of these cases holds of the turn it took. -/
theorem step_cases (s t : State) (h : step s = .next t) :
    (∃ k c, s.nextTurn = .present k c ∧ t = s.takeTurn.present k c) ∨
    (∃ k, s.nextTurn = .accept k ∧ (∀ c, s.pendingOf k = some c → s.ready c = false) ∧ t = s.takeTurn) ∨
    (∃ k c i, s.nextTurn = .accept k ∧ s.pendingOf k = some c ∧ s.ready c = true ∧ decodeCommand c = .ok i ∧
      exec i (s.takeTurn.beginAccept k) = .next t) ∨
    (∃ k c e, s.nextTurn = .accept k ∧ s.pendingOf k = some c ∧ s.ready c = true ∧ decodeCommand c = .error e ∧
      t = (s.takeTurn.beginAccept k).complete .invalidArgument) ∨
    (∃ k a, s.nextTurn = .read k a ∧ s.requesterAt k = none ∧ t = s.takeTurn) ∨
    (∃ k a, s.nextTurn = .read k a ∧ s.requesterAt k ≠ none ∧
      t = ((s.takeTurn.serve k).memReadTaken a).logRead a ((s.takeTurn.serve k).memRead a)) ∨
    (s.nextTurn = .sequence ∧ t = s.takeTurn.sequencerStep) ∨
    (s.nextTurn = .tick ∧ t = s.takeTurn.tick) ∨
    (s.nextTurn = .reset ∧ t = s.takeTurn.resetBlock) := by
  unfold step at h
  cases hn : s.nextTurn with
  | present k c =>
    rw [hn] at h
    cases h
    exact .inl ⟨k, c, rfl, rfl⟩
  | accept k =>
    rw [hn] at h
    simp only [runTurn, acceptCommand] at h
    split at h
    · rename_i hp
      cases h
      exact .inr (.inl ⟨k, rfl, fun c hc => absurd (hp.symm.trans hc) (by simp), rfl⟩)
    · rename_i c hp
      have e : s.takeTurn.ready c = s.ready c := rfl
      rw [e] at h
      cases hr : s.ready c <;> rw [hr] at h
      · cases h
        exact .inr (.inl ⟨k, rfl, fun c' hc => Option.some.inj (hp.symm.trans hc) ▸ hr, rfl⟩)
      · simp only [cond_true, runCommand, decode] at h
        split at h
        · exact .inr (.inr (.inl ⟨k, c, _, rfl, hp, hr, by assumption, h⟩))
        · cases h
          exact .inr (.inr (.inr (.inl ⟨k, c, _, rfl, hp, hr, by assumption, rfl⟩)))
  | read k a =>
    rw [hn] at h
    simp only [runTurn, readPort, decode] at h
    split at h
    · rename_i hr
      cases h
      exact .inr (.inr (.inr (.inr (.inl ⟨k, a, rfl, hr, rfl⟩))))
    · rename_i r hr
      cases h
      refine .inr (.inr (.inr (.inr (.inr (.inl ⟨k, a, rfl, ?_, rfl⟩)))))
      intro h0
      have : s.takeTurn.requesterAt k = s.requesterAt k := rfl
      rw [this, h0] at hr
      cases hr
  | write k a d =>
    rw [hn] at h
    cases h
  | sequence =>
    rw [hn] at h
    cases h
    exact .inr (.inr (.inr (.inr (.inr (.inr (.inl ⟨rfl, rfl⟩))))))
  | tick =>
    rw [hn] at h
    cases h
    exact .inr (.inr (.inr (.inr (.inr (.inr (.inr (.inl ⟨rfl, rfl⟩)))))))
  | reset =>
    rw [hn] at h
    cases h
    exact .inr (.inr (.inr (.inr (.inr (.inr (.inr (.inr ⟨rfl, rfl⟩)))))))

/-! ### The sequencer's conditions, in the words of the spec -/

theorem State.framesLeft_eq_true (s : State) : s.framesLeft = true ↔ s.framesDone.toNat < s.repeatTotal.toNat := by
  simp [State.framesLeft, Nat.blt_eq]

theorem State.framesLeft_eq_false (s : State) : s.framesLeft = false ↔ s.repeatTotal.toNat ≤ s.framesDone.toNat := by
  rw [← Bool.not_eq_true, s.framesLeft_eq_true, Nat.not_lt]

theorem State.toggleEnabled_iff (s : State) :
    s.toggleEnabled = true ↔ s.st = .frame ∧ s.deadline ≤ s.now ∧ s.idx.toNat < s.trainLen.toNat := by
  simp [State.toggleEnabled, Nat.blt_eq, and_assoc]

theorem State.frameEndEnabled_iff (s : State) :
    s.frameEndEnabled = true ↔ s.st = .frame ∧ s.deadline ≤ s.now ∧ s.idx = s.trainLen := by
  simp [State.frameEndEnabled, and_assoc]

theorem State.gapEndEnabled_iff (s : State) :
    s.gapEndEnabled = true ↔ s.st = .gap ∧ s.gapEnd ≤ s.now ∧ s.tdPending = false := by
  simp [State.gapEndEnabled, and_assoc]

theorem State.teardownApplyEnabled_iff (s : State) :
    s.teardownApplyEnabled = true ↔ s.tdPending = true ∧ s.st ≠ .frame := by
  simp [State.teardownApplyEnabled]

theorem State.urgent_iff (s : State) :
    s.urgent = true ↔ ((s.toggleEnabled = true ∨ s.frameEndEnabled = true) ∧ s.deadline + s.cfg.lagMax ≤ s.now) ∨
      s.gapEndEnabled = true ∨ s.teardownApplyEnabled = true := by
  simp [State.urgent, or_assoc]

/-- `ready(s, c)` in the words of R63. -/
theorem State.ready_iff (s : State) (c : CmdWord) :
    s.ready c = true ↔ s.tdPending = false ∧ (wfTeardown c = true ∨ s.st = .idle) := by
  cases h : wfTeardown c <;> simp [State.ready, h, and_comm]

/-- A width is in range exactly when it is between 1 and 32. -/
theorem bitsInRange_iff (b : BitVec 6) : bitsInRange b = true ↔ 1 ≤ b.toNat ∧ b.toNat ≤ 32 := by
  simp only [bitsInRange, maxBits, Bool.and_eq_true, Nat.ble_eq]

/-- What the sequencer can do, once for all. -/
theorem State.sequencerStep_cases (s : State) :
    (s.toggleEnabled = true ∧ s.sequencerStep = s.framePollToggle) ∨
    (s.frameEndEnabled = true ∧ s.sequencerStep = s.framePollEnd) ∨
    (s.gapEndEnabled = true ∧ s.framesDone.toNat < s.repeatTotal.toNat ∧ s.sequencerStep = s.beginFrame) ∨
    (s.gapEndEnabled = true ∧ s.repeatTotal.toNat ≤ s.framesDone.toNat ∧ s.sequencerStep = s.endSession .ok) ∨
    (s.teardownApplyEnabled = true ∧ s.sequencerStep = s.teardownApply) ∨
    (s.toggleEnabled = false ∧ s.frameEndEnabled = false ∧ s.gapEndEnabled = false ∧ s.teardownApplyEnabled = false ∧
      s.sequencerStep = s) := by
  unfold State.sequencerStep
  by_cases h1 : s.toggleEnabled = true
  · simp [h1]
  by_cases h2 : s.frameEndEnabled = true
  · simp [h1, h2]
  by_cases h3 : s.gapEndEnabled = true
  · cases h5 : s.framesLeft
    · have := (s.framesLeft_eq_false).1 h5
      simp [h1, h2, h3, h5, State.gapEndStep, this]
    · have := (s.framesLeft_eq_true).1 h5
      simp [h1, h2, h3, h5, State.gapEndStep, this]
  by_cases h4 : s.teardownApplyEnabled = true
  · simp [h1, h2, h3, h4]
  · simp [h1, h2, h3, h4]

end Sys2Proof.Machine
end

