-- ==== Sys2Proof/Laws/PerInstr.lean ====
section
/-! SUPPORT. What holds of every instruction as syntax, one lemma per constructor. -/

namespace Sys2Proof.Laws

/-- The fixed bits of a packed command word: its opcode, and zeros in the reserved bits (spec/30_encoding.md R59). -/
theorem packCommand_and_rowMask (op : BitVec 4) (bits : BitVec 6) (repeats : BitVec 16) (message : BitVec 32) :
    packCommand op bits repeats message &&& rowMask = op.setWidth 64 := by
  unfold packCommand rowMask
  ext i hi
  interval_cases i <;> simp

namespace MatchesRow

/-- The opcode of the instruction's row in the opcode table; READ has none (spec/30_encoding.md R60, R62). -/
def opcode : Instr → Option Nat
  | .claim => some 1
  | .encode _ _ => some 2
  | .transmit _ => some 3
  | .send _ _ _ => some 4
  | .teardown => some 5
  | .read _ => none

/-- The encoder writes a command as a word of its own row, and a READ as its address. -/
def Statement (i : Instr) : Prop :=
  match opcode i, encode i with
  | some n, .command c => matchesRow n c = true
  | none, .read a => i = .read a
  | _, _ => False

/-- A packed word matches the row of its opcode. -/
theorem of_opcode (n : Nat) (hn : (BitVec.ofNat 4 n).setWidth 64 = BitVec.ofNat 64 n) (bits : BitVec 6)
    (repeats : BitVec 16) (message : BitVec 32) :
    matchesRow n (packCommand (BitVec.ofNat 4 n) bits repeats message) = true := by
  simp [matchesRow, packCommand_and_rowMask, hn]

theorem claim : Statement .claim := of_opcode 1 rfl 0#6 0#16 0#32
theorem encode (message : BitVec 32) (bits : BitVec 6) : Statement (.encode message bits) :=
  of_opcode 2 rfl bits 0#16 message
theorem transmit (repeats : BitVec 16) : Statement (.transmit repeats) := of_opcode 3 rfl 0#6 repeats 0#32
theorem send (message : BitVec 32) (bits : BitVec 6) (repeats : BitVec 16) : Statement (.send message bits repeats) :=
  of_opcode 4 rfl bits repeats message
theorem teardown : Statement .teardown := of_opcode 5 rfl 0#6 0#16 0#32
theorem read (addr : ReadAddr) : Statement (.read addr) := rfl

end MatchesRow

end Sys2Proof.Laws
end

