-- ==== Sys2Proof/Tests/Slice0.lean ====
section
/-! SUPPORT. The model's own tests: words written out from the spec's encodings, the WellFormed smoke test, one small step for each
instruction and each sequencer step with the values of spec/95_test_vectors.md, and for every statement with hypotheses concrete
values that meet them. -/

namespace Sys2Proof.Tests

open Sys2Proof Sys2Proof.Machine

/-! ### Decoding: words written out from spec/30_encoding.md R59, R62, R70 and spec/95_test_vectors.md -/

theorem test_decode_claim : decodeCommand 0x0000000000000001#64 = .ok .claim := by decide
theorem test_decode_claim_ignored : decodeCommand 0xFFFFFFFFFFFF0001#64 = .ok .claim := by decide
theorem test_decode_encode : decodeCommand 0x0000000A00000402#64 = .ok (.encode 0xA#32 4#6) := by decide
theorem test_decode_encode_wide : decodeCommand 0xDEADBEEF00003F02#64 = .ok (.encode 0xDEADBEEF#32 63#6) := by decide
theorem test_decode_transmit : decodeCommand 0x0000000000020003#64 = .ok (.transmit 2#16) := by decide
theorem test_decode_send : decodeCommand 0x0000000A00010404#64 = .ok (.send 0xA#32 4#6 1#16) := by decide
theorem test_decode_send_full : decodeCommand 0xFFFFFFFFFFFF2004#64 = .ok (.send 0xFFFFFFFF#32 32#6 65535#16) := by decide
theorem test_decode_teardown : decodeCommand 0x0000000000000005#64 = .ok .teardown := by decide
theorem test_decode_read : decode (.read 0x11C#12) = .ok (.read 0x11C#12) := by decide
theorem test_decode_opcode_0 : decodeCommand 0x0000000000000000#64 = .error (.reservedOpcode 0#4) := by decide
theorem test_decode_opcode_6 : decodeCommand 0x0000000000000006#64 = .error (.reservedOpcode 6#4) := by decide
theorem test_decode_opcode_f : decodeCommand 0x000000000000000F#64 = .error (.reservedOpcode 15#4) := by decide
theorem test_decode_rsv0 : decodeCommand 0x0000000000000014#64 = .error (.reservedBits 1#4 0#2) := by decide
theorem test_decode_rsv1 : decodeCommand 0x0000000A00014404#64 = .error (.reservedBits 0#4 1#2) := by decide

/-- Bytes arrive least significant first (spec/20_memory.md R50). -/
theorem test_decode_bytes : decodeBytes [0x04, 0x04, 0x01, 0x00, 0x0A, 0x00, 0x00, 0x00] =
    some (.ok (.send 0xA#32 4#6 1#16)) := by decide

theorem test_table_word_send : decodeTableWord 64 0x0000000A00010404 = some (.send 0xA#32 4#6 1#16) := by decide
theorem test_table_word_read : decodeTableWord 16 0x11C = some (.read 0x11C#12) := by decide
theorem test_table_word_invalid : decodeTableWord 64 0x14 = none := by decide

/-! ### WellFormed: each check refuses an ill-formed term -/

theorem test_message_too_wide : messageFits 0x100000000 = false ∧ messageFits 0xFFFFFFFF = true := by decide
theorem test_bits_too_wide : bitsFit 64 = false ∧ bitsFit 63 = true := by decide
theorem test_repeat_too_wide : repeatFits 65536 = false ∧ repeatFits 65535 = true := by decide
theorem test_addr_too_wide : addrFits 4096 = false ∧ addrFits 4095 = true := by decide
theorem test_raw_too_wide : rawFits 0x10000000000000000 = false ∧ rawFits 0xFFFFFFFFFFFFFFFF = true := by decide
theorem test_table_unit_zero : ({ Table.default with unit := 0#16 } : Table).valid = false := by decide
theorem test_table_sync_high_zero : ({ Table.default with sync := ⟨0#16, 31#16⟩ } : Table).valid = false := by decide
theorem test_table_sync_low_zero : ({ Table.default with sync := ⟨1#16, 0#16⟩ } : Table).valid = false := by decide
theorem test_table_zero_high_zero : ({ Table.default with zero := ⟨0#16, 3#16⟩ } : Table).valid = false := by decide
theorem test_table_zero_low_zero : ({ Table.default with zero := ⟨1#16, 0#16⟩ } : Table).valid = false := by decide
theorem test_table_one_high_zero : ({ Table.default with one := ⟨0#16, 1#16⟩ } : Table).valid = false := by decide
theorem test_table_one_low_zero : ({ Table.default with one := ⟨3#16, 0#16⟩ } : Table).valid = false := by decide
theorem test_table_default_valid : Table.default.valid = true := by decide

/-! ### The assembler (spec/30_encoding.md R68) -/

theorem test_assemble_send : assembleText "send 0xA, 4, 1".toList =
    .ok (.transaction (.command 0x0000000A00010404#64)) := by decide
theorem test_assemble_binary : assembleText "encode 0b1010, 4".toList =
    .ok (.transaction (.command 0x0000000A00000402#64)) := by decide
theorem test_assemble_raw : assembleText ".cmd 0x15".toList = .ok (.transaction (.command 0x15#64)) := by decide
theorem test_assemble_refused : assembleText "transmit 65536".toList = .error .repeatTooWide := by decide
theorem test_assemble_unknown : assembleText "halt".toList = .error .notALine := by decide
theorem test_assemble_wait_idle : assembleText "wait_idle".toList = .ok .waitIdle := by decide

/-! ### Small states -/

/-- After reset, with the turns to come and the platform's answers decided. -/
def fresh (turns : List Turn) (grants : List Bool) : State :=
  { State.reset with env := { Environment.reset with agenda := turns, grants := grants } }

/-- IDLE on a claimed line: spec/95_test_vectors.md L2.5, STATUS 0x00000008. -/
def claimedIdle : State := { fresh [] [] with claimed := true, history := [⟨0, .low⟩] }

/-- The train of `encode 0x1, 1`: spec/95_test_vectors.md L2.1. -/
def shortTrain : TrainRam := [(0, 1050#32), (1, 350#32), (2, 350#32)]

/-- The first frame of `send 0x1, 1, 2` of requester 0, accepted at 0, before its first toggle. -/
def frameStart : State :=
  { claimedIdle with
    st := .frame, repeatTotal := 2#16, train := shortTrain, trainLen := 3#7
    requesters := [⟨none, true, []⟩, ⟨none, false, []⟩]
    history := [⟨0, .low⟩, ⟨0, .low⟩] }

/-- The same frame at its end: its three toggles are made and the last deadline, 1750, is reached. -/
def frameEnd : State :=
  { frameStart with
    idx := 3#7, nextLevel := .low, level := .high, deadline := 1750, now := 1750
    history := [⟨0, .low⟩, ⟨0, .low⟩, ⟨0, .high⟩, ⟨1050, .low⟩, ⟨1400, .high⟩] }

/-- The gap after that frame, at its end (no jitter): 1750 + 10850. -/
def gapEnd : State :=
  { frameEnd with
    st := .gap, framesDone := 1#16, level := .low, gapEnd := 12600, now := 12600
    history := frameEnd.history ++ [⟨1750, .low⟩] }

/-- A teardown of requester 1 is pending. -/
def withTeardown (s : State) : State :=
  { s with
    tdPending := true, tdOwner := 1
    requesters := s.requesters.modify 1 (fun r => { r with waiting := true }) }

/-- The state of a next-outcome. -/
def after (o : Host.Outcome State Fault Refusal) : State :=
  match o with
  | .next t => t
  | _ => State.reset

/-- One step on the state with this one turn to come. -/
def afterTurn (turn : Turn) (s : State) : State := after (step (s.withAgenda [turn]))

/-- The word `c` of requester 0 is presented and then accepted. -/
def afterCommand (c : CmdWord) (s : State) : State := after (step (s.offer (.command c)))

/-- What requester 0 reads at `addr`. -/
def readAfter (addr : ReadAddr) (s : State) : Option Datum :=
  (after (step (s.offer (.read addr)))).reads.getLast?.map ReadRecord.datum

/-! ### One step of each instruction: values of spec/95_test_vectors.md -/

/-- L2.4: reset, grant 1. -/
theorem test_claim_granted :
    (afterCommand 0x1#64 (fresh [] [true])).statusWord = 0x00000008#32 ∧
    (afterCommand 0x1#64 (fresh [] [true])).history = [⟨0, .low⟩] := by decide +kernel

/-- L2.4: reset, grant 0. -/
theorem test_claim_denied :
    (afterCommand 0x1#64 (fresh [] [false])).statusWord = 0x00000300#32 ∧
    (afterCommand 0x1#64 (fresh [] [false])).history = [] := by decide +kernel

/-- L1.1: the worked example of the source. -/
theorem test_encode :
    (afterCommand 0x0000000A00000402#64 (fresh [] [])).train.map Prod.snd =
      [1050#32, 350#32, 350#32, 1050#32, 1050#32, 350#32, 350#32, 1050#32, 350#32] ∧
    (afterCommand 0x0000000A00000402#64 (fresh [] [])).statusWord = 0x00090000#32 := by decide +kernel

/-- L1.2: widths 33 and 32. -/
theorem test_encode_bounds :
    (afterCommand 0x0000123400002102#64 (fresh [] [])).statusWord = 0x00000100#32 ∧
    (afterCommand 0x0000123400002002#64 (fresh [] [])).statusWord = 0x00410000#32 := by decide +kernel

/-- L2.2: no train, and a start on a claimed line. -/
theorem test_transmit :
    (afterCommand 0x0000000000010003#64 (fresh [] [])).statusWord = 0x00000100#32 ∧
    (afterCommand 0x0000000000010003#64 { claimedIdle with train := shortTrain, trainLen := 3#7 }).statusWord =
      0x00030009#32 := by decide +kernel

/-- L2.2: an unclaimed line after the argument check. -/
theorem test_send_refused :
    (afterCommand 0x0000000100010104#64 (fresh [] [])).statusWord = 0x00000300#32 ∧
    (afterCommand 0x0000000000000004#64 (fresh [] [])).statusWord = 0x00000100#32 := by decide +kernel

/-- L2.2: FRAMES at the start of the longest session. -/
theorem test_send_started :
    (afterCommand 0xFFFFFFFFFFFF2004#64 claimedIdle).framesWord = 0xFFFF0000#32 ∧
    (afterCommand 0xFFFFFFFFFFFF2004#64 claimedIdle).history = [⟨0, .low⟩, ⟨0, .low⟩] := by decide +kernel

/-- R96: accepted in a frame, it waits for TEARDOWN_APPLY. -/
theorem test_teardown_marks :
    (afterTurn (.accept 1) { frameStart with requesters := [⟨none, true, []⟩, ⟨some 5#64, false, []⟩] }).statusWord =
      0x00030019#32 := by decide +kernel

/-- L2.6: unmapped words, low address bits, and the last train word. -/
theorem test_read :
    readAfter 0x00B#12 (fresh [] []) = some 0x0000015E#32 ∧ readAfter 0x0FC#12 (fresh [] []) = some 0#32 ∧
    readAfter 0x108#12 frameStart = some 0x0000015E#32 := by decide +kernel

/-- L2.5: an invalid word on a claimed line. -/
theorem test_invalid : (afterCommand 0x0000000A00014404#64 claimedIdle).statusWord = 0x00000108#32 := by decide +kernel

/-- R48: a write of the read space is refused by name. -/
theorem test_write_refused : step (fresh [.write 0 0x100#12 0#32] []) = .refused .readSpaceReadOnly := rfl

/-- R39 by hand: FRAME with a HIGH line, GAP with a LOW one, and a pending teardown beside it. -/
theorem test_status_codes :
    frameEnd.statusWord = 0x0003000D#32 ∧ gapEnd.statusWord = 0x0003000A#32 ∧
    (withTeardown gapEnd).statusWord = 0x0003001A#32 := by decide +kernel

/-! ### One step of the sequencer, the clock and reset -/

/-- L2.3: the first toggle of a frame. -/
theorem test_toggle :
    (afterTurn .sequence frameStart).deadline = 1050 ∧ (afterTurn .sequence frameStart).level = .high := by decide +kernel

/-- L2.3: the end branch, with the largest jitter and with one out of range brought back into it. -/
theorem test_frame_end :
    (afterTurn .sequence { frameEnd with env := { frameEnd.env with jitters := [350] } }).gapEnd = 12950 ∧
    (afterTurn .sequence { frameEnd with env := { frameEnd.env with jitters := [351] } }).gapEnd = 12600 := by decide +kernel

/-- L2.3: the last gap ends the session. -/
theorem test_gap_end :
    (afterTurn .sequence { gapEnd with framesDone := 2#16 }).requesters = [⟨none, false, [.ok]⟩, ⟨none, false, []⟩] ∧
    (afterTurn .sequence gapEnd).st = .frame := by decide +kernel

/-- L2.4: a teardown between frames cancels the session. -/
theorem test_teardown_apply :
    (afterTurn .sequence (withTeardown gapEnd)).statusWord = 0x00030400#32 ∧
    (afterTurn .sequence (withTeardown gapEnd)).requesters =
      [⟨none, false, [.cancelledBetweenRepeats]⟩, ⟨none, false, [.ok]⟩] := by decide +kernel

/-- R109: the clock waits for an urgent step and else counts. -/
theorem test_tick : (afterTurn .tick frameStart).now = 0 ∧ (afterTurn .tick claimedIdle).now = 1 := by decide +kernel

theorem test_reset : (afterTurn .reset gapEnd).statusWord = 0#32 ∧ (afterTurn .reset gapEnd).history = [] := by
  decide +kernel

/-- The next step runs the table word that `withFetchWord` places. -/
theorem test_fetch_word :
    (after (step (State.reset.withFetchWord 64 0x0000000A00000402))).trainLen = 9#7 ∧
    (after (step (State.reset.withFetchWord 12 0x008))).reads = [⟨0, 0x008#12, 0x0000015E#32⟩] := by decide +kernel

/-! ### The invariants hold in busy states -/

theorem shortTrain_written (i : Nat) (h : i < (3#7).toNat) : ∃ v, shortTrain.entry? i = some v ∧ 1 ≤ v.toNat := by
  have h' : i < 3 := h
  interval_cases i <;> exact ⟨_, rfl, by decide⟩

theorem sessionInv_of_train (s : State) (ht : s.train = shortTrain) (hl : s.trainLen = 3#7) (hc : s.claimed = true)
    (hq : s.st ≠ .frame → s.level = .low)
    (hi : s.st = .frame → s.idx.toNat ≤ 3 ∧ s.nextLevel = levelAt s.idx.toNat)
    (hd : s.st = .frame → s.deadline = s.frameStart + shortTrain.sumTo s.idx.toNat)
    (hf : s.framesDone.toNat ≤ s.repeatTotal.toNat) (hp : s.st = .frame → s.framesDone.toNat < s.repeatTotal.toNat)
    (he : s.err = .ok) : SessionInv s where
  trainLen := .inr ⟨1, by decide, by decide, by rw [hl]; rfl⟩
  written := by rw [ht, hl]; exact shortTrain_written
  busy := fun _ => ⟨hc, by rw [hl]; decide, by rw [hl]; decide⟩
  quiet := hq
  index := fun h => ⟨by rw [hl]; exact (hi h).1, (hi h).2⟩
  deadline := fun h => by rw [ht]; exact hd h
  frames := hf
  framesLeft := hp
  running := fun _ => he

theorem frameStart_session : SessionInv frameStart :=
  sessionInv_of_train _ rfl rfl rfl (by decide) (by decide) (by decide) (by decide) (by decide) rfl

theorem frameEnd_session : SessionInv frameEnd :=
  sessionInv_of_train _ rfl rfl rfl (by decide) (by decide) (by decide) (by decide) (by decide) rfl

theorem gapEnd_session : SessionInv gapEnd :=
  sessionInv_of_train _ rfl rfl rfl (by decide) (by decide) (by decide) (by decide) (by decide) rfl

theorem frameStart_timing : TimingInv frameStart := ⟨by decide, by decide, by decide⟩
theorem frameEnd_timing : TimingInv frameEnd := ⟨by decide, by decide, by decide⟩
theorem gapEnd_timing : TimingInv gapEnd := ⟨by decide, by decide, by decide⟩

theorem frameEnd_waveform : WaveformInv frameEnd := by
  refine fun _ => ⟨[⟨0, .low⟩], [⟨0, .high⟩, ⟨1050, .low⟩, ⟨1400, .high⟩], rfl, rfl, ?_⟩
  intro i w h
  have hi : i < 3 := (List.getElem?_eq_some_iff.1 h).1
  interval_cases i <;> (cases h; decide)

theorem frameEnd_line : LineInv frameEnd := ⟨by decide, by decide, rfl⟩

theorem two_requesters (s : State) (a b : Requester) (hs : s.requesters = [a, b]) (P : Nat → Requester → Prop)
    (h0 : P 0 a) (h1 : P 1 b) (h : Nat) (r : Requester) (hr : s.requesterAt h = some r) : P h r := by
  rw [State.requesterAt, hs] at hr
  match h, hr with
  | 0, hr => cases hr; exact h0
  | 1, hr => cases hr; exact h1
  | h + 2, hr => simp at hr

theorem gapTeardown_ports : PortInv (withTeardown gapEnd) where
  count := rfl
  sessionOwner := by decide
  teardownOwner := by decide
  ownersDiffer := by decide
  waiting := two_requesters _ _ _ rfl (fun h r => r.waiting = true ↔ _ ∨ _) (by decide) (by decide)
  presenting := two_requesters _ _ _ rfl (fun h r => r.pending ≠ none → r.waiting = false) (by decide) (by decide)
  codes := two_requesters _ _ _ rfl (fun h r => ResultCode.resourceExhausted ∉ r.resp) (by decide) (by decide)
  errCode := by decide

theorem portInv_withAgenda (s : State) (a : List Turn) (h : PortInv s) : PortInv (s.withAgenda a) :=
  ⟨h.count, h.sessionOwner, h.teardownOwner, h.ownersDiffer, h.waiting, h.presenting, h.codes, h.errCode⟩

theorem lineInv_withAgenda (s : State) (a : List Turn) (h : LineInv s) : LineInv (s.withAgenda a) :=
  ⟨h.ordered, h.past, h.last⟩

theorem timingInv_withAgenda (s : State) (a : List Turn) (h : TimingInv s) : TimingInv (s.withAgenda a) :=
  ⟨h.started, h.poll, h.gap⟩

theorem sessionInv_withAgenda (s : State) (a : List Turn) (h : SessionInv s) : SessionInv (s.withAgenda a) :=
  ⟨h.trainLen, h.written, h.busy, h.quiet, h.index, h.deadline, h.frames, h.framesLeft, h.running⟩

/-! ### Witnesses: values that meet the hypotheses of the statements -/

theorem witness_DecoderFollowsOpcodeMap :
    matchesRow 1 0xFFFFFFFFFFFF0001#64 = true ∧ matchesRow 2 0x0000000A00000402#64 = true ∧
    matchesRow 3 0x0000000000020003#64 = true ∧ matchesRow 4 0x0000000A00010404#64 = true ∧
    matchesRow 5 0x0000000000000005#64 = true ∧
    (∀ n, 1 ≤ n → n ≤ 5 → matchesRow n 0x0000000000000014#64 = false) := by
  refine ⟨by decide, by decide, by decide, by decide, by decide, fun n h1 h5 => ?_⟩
  interval_cases n <;> decide

theorem witness_IgnoredFieldsHaveNoEffect :
    let c := 0x0000000A00000402#64; let d := 0x0000000AFFFF0402#64
    opField c = opField d ∧ rsv0Field c = rsv0Field d ∧ rsv1Field c = rsv1Field d ∧
    ((opField c = 2#4 ∨ opField c = 4#4) → messageField c = messageField d ∧ bitsField c = bitsField d) ∧
    ((opField c = 3#4 ∨ opField c = 4#4) → repeatField c = repeatField d) := by decide

theorem witness_TransportsCarryLeastSignificantFirst :
    commandOfBytes [5, 0, 0, 0, 0, 0, 0, 0] = some 5#64 ∧ [5#8, 0#8].length ≠ 8 ∧
    commandOfHalves [5#32, 0#32] = some 5#64 := by decide

theorem witness_AssemblerRefusesWhatDoesNotFit :
    0xFFFFFFFF < 2 ^ 32 ∧ 63 < 64 ∧ 65535 < 65536 ∧ 4095 < 4096 ∧ 0xFFFFFFFFFFFFFFFF < 2 ^ 64 ∧
    2 ^ 32 ≤ 0x100000000 ∧ 2 ^ 64 ≤ 0x10000000000000000 ∧
    (AsmLine.send 0xFFFFFFFF 63 65535).assemble = .ok (.transaction (.command 0xFFFFFFFFFFFF3F04#64)) ∧
    (AsmLine.send 0xA 64 1).assemble = .error .bitsTooWide := by decide

/-- Requester 0 presents `c`, and the next turn is its acceptance. -/
def presenting (c : CmdWord) (s : State) : State := s.offer (.command c)

theorem witness_StepRunsTheDecodedCommand :
    let s := presenting 0x0000000A00010404#64 claimedIdle
    s.env.agenda = .accept 0 :: [] ∧ s.requesterAt 0 = some ⟨some 0x0000000A00010404#64, false, []⟩ ∧
    decodeCommand 0x0000000A00010404#64 = .ok (.send 0xA#32 4#6 1#16) ∧
    s.ready 0x0000000A00010404#64 = true := by decide +kernel

theorem witness_StepRunsTheRead :
    let s := fresh [.read 1 0x008#12] []
    s.env.agenda = .read 1 0x008#12 :: [] ∧ s.requesterAt 1 = some Requester.reset := by decide +kernel

theorem witness_AcceptanceFollowsReady :
    let s := presenting 0x1#64 claimedIdle; let b := presenting 0x1#64 (withTeardown gapEnd)
    s.env.agenda = .accept 0 :: [] ∧ s.requesterAt 0 = some ⟨some 0x1#64, false, []⟩ ∧ s.ready 0x1#64 = true ∧
    b.env.agenda = .accept 0 :: [] ∧ b.requesterAt 0 = some ⟨some 0x1#64, true, []⟩ ∧ b.ready 0x1#64 = false := by
  decide +kernel

theorem witness_PresentingNeedsAFreeRequester :
    let s := fresh [.present 0 0x1#64] []; let b := { gapEnd with env := s.env }
    s.env.agenda = .present 0 0x1#64 :: [] ∧ s.requesterAt 0 = some Requester.reset ∧
    b.env.agenda = .present 0 0x1#64 :: [] ∧ b.requesterAt 0 = some ⟨none, true, []⟩ := by decide +kernel

/-- One word for each way of being invalid, at the boundary opcodes. -/
theorem witness_InvalidCommandIsAnswered :
    BitVec.extractLsb' 0 4 0x0#64 = 0#4 ∧ 6 ≤ (BitVec.extractLsb' 0 4 0x6#64).toNat ∧
    6 ≤ (BitVec.extractLsb' 0 4 0xF#64).toNat ∧ BitVec.extractLsb' 4 4 0x14#64 ≠ 0#4 ∧
    BitVec.extractLsb' 14 2 0x4004#64 ≠ 0#2 := by decide

theorem witness_OnlyReadSpaceWritesAreRefused :
    (fresh [.write 0 0x100#12 7#32] []).nextTurn = .write 0 0x100#12 7#32 := rfl

theorem witness_EveryDrawIsPossible :
    350 ≤ State.reset.cfg.gapJitterMax ∧ State.reset.train.entry? 64 = none := by decide +kernel

theorem witness_ClaimTakesTheLineOrIsRefused :
    claimedIdle.claimed = true ∧ (fresh [] [true]).claimed = false ∧ (fresh [] [true]).grantAnswer = true ∧
    (fresh [] [false]).claimed = false ∧ (fresh [] [false]).grantAnswer = false := by decide +kernel

theorem witness_EncodeWritesTheTrainOrIsRejected :
    (1 ≤ (1#6).toNat ∧ (1#6).toNat ≤ 32) ∧ (1 ≤ (32#6).toNat ∧ (32#6).toNat ≤ 32) ∧ (0#6).toNat = 0 ∧
    33 ≤ (33#6).toNat ∧ 33 ≤ (63#6).toNat := by decide

theorem witness_TransmitStartsASessionOrIsRejected :
    (0#16 = 0#16 ∧ State.reset.trainLen = 0#7) ∧
    (1#16 ≠ 0#16 ∧ { frameStart with claimed := false, st := .idle }.trainLen ≠ 0#7 ∧
      { frameStart with claimed := false, st := .idle }.claimed = false) ∧
    (65535#16 ≠ 0#16 ∧ frameStart.trainLen ≠ 0#7 ∧ frameStart.claimed = true) := by decide +kernel

theorem witness_SendStartsASessionOrIsRejected :
    (0#6).toNat = 0 ∧ 33 ≤ (33#6).toNat ∧ 1#32 ≠ 0#32 ∧ 1 ≤ (1#6).toNat ∧ (32#6).toNat ≤ 32 ∧ 1#16 ≠ 0#16 ∧
    State.reset.claimed = false ∧ claimedIdle.claimed = true := by decide +kernel

theorem witness_ReadReturnsTheWordWithoutEffect :
    (0x018 ≤ (0x018#12).toNat ∧ (0x018#12).toNat ≤ 0x0FF) ∧ (0x018 ≤ (0x0FF#12).toNat ∧ (0x0FF#12).toNat ≤ 0x0FF) ∧
    0x204 ≤ (0x204#12).toNat ∧ 0x204 ≤ (0xFFF#12).toNat ∧
    (fresh [.read 1 0x008#12] []).env.agenda = .read 1 0x008#12 :: [] ∧
    (fresh [.read 1 0x008#12] []).requesterAt 1 = some Requester.reset := by decide +kernel

theorem witness_ArgumentErrorsComeBeforeTheLine :
    let u := { frameStart with st := .idle, claimed := false }
    decodeCommand 0x0000000A00014404#64 = .error (.reservedBits 0#4 1#2) ∧ (0#6).toNat = 0 ∧ 33 ≤ (33#6).toNat ∧
    State.reset.claimed = false ∧ State.reset.trainLen = 0#7 ∧ u.claimed = false ∧ u.trainLen ≠ 0#7 ∧
    1#32 ≠ 0#32 ∧ 1 ≤ (1#6).toNat ∧ (32#6).toNat ≤ 32 ∧ 1#16 ≠ 0#16 := by decide +kernel

theorem witness_ReadSpaceFollowsTheMap :
    (0x003#12).toNat / 4 = 0 ∧ (0x004#12).toNat / 4 = 1 ∧ (0x008#12).toNat / 4 = 2 ∧ (0x00C#12).toNat / 4 = 3 ∧
    (0x010#12).toNat / 4 = 4 ∧ (0x017#12).toNat / 4 = 5 ∧
    ((0x100#12).toNat / 4 = 64 + 0 ∧ frameStart.train.entry? 0 = some 1050#32) ∧
    ((0x203#12).toNat / 4 = 64 + 64 ∧ frameStart.train.entry? 64 = none) ∧
    (6 ≤ (0x018#12).toNat / 4 ∧ (0x0FF#12).toNat / 4 < 64) ∧ 128 < (0x204#12).toNat / 4 := by decide +kernel

theorem witness_ReadAddressLowBitsIgnored : (0x008#12).toNat / 4 = (0x00B#12).toNat / 4 := by decide

theorem witness_ConfigurationReadback :
    State.reset.cfg.table = Table.default ∧ step (fresh [.tick] []) = .next (fresh [.tick] []).takeTurn.tick ∧
    (fresh [.write 0 0x008#12 0#32] []).env.agenda = .write 0 0x008#12 0#32 :: [] := ⟨rfl, rfl, rfl⟩

/-- The write turns of StatusShowsItsFields and FramesShowsItsCounters. -/
theorem witness_StatusShowsItsFields :
    (fresh [.write 0 0x000#12 1#32] []).env.agenda = .write 0 0x000#12 1#32 :: [] ∧
    (fresh [.write 0 0x004#12 1#32] []).env.agenda = .write 0 0x004#12 1#32 :: [] := ⟨rfl, rfl⟩

theorem witness_SymbolDurationsAreExact : Table.default.valid = true := by decide

/-- Widths 1 and 32, bits 0 and 31, and two messages that agree below the width. -/
theorem witness_EncodedTrainHasItsLayout :
    (1 ≤ 1 ∧ 1 ≤ 32) ∧ (1 ≤ 32 ∧ 32 ≤ 32) ∧ 0 < 1 ∧ 31 < 32 ∧
    (∀ k, k < 4 → (0xDEADBEEF#32).getLsbD k = (0xF#32).getLsbD k) := by decide

theorem witness_EncodeStepWritesOnlyTheTrain :
    (1 ≤ (1#6).toNat ∧ (1#6).toNat ≤ 32) ∧ 1 ≤ (32#6).toNat ∧ (32#6).toNat ≤ 32 := by decide

theorem witness_FrameStartForcesLow :
    let s := gapEnd.withAgenda [.sequence]
    claimedIdle.claimed = true ∧ SessionInv s ∧ step s = .next s.takeTurn.sequencerStep ∧ s.st ≠ .frame ∧
    s.takeTurn.sequencerStep.st = .frame :=
  ⟨rfl, sessionInv_withAgenda _ _ gapEnd_session, rfl, by decide, by decide +kernel⟩

/-- The second witness is late past the next deadline (LAG_MAX apart). -/
theorem witness_FramePollWritesTheNextLevel :
    let s := frameStart.withAgenda [.sequence]
    s.env.agenda = .sequence :: [] ∧ s.claimed = true ∧ s.st = .frame ∧ s.deadline ≤ s.now ∧
    s.idx.toNat < s.trainLen.toNat ∧ s.train.entry? s.idx.toNat = some 1050#32 ∧
    ({ s with now := 1050 } : State).deadline + (1050#32).toNat ≤ 1050 := by decide +kernel

theorem witness_FrameEndOpensTheGap :
    let s := frameEnd.withAgenda [.sequence]
    s.env.agenda = .sequence :: [] ∧ s.claimed = true ∧ s.st = .frame ∧ s.deadline ≤ s.now ∧ s.idx = s.trainLen ∧
    s.framesDone.toNat < s.repeatTotal.toNat ∧ (withTeardown s).tdPending = true ∧ 350 ≤ s.cfg.gapJitterMax := by
  decide +kernel

theorem witness_GapEndStartsTheNextFrameOrEndsTheSession :
    let s := gapEnd.withAgenda [.sequence]; let e := { s with framesDone := 2#16 }
    (SessionInv s ∧ s.env.agenda = .sequence :: [] ∧ s.st = .gap ∧ s.gapEnd ≤ s.now ∧ s.tdPending = false ∧
      s.framesDone.toNat < s.repeatTotal.toNat) ∧
    (SessionInv e ∧ e.env.agenda = .sequence :: [] ∧ e.st = .gap ∧ e.gapEnd ≤ e.now ∧ e.tdPending = false ∧
      e.repeatTotal.toNat ≤ e.framesDone.toNat) :=
  ⟨⟨sessionInv_withAgenda _ _ gapEnd_session, by decide⟩,
   ⟨sessionInv_of_train _ rfl rfl rfl (by decide) (by decide) (by decide) (by decide) (by decide) rfl, by decide⟩⟩

/-- In GAP with frames left and with none left, and in IDLE with the line claimed and unclaimed. -/
theorem witness_TeardownApplyEndsTheSessionAndReleasesTheLine :
    let g := withTeardown (gapEnd.withAgenda [.sequence]); let d := { g with framesDone := 2#16 }
    let i := withTeardown (claimedIdle.withAgenda [.sequence]); let u := { i with claimed := false }
    let f := withTeardown (frameEnd.withAgenda [.sequence])
    (g.env.agenda = .sequence :: [] ∧ g.tdPending = true ∧ g.st = .gap ∧ g.sessOwner ≠ g.tdOwner ∧ g.claimed = true ∧
      g.framesDone.toNat < g.repeatTotal.toNat) ∧
    (d.env.agenda = .sequence :: [] ∧ d.tdPending = true ∧ d.st = .gap ∧ d.sessOwner ≠ d.tdOwner ∧
      ¬d.framesDone.toNat < d.repeatTotal.toNat) ∧
    (i.env.agenda = .sequence :: [] ∧ i.tdPending = true ∧ i.st = .idle ∧ i.claimed = true) ∧
    (u.env.agenda = .sequence :: [] ∧ u.tdPending = true ∧ u.st = .idle ∧ u.claimed = false) ∧
    (f.env.agenda = .sequence :: [] ∧ f.st = .frame ∧ f.tdPending = true ∧ (after (step f)).st ≠ .frame) := by
  decide +kernel

/-- A state for each of the three urgent steps, and one without. -/
theorem witness_UrgentStepsStopTheClock :
    let f := frameStart.withAgenda [.tick]; let g := gapEnd.withAgenda [.tick]
    let d := withTeardown g; let n := { g with now := 12599 }
    (SessionInv f ∧ f.env.agenda = .tick :: [] ∧ f.st = .frame ∧ f.deadline + f.cfg.lagMax ≤ f.now) ∧
    (SessionInv g ∧ g.env.agenda = .tick :: [] ∧ g.st = .gap ∧ g.gapEnd ≤ g.now ∧ g.tdPending = false) ∧
    (SessionInv d ∧ d.env.agenda = .tick :: [] ∧ d.tdPending = true ∧ d.st ≠ .frame) ∧
    (SessionInv n ∧ n.env.agenda = .tick :: [] ∧
      ¬((n.st = .frame ∧ n.deadline + n.cfg.lagMax ≤ n.now) ∨ (n.st = .gap ∧ n.gapEnd ≤ n.now ∧ n.tdPending = false) ∨
        (n.tdPending = true ∧ n.st ≠ .frame))) :=
  ⟨⟨sessionInv_withAgenda _ _ frameStart_session, by decide⟩, ⟨sessionInv_withAgenda _ _ gapEnd_session, by decide⟩,
   ⟨sessionInv_of_train _ rfl rfl rfl (by decide) (by decide) (by decide) (by decide) (by decide) rfl, by decide⟩,
   ⟨sessionInv_of_train _ rfl rfl rfl (by decide) (by decide) (by decide) (by decide) (by decide) rfl, by decide⟩⟩

theorem witness_SequencerStepsAreOnTime :
    (TimingInv frameStart ∧ frameStart.toggleEnabled = true) ∧ (TimingInv frameEnd ∧ frameEnd.frameEndEnabled = true) ∧
    (TimingInv gapEnd ∧ gapEnd.gapEndEnabled = true) :=
  ⟨⟨frameStart_timing, by decide⟩, ⟨frameEnd_timing, by decide⟩, ⟨gapEnd_timing, by decide⟩⟩

theorem witness_NoSecondToggleAtOneInstant :
    SessionInv frameStart ∧ TimingInv frameStart ∧ frameStart.cfg.lagMax = 0 ∧ frameStart.toggleEnabled = true :=
  ⟨frameStart_session, frameStart_timing, rfl, by decide⟩

/-- A TEARDOWN of requester 1 is accepted in a frame, and any other command of requester 1 is held. -/
theorem witness_NothingDisturbsAFrame :
    let s := { frameStart with
      requesters := [⟨none, true, []⟩, ⟨some 5#64, false, []⟩]
      env := { frameStart.env with agenda := [.accept 1] } }
    let b := { s with requesters := [⟨none, true, []⟩, ⟨some 1#64, false, []⟩] }
    s.st = .frame ∧ step s = .next (after (step s)) ∧ s.nextTurn ≠ .reset ∧ s.nextTurn ≠ .sequence ∧
    s.nextTurn = .accept 1 ∧ s.requesterAt 1 = some ⟨some 5#64, false, []⟩ ∧ wfTeardown 5#64 = true ∧
    s.tdPending = false ∧
    b.st = .frame ∧ step b = .next (after (step b)) ∧ b.requesterAt 1 = some ⟨some 1#64, false, []⟩ ∧
    wfTeardown 1#64 = false :=
  ⟨rfl, rfl, by decide, by decide, rfl, rfl, by decide, rfl, rfl, rfl, rfl, by decide⟩

theorem witness_FramesAreNeverCancelled :
    let s := frameEnd.withAgenda [.sequence]
    s.st = .frame ∧ step s = .next s.takeTurn.sequencerStep ∧ s.nextTurn ≠ .reset ∧
    s.takeTurn.sequencerStep.st ≠ .frame :=
  ⟨rfl, rfl, by decide, by decide +kernel⟩

theorem witness_SessionsNeverOverlap :
    let s := gapEnd.withAgenda [.sequence]
    s.st ≠ .idle ∧ step s = .next s.takeTurn.sequencerStep ∧ s.takeTurn.sequencerStep.st ≠ .idle :=
  ⟨by decide, rfl, by decide +kernel⟩

theorem witness_StepKeepsSessionInvariants :
    SessionInv (frameEnd.withAgenda [.tick]) ∧ ∃ t, step (frameEnd.withAgenda [.tick]) = .next t :=
  ⟨sessionInv_withAgenda _ _ frameEnd_session, _, rfl⟩

theorem witness_StepKeepsPortInvariants :
    let s := (withTeardown gapEnd).withAgenda [.sequence]
    PortInv s ∧ step s = .next s.takeTurn.sequencerStep ∧ s.teardownApplyEnabled = true :=
  ⟨portInv_withAgenda _ _ gapTeardown_ports, rfl, by decide⟩

theorem witness_StepKeepsLineHistoryInvariants :
    let s := frameEnd.withAgenda [.sequence]
    LineInv s ∧ step s = .next s.takeTurn.sequencerStep ∧ s.frameEndEnabled = true :=
  ⟨lineInv_withAgenda _ _ frameEnd_line, rfl, by decide⟩

theorem witness_StepKeepsTheSequencerOnTime :
    let s := gapEnd.withAgenda [.sequence]
    SessionInv s ∧ TimingInv s ∧ step s = .next s.takeTurn.sequencerStep :=
  ⟨sessionInv_withAgenda _ _ gapEnd_session, timingInv_withAgenda _ _ gapEnd_timing, rfl⟩

/-- For StepKeepsTheWaveform and WholeFrameHasItsWaveform. -/
theorem witness_WholeFrameHasItsWaveform :
    let s := frameEnd.withAgenda [.sequence]
    SessionInv s ∧ TimingInv s ∧ WaveformInv s ∧ s.frameEndEnabled = true ∧ s.nextTurn = .sequence ∧
    step s = .next s.takeTurn.sequencerStep :=
  ⟨sessionInv_withAgenda _ _ frameEnd_session, timingInv_withAgenda _ _ frameEnd_timing, frameEnd_waveform, by decide,
   rfl, rfl⟩

theorem witness_StepKeepsTheTrainRamCanonical :
    frameEnd.train.wf = true ∧ ∃ t, step (frameEnd.withAgenda [.tick]) = .next t :=
  ⟨by decide, _, rfl⟩

/-- For ConfigurationNeverChanges, OnlyTickAdvancesTime and LineHistoryOnlyGrows. -/
theorem witness_OnlyTickAdvancesTime :
    let s := claimedIdle.withAgenda [.tick]
    step s = .next s.takeTurn.tick ∧ s.nextTurn ≠ .reset :=
  ⟨rfl, by decide⟩

theorem witness_EachCommandGetsOneResponse :
    let s := (withTeardown gapEnd).withAgenda [.sequence]
    PortInv s ∧ step s = .next s.takeTurn.sequencerStep ∧ s.nextTurn ≠ .reset ∧
    s.requesterAt 0 = some ⟨none, true, []⟩ ∧ s.requesterAt 1 = some ⟨none, true, []⟩ :=
  ⟨portInv_withAgenda _ _ gapTeardown_ports, rfl, by decide, rfl, rfl⟩

/-- The other two cases of EachCommandGetsOneResponse: requester 0, whose command is accepted, and requester 1, which has none. -/
theorem witness_EachCommandGetsOneResponse_accepted :
    let s := presenting 1#64 claimedIdle
    PortInv s ∧ step s = .next (after (step s)) ∧ s.nextTurn = .accept 0 ∧
    s.requesterAt 0 = some ⟨some 1#64, false, []⟩ ∧ s.ready 1#64 = true ∧ s.requesterAt 1 = some ⟨none, false, []⟩ :=
  ⟨{ count := rfl, sessionOwner := by decide, teardownOwner := by decide, ownersDiffer := by decide
     waiting := two_requesters _ _ _ rfl (fun h r => r.waiting = true ↔ _ ∨ _) (by decide) (by decide)
     presenting := two_requesters _ _ _ rfl (fun _ r => r.pending ≠ none → r.waiting = false) (by decide) (by decide)
     codes := two_requesters _ _ _ rfl (fun _ r => ResultCode.resourceExhausted ∉ r.resp) (by decide) (by decide)
     errCode := by decide },
   rfl, rfl, rfl, by decide, rfl⟩

theorem witness_UnclaimedLineIsNotWritten :
    let s := fresh [.tick] []
    step s = .next s.takeTurn.tick ∧ s.nextTurn ≠ .reset ∧ s.claimed = false ∧ s.takeTurn.tick.claimed = false :=
  ⟨rfl, by decide, rfl, by decide +kernel⟩

theorem witness_ResetClearsTheBlock :
    (frameEnd.withAgenda [.reset]).env.agenda = .reset :: [] ∧ 1 < frameEnd.cfg.nReq ∧ frameEnd.cfg.nReq ≤ 2 :=
  ⟨rfl, by decide, by decide⟩

theorem witness_EveryFrameCanRunToItsEnd : SessionInv frameStart ∧ frameStart.st = .frame :=
  ⟨frameStart_session, rfl⟩

theorem witness_EverySessionCanRunToItsEnd :
    SessionInv gapEnd ∧ gapEnd.st ≠ .idle ∧ gapEnd.tdPending = false :=
  ⟨gapEnd_session, by decide, rfl⟩

end Sys2Proof.Tests
end

section
/-! SUPPORT and THEOREMS. The registers of spec/10_state.md R39 to R41: what stands in each bit field of a word of the read port,
and the statements about STATUS, FRAMES and the configuration words. -/

namespace Sys2Proof.Machine

/-! ### Fields placed in a 32-bit word -/

/-- A field placed at bit `k` is read back from there. -/
@[simp] theorem extractLsb'_placed {w k : Nat} (x : BitVec w) (h : k + w ≤ 32) :
    (x.setWidth 32 <<< k).extractLsb' k w = x := by
  ext i hi
  simp [hi, show k + i < 32 by omega]

/-- A field placed at bit `k` leaves 0 in every bit range beside its own. -/
@[simp] theorem extractLsb'_placed_beside {w k : Nat} (x : BitVec w) (a n : Nat) (h : a + n ≤ k ∨ k + w ≤ a) :
    (x.setWidth 32 <<< k).extractLsb' a n = 0#n := by
  ext i hi
  have hbit : k ≤ a + i → x.getLsbD (a + i - k) = false := fun hk => x.getLsbD_of_ge _ (by omega)
  simp +contextual [hbit]

/-- A field placed at bit 0 is read back from there. -/
@[simp] theorem extractLsb'_placed_zero {w : Nat} (x : BitVec w) (h : w ≤ 32) : (x.setWidth 32).extractLsb' 0 w = x := by
  simpa using extractLsb'_placed (k := 0) x (by omega)

/-- A field placed at bit 0 leaves 0 in the bits above it. -/
@[simp] theorem extractLsb'_placed_zero_above {w : Nat} (x : BitVec w) (a n : Nat) (h : w ≤ a) :
    (x.setWidth 32).extractLsb' a n = 0#n := by
  simpa using extractLsb'_placed_beside (k := 0) x a n (.inr (by omega))

/-! ### The codes of the coded fields -/

/-- `st` never has the value 3 (R23). -/
theorem Phase.code_ne_three (p : Phase) : p.code ≠ 3#2 := by cases p <;> decide

/-- Distinct phases have distinct codes (R23). -/
theorem Phase.code_inj {p q : Phase} : p.code = q.code ↔ p = q := by cases p <;> cases q <;> decide

/-- Distinct result codes have distinct numbers (R100). -/
theorem ResultCode.code_inj {c d : ResultCode} : c.code = d.code ↔ c = d := by cases c <;> cases d <;> decide

theorem Level.bit_eq_one_iff (v : Level) : v.bit = 1#1 ↔ v = .high := by cases v <;> decide

theorem flagBit_eq_one_iff (b : Bool) : flagBit b = 1#1 ↔ b = true := by cases b <;> decide

/-! ### STATUS (R39), field by field -/

section StatusFields

variable (s : State)

theorem State.statusWord_st : s.statusWord.extractLsb' 0 2 = s.st.code := by
  simp [State.statusWord, BitVec.extractLsb'_or]

theorem State.statusWord_level : s.statusWord.extractLsb' 2 1 = s.level.bit := by
  simp [State.statusWord, BitVec.extractLsb'_or]

theorem State.statusWord_claimed : s.statusWord.extractLsb' 3 1 = flagBit s.claimed := by
  simp [State.statusWord, BitVec.extractLsb'_or]

theorem State.statusWord_tdPending : s.statusWord.extractLsb' 4 1 = flagBit s.tdPending := by
  simp [State.statusWord, BitVec.extractLsb'_or]

theorem State.statusWord_err : s.statusWord.extractLsb' 8 3 = s.err.code := by
  simp [State.statusWord, BitVec.extractLsb'_or]

theorem State.statusWord_trainLen : s.statusWord.extractLsb' 16 7 = s.trainLen := by
  simp [State.statusWord, BitVec.extractLsb'_or]

/-- The reserved bits, in each range that no field touches, read 0. -/
theorem State.statusWord_reserved (a n : Nat)
    (h : (5 ≤ a ∧ a + n ≤ 8) ∨ (11 ≤ a ∧ a + n ≤ 16) ∨ 23 ≤ a) : s.statusWord.extractLsb' a n = 0#n := by
  simp (disch := omega) [State.statusWord, BitVec.extractLsb'_or]

/-- Every field of STATUS is 0 after reset. -/
theorem State.statusWord_boot (cfg : Config) : (State.boot cfg).statusWord = 0x00000000#32 := by
  simp [State.statusWord, State.boot, Phase.code, Level.bit, ResultCode.code, flagBit]

end StatusFields

/-! ### FRAMES (R40) and the symbol words (R41), by halves -/

theorem State.framesWord_framesDone (s : State) : s.framesWord.extractLsb' 0 16 = s.framesDone := by
  simp [State.framesWord, BitVec.extractLsb'_or]

theorem State.framesWord_repeatTotal (s : State) : s.framesWord.extractLsb' 16 16 = s.repeatTotal := by
  simp [State.framesWord, BitVec.extractLsb'_or]

theorem State.framesWord_boot (cfg : Config) : (State.boot cfg).framesWord = 0x00000000#32 := by
  simp [State.framesWord]

theorem symbolWord_high (y : Symbol) : (symbolWord y).extractLsb' 0 16 = y.high := by
  simp [symbolWord, BitVec.extractLsb'_or]

theorem symbolWord_low (y : Symbol) : (symbolWord y).extractLsb' 16 16 = y.low := by
  simp [symbolWord, BitVec.extractLsb'_or]

theorem Table.unitWord_unit (t : Table) : (Table.unitWord t).extractLsb' 0 16 = t.unit :=
  extractLsb'_placed_zero t.unit (by decide)

theorem Table.unitWord_reserved (t : Table) : (Table.unitWord t).extractLsb' 16 16 = 0#16 :=
  extractLsb'_placed_zero_above t.unit 16 16 (by decide)

/-! ### The register addresses (spec/20_memory.md R47) -/

section RegisterAddresses

variable (s : State)

theorem State.memRead_status : s.memRead 0x000#12 = s.statusWord := rfl
theorem State.memRead_frames : s.memRead 0x004#12 = s.framesWord := rfl
theorem State.memRead_cfgUnit : s.memRead 0x008#12 = Table.unitWord s.cfg.table := rfl
theorem State.memRead_cfgSync : s.memRead 0x00C#12 = symbolWord s.cfg.table.sync := rfl
theorem State.memRead_cfgZero : s.memRead 0x010#12 = symbolWord s.cfg.table.zero := rfl
theorem State.memRead_cfgOne : s.memRead 0x014#12 = symbolWord s.cfg.table.one := rfl

end RegisterAddresses

/-- A configuration word is a function of the configuration alone (R41). -/
theorem State.memRead_eq_of_cfg_eq {s t : State} {a : ReadAddr}
    (ha : a = 0x008#12 ∨ a = 0x00C#12 ∨ a = 0x010#12 ∨ a = 0x014#12) (h : t.cfg = s.cfg) :
    t.memRead a = s.memRead a := by
  obtain rfl | rfl | rfl | rfl := ha
  · rw [t.memRead_cfgUnit, s.memRead_cfgUnit, h]
  · rw [t.memRead_cfgSync, s.memRead_cfgSync, h]
  · rw [t.memRead_cfgZero, s.memRead_cfgZero, h]
  · rw [t.memRead_cfgOne, s.memRead_cfgOne, h]

/-! ### The configuration is constant (R22), and the read space is read-only (R48) -/

/-- No instruction writes the configuration. -/
theorem exec_cfg {i : Instr} {s t : State} (h : exec i s = .next t) : t.cfg = s.cfg := by
  by_cases hread : ∃ a, i = .read a
  · obtain ⟨a, rfl⟩ := hread
    simp only [exec, execRead, Host.Outcome.next.injEq] at h
    simp [← h]
  · obtain ⟨c, -, rfl⟩ | ⟨-, -, rfl | rfl⟩ | ⟨m, b, -, -, rfl⟩ | ⟨r, -, -, -, -, rfl⟩ | ⟨m, b, r, -, -, -, -, -, rfl⟩ |
      ⟨-, rfl⟩ := exec_command_cases i s t (fun a ha => hread ⟨a, ha⟩) h <;> simp

/-- No step of the sequencer writes the configuration. -/
theorem State.sequencerStep_cfg (s : State) : s.sequencerStep.cfg = s.cfg := by
  obtain ⟨-, h⟩ | ⟨-, h⟩ | ⟨-, -, h⟩ | ⟨-, -, h⟩ | ⟨-, h⟩ | ⟨-, -, -, -, h⟩ := s.sequencerStep_cases <;> simp [h]

/-- No step writes the configuration. -/
theorem step_cfg {s t : State} (h : step s = .next t) : t.cfg = s.cfg := by
  obtain ⟨k, c, -, rfl⟩ | ⟨k, -, -, rfl⟩ | ⟨k, c, i, -, -, -, -, hexec⟩ | ⟨k, c, e, -, -, -, -, rfl⟩ | ⟨k, a, -, -, rfl⟩ |
    ⟨k, a, -, -, rfl⟩ | ⟨-, rfl⟩ | ⟨-, rfl⟩ | ⟨-, rfl⟩ := step_cases s t h
  case inr.inr.inl => simpa using exec_cfg hexec
  case inr.inr.inr.inr.inr.inr.inl => simpa using s.takeTurn.sequencerStep_cfg
  all_goals simp

/-- A turn that attempts to write the read space is refused, whatever the address and the datum. -/
theorem step_write_refused {s : State} {h : Nat} {a : ReadAddr} {d : Datum} {rest : List Turn}
    (hturn : s.env.agenda = .write h a d :: rest) : step s = .refused .readSpaceReadOnly := by
  simp [step, State.nextTurn, hturn, runTurn]

end Sys2Proof.Machine

section StateRegisters

open Sys2Proof Sys2Proof.Machine

/-- Settles O23, from the rule of each field of STATUS. -/
theorem statusShowsItsFields : Obligations.StatusShowsItsFields := by
  intro s
  rw [s.statusWord_st, s.statusWord_level, s.statusWord_claimed, s.statusWord_tdPending, s.statusWord_err]
  exact ⟨s.memRead_status,
    rfl, s.st.code_ne_three, Phase.code_inj (q := .idle), Phase.code_inj (q := .frame), Phase.code_inj (q := .gap),
    rfl, s.level.bit_eq_one_iff, rfl, flagBit_eq_one_iff _, rfl, flagBit_eq_one_iff _,
    s.statusWord_reserved 5 3 (by decide),
    rfl, ResultCode.code_inj (d := .ok), ResultCode.code_inj (d := .invalidArgument),
    ResultCode.code_inj (d := .resourceExhausted), ResultCode.code_inj (d := .hardwareUnavailable),
    ResultCode.code_inj (d := .cancelledBetweenRepeats),
    s.statusWord_reserved 11 5 (by decide), s.statusWord_trainLen, s.statusWord_reserved 23 9 (by decide),
    State.statusWord_boot, fun _ _ _ => step_write_refused⟩

/-- Settles O24, from the rule of each half of FRAMES. -/
theorem framesShowsItsCounters : Obligations.FramesShowsItsCounters := fun s =>
  ⟨s.memRead_frames, s.framesWord_framesDone, s.framesWord_repeatTotal, State.framesWord_boot, fun _ _ _ => step_write_refused⟩

/-- The configuration words of the default TABLE (R41). -/
theorem configurationWords_default :
    Table.unitWord Table.default = 0x0000015E#32 ∧ symbolWord Table.default.sync = 0x001F0001#32 ∧
    symbolWord Table.default.zero = 0x00030001#32 ∧ symbolWord Table.default.one = 0x00010003#32 := by decide

/-- Settles O25: the words are read back by halves, and they are constant because they depend on the configuration alone, which no
step writes. -/
theorem configurationReadback : Obligations.ConfigurationReadback := by
  refine ⟨fun s => ?readback, fun s hs => ?default, fun a ha => ⟨fun s t h => ?constant, fun s h d rest => step_write_refused⟩⟩
  case readback =>
    rw [s.memRead_cfgUnit, s.memRead_cfgSync, s.memRead_cfgZero, s.memRead_cfgOne]
    exact ⟨Table.unitWord_unit _, Table.unitWord_reserved _, symbolWord_high _, symbolWord_low _, symbolWord_high _,
      symbolWord_low _, symbolWord_high _, symbolWord_low _⟩
  case default =>
    rw [s.memRead_cfgUnit, s.memRead_cfgSync, s.memRead_cfgZero, s.memRead_cfgOne, hs]
    exact configurationWords_default
  case constant => exact State.memRead_eq_of_cfg_eq ha (step_cfg h)

end StateRegisters
end

section
/-! SUPPORT and THEOREM. The read space (spec/20_memory.md R47): which word stands at each word index, that a read changes nothing
but the log of reads, and the statement about the map. -/

namespace Sys2Proof.Machine

/-! ### The word index -/

/-- `addr[11:2]` is the byte address divided by 4. -/
theorem readWordIndex_eq (addr : ReadAddr) : readWordIndex addr = addr.toNat / 4 := by
  have hlt : addr.toNat < 2 ^ 12 := addr.isLt
  simp only [readWordIndex, BitVec.extractLsb'_toNat, Nat.shiftRight_eq_div_pow]
  omega

/-- The train's word indices are 64 to 128 (R46). -/
theorem isTrainWord_iff (w : Nat) : isTrainWord w = true ↔ 64 ≤ w ∧ w ≤ 128 := by
  simp [isTrainWord]

/-- A read depends on the word index alone: `addr[1:0]` is ignored (R51). -/
theorem State.memRead_congr (s : State) {a b : ReadAddr} (h : a.toNat / 4 = b.toNat / 4) : s.memRead a = s.memRead b := by
  simp only [State.memRead, readWordIndex_eq, h]

/-! ### The words beyond the registers: the train and the unmapped ranges -/

/-- From word index 6 on a read gives a train entry or 0. -/
theorem State.memRead_beyond_registers (s : State) {addr : ReadAddr} (h : 6 ≤ addr.toNat / 4) :
    s.memRead addr = bif isTrainWord (addr.toNat / 4) then s.trainValue (addr.toNat / 4 - 64) else 0#32 := by
  have hne : ∀ k, k < 6 → addr.toNat / 4 ≠ k := fun k hk => by omega
  simp [State.memRead, readWordIndex_eq, hne]

/-- TRAIN[i] stands at word index `64 + i`. -/
theorem State.memRead_train (s : State) {addr : ReadAddr} {i : Nat} (h : addr.toNat / 4 = 64 + i) (hi : i ≤ 64) :
    s.memRead addr = s.trainValue i := by
  have htrain : isTrainWord (64 + i) = true := (isTrainWord_iff _).mpr (by omega)
  rw [s.memRead_beyond_registers (by omega), h, htrain, Nat.add_sub_cancel_left, cond_true]

/-- Between the registers and the train, and above the train, a read gives 0. -/
theorem State.memRead_unmapped (s : State) {addr : ReadAddr}
    (h : (6 ≤ addr.toNat / 4 ∧ addr.toNat / 4 < 64) ∨ 128 < addr.toNat / 4) : s.memRead addr = 0#32 := by
  have htrain : isTrainWord (addr.toNat / 4) = false := by
    rw [Bool.eq_false_iff, Ne, isTrainWord_iff]
    omega
  rw [s.memRead_beyond_registers (by omega), htrain, cond_false]

/-- An unwritten entry reads as any value: the environment that holds `v` as its next word gives it. -/
theorem State.exists_trainValue_eq (s : State) {i : Nat} (v : Datum) (h : s.train.entry? i = none) :
    ∃ e, ({ s with env := e } : State).trainValue i = v :=
  ⟨{ s.env with words := [v] }, by simp [State.trainValue, State.wordDraw, h]⟩

/-! ### The configuration words as concatenations -/

/-- A symbol word is its LOW count above its HIGH count. -/
theorem symbolWord_eq_append (y : Symbol) : symbolWord y = y.low ++ y.high := by
  rw [symbolWord, BitVec.append_def, BitVec.shiftLeftZeroExtend_eq, BitVec.setWidth'_eq]

/-! ### The READ transaction (spec/42_system.md R99) -/

/-- A read leaves the requester being served as it was. -/
@[simp] theorem State.memReadTaken_serving (s : State) (addr : ReadAddr) :
    (s.memReadTaken addr).env.serving = s.env.serving := by
  unfold State.memReadTaken
  cases isTrainWord (readWordIndex addr) with
  | false => rfl
  | true => cases hentry : (s.train.entry? (readWordIndex addr - 64)).isNone <;> simp [hentry]

/-- READ logs the word of the state in which it takes place, and changes nothing else of the block. -/
theorem exec_read (s : State) (addr : ReadAddr) :
    ∃ t, exec (.read addr) s = .next t ∧ t.reads = s.reads ++ [⟨s.env.serving, addr, s.memRead addr⟩] ∧
      t.requesters = s.requesters ∧ t.err = s.err ∧ SameSession s t ∧ SameTeardown s t ∧ SameLine s t ∧
      SameTrain s t ∧ SameBase s t := by
  refine ⟨(s.memReadTaken addr).logRead addr (s.memRead addr), rfl, by simp, by simp, by simp, ?session, ?teardown, ?line,
    ?train, ?base⟩
  all_goals constructor <;> simp

end Sys2Proof.Machine

section ReadSpace

open Sys2Proof Sys2Proof.Machine

/-- Settles O21: a register's word is the one read at its own address, and from word index 6 on the train and the unmapped ranges
divide the space. -/
theorem readSpaceFollowsTheMap : Obligations.ReadSpaceFollowsTheMap := by
  intro s addr
  refine ⟨fun h => ?status, fun h => ?frames, fun h => ?unit, fun h => ?sync, fun h => ?zero, fun h => ?one,
    fun i v h hi hv => ?written, fun i v h hi hv => ?unwritten, s.memRead_unmapped, exec_read s addr⟩
  case status => exact (s.memRead_congr h).trans s.memRead_status
  case frames => exact (s.memRead_congr h).trans s.memRead_frames
  case unit => exact (s.memRead_congr h).trans s.memRead_cfgUnit
  case sync => exact ((s.memRead_congr h).trans s.memRead_cfgSync).trans (symbolWord_eq_append _)
  case zero => exact ((s.memRead_congr h).trans s.memRead_cfgZero).trans (symbolWord_eq_append _)
  case one => exact ((s.memRead_congr h).trans s.memRead_cfgOne).trans (symbolWord_eq_append _)
  case written => exact (s.memRead_train h hi).trans (s.trainValue_written i v hv).1
  case unwritten =>
    obtain ⟨e, he⟩ := s.exists_trainValue_eq v hv
    exact ⟨e, (State.memRead_train _ h hi).trans he⟩

end ReadSpace
end

section
/-! SUPPORT and THEOREMS. The decoder of command words (spec/30_encoding.md R59 to R66): which words match a row of the opcode map,
what each row decodes to, which words are invalid, and the statements about the map, its examples and invalid commands. -/

namespace Sys2Proof

/-! ### The rows of the opcode map (R62) -/

/-- The mask keeps the opcode and the reserved bits, each in its place, and clears the other fields. -/
theorem and_rowMask (c : CmdWord) :
    c &&& rowMask = (rsv1Field c).setWidth 64 <<< 14 ||| (rsv0Field c).setWidth 64 <<< 4 ||| (opField c).setWidth 64 := by
  unfold rowMask rsv1Field rsv0Field opField
  ext i hi
  interval_cases i <;> simp

/-- A bit range that the mask covers reads the same through the mask. -/
theorem extractLsb'_and_rowMask {k w : Nat} (c : CmdWord) (h : rowMask.extractLsb' k w = BitVec.allOnes w) :
    (c &&& rowMask).extractLsb' k w = c.extractLsb' k w := by
  rw [BitVec.extractLsb'_and, h, BitVec.and_allOnes]

/-- A word matches the row of an opcode exactly when it has that opcode and its reserved bits are 0. -/
theorem matchesRow_iff {n : Nat} {c : CmdWord} (hn : n < 16) :
    matchesRow n c = true ↔ (opField c).toNat = n ∧ rsv0Field c = 0#4 ∧ rsv1Field c = 0#2 := by
  rw [matchesRow, beq_iff_eq]
  constructor
  · intro h
    have hfield : ∀ k w, rowMask.extractLsb' k w = BitVec.allOnes w →
        c.extractLsb' k w = (BitVec.ofNat 64 n).extractLsb' k w :=
      fun k w hmask => by rw [← h, extractLsb'_and_rowMask c hmask]
    rw [opField, rsv0Field, rsv1Field, hfield 0 4 rfl, hfield 4 4 rfl, hfield 14 2 rfl]
    interval_cases n <;> decide
  · rintro ⟨rfl, h0, h1⟩
    simp [and_rowMask, h0, h1]

/-- A word of a row passes the check of the reserved bits, and the opcode map reads it at the number of the row. -/
theorem decodeCommand_of_matchesRow {n : Nat} {c : CmdWord} (hn : n < 16) (h : matchesRow n c = true) :
    decodeCommand c = decodeOpcode c ∧ (opField c).toNat = n := by
  obtain ⟨hop, h0, h1⟩ := (matchesRow_iff hn).mp h
  exact ⟨if_pos ⟨h0, h1⟩, hop⟩

section Rows

variable {c : CmdWord}

theorem decodeCommand_claimRow (h : matchesRow 1 c = true) : decodeCommand c = .ok .claim := by
  obtain ⟨hdec, hop⟩ := decodeCommand_of_matchesRow (by decide) h
  simp only [hdec, decodeOpcode, hop]

theorem decodeCommand_encodeRow (h : matchesRow 2 c = true) :
    decodeCommand c = .ok (.encode (messageField c) (bitsField c)) := by
  obtain ⟨hdec, hop⟩ := decodeCommand_of_matchesRow (by decide) h
  simp only [hdec, decodeOpcode, hop]

theorem decodeCommand_transmitRow (h : matchesRow 3 c = true) : decodeCommand c = .ok (.transmit (repeatField c)) := by
  obtain ⟨hdec, hop⟩ := decodeCommand_of_matchesRow (by decide) h
  simp only [hdec, decodeOpcode, hop]

theorem decodeCommand_sendRow (h : matchesRow 4 c = true) :
    decodeCommand c = .ok (.send (messageField c) (bitsField c) (repeatField c)) := by
  obtain ⟨hdec, hop⟩ := decodeCommand_of_matchesRow (by decide) h
  simp only [hdec, decodeOpcode, hop]

theorem decodeCommand_teardownRow (h : matchesRow 5 c = true) : decodeCommand c = .ok .teardown := by
  obtain ⟨hdec, hop⟩ := decodeCommand_of_matchesRow (by decide) h
  simp only [hdec, decodeOpcode, hop]

end Rows

/-! ### Invalid words (R65) -/

/-- R65: the opcode is 0x0 or 0x6 to 0xF, or a reserved bit is nonzero. -/
def InvalidWord (c : CmdWord) : Prop :=
  (opField c = 0#4 ∨ 6 ≤ (opField c).toNat) ∨ rsv0Field c ≠ 0#4 ∨ rsv1Field c ≠ 0#2

theorem opField_eq_zero_iff (c : CmdWord) : opField c = 0#4 ↔ (opField c).toNat = 0 :=
  (BitVec.toNat_inj (y := 0#4)).symm

/-- The words that match no row are exactly the invalid ones. -/
theorem no_row_iff_invalidWord (c : CmdWord) :
    (∀ n, 1 ≤ n → n ≤ 5 → matchesRow n c = false) ↔ InvalidWord c := by
  rw [InvalidWord, opField_eq_zero_iff]
  constructor
  · intro hnone
    by_contra hvalid
    push Not at hvalid
    obtain ⟨⟨hne, hlt⟩, h0, h1⟩ := hvalid
    have hrow : matchesRow (opField c).toNat c = true := (matchesRow_iff (opField c).isLt).mpr ⟨rfl, h0, h1⟩
    rw [hnone _ (Nat.one_le_iff_ne_zero.mpr hne) (Nat.le_of_lt_succ hlt)] at hrow
    exact Bool.false_ne_true hrow
  · intro hinvalid n hlow hhigh
    rw [Bool.eq_false_iff, Ne, matchesRow_iff (by omega)]
    rintro ⟨hop, h0, h1⟩
    obtain (hz | hge) | hr | hr := hinvalid
    · omega
    · omega
    · exact hr h0
    · exact hr h1

/-- The opcode map has no row for the reserved opcodes. -/
theorem decodeOpcode_reserved {c : CmdWord} (h : opField c = 0#4 ∨ 6 ≤ (opField c).toNat) :
    decodeOpcode c = .error (.reservedOpcode (opField c)) := by
  rw [opField_eq_zero_iff] at h
  unfold decodeOpcode
  split
  case h_6 => rfl
  all_goals exfalso; omega

/-- The decoder rejects every invalid word: for its reserved bits first, else for its opcode. -/
theorem InvalidWord.decodeCommand_error {c : CmdWord} (h : InvalidWord c) : ∃ e, decodeCommand c = .error e := by
  by_cases hr : rsv0Field c = 0#4 ∧ rsv1Field c = 0#2
  · have hop : opField c = 0#4 ∨ 6 ≤ (opField c).toNat :=
      h.resolve_right fun hne => hne.elim (· hr.1) (· hr.2)
    exact ⟨_, (if_pos hr).trans (decodeOpcode_reserved hop)⟩
  · exact ⟨_, if_neg hr⟩

namespace Machine

/-- No invalid word is a TEARDOWN. -/
theorem wfTeardown_of_invalidWord {c : CmdWord} (h : InvalidWord c) : wfTeardown c = false := by
  obtain ⟨e, he⟩ := h.decodeCommand_error
  simp [Bool.eq_false_iff, wfTeardown_iff, he]

/-- An invalid word is accepted as any non-TEARDOWN command is: in IDLE with no pending teardown (R63). -/
theorem State.ready_invalid_iff (s : State) {c : CmdWord} (h : InvalidWord c) :
    s.ready c = true ↔ s.st = .idle ∧ s.tdPending = false := by
  simp [s.ready_iff, wfTeardown_of_invalidWord h, and_comm]

/-- `execute(c, h)` of an invalid word is `execute_invalid(c, h)`: it completes with INVALID_ARGUMENT. -/
theorem runCommand_invalid (s : State) {c : CmdWord} (h : InvalidWord c) :
    runCommand c s = .next (s.complete .invalidArgument) := by
  obtain ⟨e, he⟩ := h.decodeCommand_error
  simp only [runCommand, decode, he, execInvalid]

end Machine

end Sys2Proof

section Encoding

open Sys2Proof Sys2Proof.Machine

/-- Settles O2: a row decodes to its command, and the words without a row are the invalid ones, which the decoder rejects. -/
theorem decoderFollowsOpcodeMap : Obligations.DecoderFollowsOpcodeMap := fun c =>
  ⟨decodeCommand_claimRow, decodeCommand_encodeRow, decodeCommand_transmitRow, decodeCommand_sendRow,
    decodeCommand_teardownRow, no_row_iff_invalidWord c,
    fun hnone => ((no_row_iff_invalidWord c).mp hnone).decodeCommand_error⟩

/-- Settles O3: the encoder is evaluated on each example; each encoded word matches its row, whose fields are then read off it, and
the last word has a nonzero reserved bit. -/
theorem encodingExamplesAgree : Obligations.EncodingExamplesAgree :=
  ⟨by decide, by decide, by decide, by decide, by decide, by decide,
    decodeCommand_claimRow (by decide), decodeCommand_teardownRow (by decide), decodeCommand_encodeRow (by decide),
    decodeCommand_transmitRow (by decide), decodeCommand_sendRow (by decide), decodeCommand_sendRow (by decide),
    InvalidWord.decodeCommand_error (.inr (.inl (by decide)))⟩

/-- Settles O11: an invalid word is never a TEARDOWN, and its execution is one completion with INVALID_ARGUMENT. -/
theorem invalidCommandIsAnswered : Obligations.InvalidCommandIsAnswered := fun _ s hinvalid =>
  ⟨s.ready_invalid_iff hinvalid, s.complete .invalidArgument, runCommand_invalid s hinvalid,
    s.complete_onlyAnswered .invalidArgument, rfl⟩

end Encoding
end

section
/-! SUPPORT and THEOREMS. The pulse encoder (spec/40_encoder.md R71, R72): the symbol durations, the layout of an encoded train, and
the two statements about them. -/

namespace Sys2Proof

theorem Symbol.valid_iff (y : Symbol) : y.valid = true ↔ 1 ≤ y.high.toNat ∧ 1 ≤ y.low.toNat := by
  simp [Symbol.valid]

theorem Table.valid_iff (t : Table) :
    t.valid = true ↔ 1 ≤ t.unit.toNat ∧ t.sync.valid = true ∧ t.zero.valid = true ∧ t.one.valid = true := by
  simp [Table.valid, and_assoc]

namespace Machine

/-! ### Symbol durations (R71) -/

/-- The product of two zero-extended 16-bit counts does not wrap: it is at most `(2^16 - 1)^2`, below `2^32`. -/
theorem toNat_setWidth_mul_setWidth (x y : BitVec 16) :
    (x.setWidth 32 * y.setWidth 32).toNat = x.toNat * y.toNat := by
  have hbound : x.toNat * y.toNat < 2 ^ 16 * 2 ^ 16 := Nat.mul_lt_mul'' x.isLt y.isLt
  rw [BitVec.toNat_mul, BitVec.toNat_setWidth_of_le (by decide), BitVec.toNat_setWidth_of_le (by decide)]
  exact Nat.mod_eq_of_lt hbound

theorem hiUs_toNat (t : Table) (y : Symbol) : (hiUs t y).toNat = y.high.toNat * t.unit.toNat :=
  toNat_setWidth_mul_setWidth y.high t.unit

theorem loUs_toNat (t : Table) (y : Symbol) : (loUs t y).toNat = y.low.toNat * t.unit.toNat :=
  toNat_setWidth_mul_setWidth y.low t.unit

/-- With a unit and counts of at least 1, both durations of a symbol are at least 1. -/
theorem one_le_durations {t : Table} {y : Symbol} (hunit : 1 ≤ t.unit.toNat) (hy : y.valid = true) :
    1 ≤ (hiUs t y).toNat ∧ 1 ≤ (loUs t y).toNat := by
  obtain ⟨hhigh, hlow⟩ := y.valid_iff.mp hy
  rw [hiUs_toNat, loUs_toNat]
  exact ⟨Nat.mul_pos hhigh hunit, Nat.mul_pos hlow hunit⟩

/-! ### The layout of a train (R72) -/

theorem symbolOf_eq_ite (t : Table) (m : BitVec 32) (k : Nat) :
    symbolOf t m k = if m.getLsbD k then t.one else t.zero := Bool.cond_eq_ite ..

/-- A train of no bits is the sync HIGH alone. -/
theorem encodeTrain_zero (t : Table) (m : BitVec 32) : encodeTrain t m 0 = [hiUs t t.sync] := rfl

/-- A train of `n + 1` bits sends bit `n` and then the train of the `n` bits below it. -/
theorem encodeTrain_succ (t : Table) (m : BitVec 32) (n : Nat) :
    encodeTrain t m (n + 1) = hiUs t (symbolOf t m n) :: loUs t (symbolOf t m n) :: encodeTrain t m n := rfl

/-- The train of the low `k` bits is what remains of a longer train after two entries for each bit above them. -/
theorem encodeTrain_drop (t : Table) (m : BitVec 32) {k n : Nat} (h : k ≤ n) :
    (encodeTrain t m n).drop (2 * (n - k)) = encodeTrain t m k := by
  induction n, h using Nat.le_induction with
  | base => simp
  | succ n hkn ih =>
    have hskip : 2 * (n + 1 - k) = 2 * (n - k) + 2 := by omega
    rw [hskip, encodeTrain_succ, List.drop_succ_cons, List.drop_succ_cons, ih]

/-- From the place of bit `k` on, the train reads as the train of the low `k + 1` bits. -/
theorem encodeTrain_getElem?_at_bit (t : Table) (m : BitVec 32) {k n : Nat} (h : k < n) (j : Nat) :
    (encodeTrain t m n)[2 * (n - 1 - k) + j]? = (encodeTrain t m (k + 1))[j]? := by
  rw [← encodeTrain_drop t m h, List.getElem?_drop, Nat.sub_sub, Nat.add_comm 1 k]

theorem encodeTrain_getElem?_hi (t : Table) (m : BitVec 32) {k n : Nat} (h : k < n) :
    (encodeTrain t m n)[2 * (n - 1 - k)]? = some (hiUs t (symbolOf t m k)) :=
  encodeTrain_getElem?_at_bit t m h 0

theorem encodeTrain_getElem?_lo (t : Table) (m : BitVec 32) {k n : Nat} (h : k < n) :
    (encodeTrain t m n)[2 * (n - 1 - k) + 1]? = some (loUs t (symbolOf t m k)) :=
  encodeTrain_getElem?_at_bit t m h 1

theorem encodeTrain_getElem?_sync (t : Table) (m : BitVec 32) (n : Nat) :
    (encodeTrain t m n)[2 * n]? = some (hiUs t t.sync) := by
  have hlast := congrArg (·[0]?) (encodeTrain_drop t m n.zero_le)
  simpa [List.getElem?_drop, encodeTrain_zero] using hlast

/-- Message bits at and above the width have no effect on the train. -/
theorem encodeTrain_congr (t : Table) {a b : BitVec 32} {n : Nat} (h : ∀ k, k < n → a.getLsbD k = b.getLsbD k) :
    encodeTrain t a n = encodeTrain t b n := by
  induction n with
  | zero => rfl
  | succ n ih =>
    have hsymbol : symbolOf t a n = symbolOf t b n := by rw [symbolOf, symbolOf, h n n.lt_succ_self]
    rw [encodeTrain_succ, encodeTrain_succ, hsymbol, ih fun k hk => h k (Nat.lt_succ_of_lt hk)]

end Machine

end Sys2Proof

section Encoder

open Sys2Proof Sys2Proof.Machine

/-- Settles O28: the entries of bit `k` are the first two of the suffix for the low `k + 1` bits, the sync HIGH is the suffix for no
bits, and the train reads only the message bits below its width. -/
theorem encodedTrainHasItsLayout : Obligations.EncodedTrainHasItsLayout := by
  intro t message bits _ _
  refine ⟨encodeTrain_length t message bits, fun k hk => ?_, encodeTrain_getElem?_sync t message bits,
    fun _ => encodeTrain_congr t⟩
  rw [← symbolOf_eq_ite]
  exact ⟨encodeTrain_getElem?_hi t message hk, encodeTrain_getElem?_lo t message hk⟩

/-- Settles O27: the products do not wrap, a valid TABLE has no factor 0, and the default TABLE is evaluated. -/
theorem symbolDurationsAreExact : Obligations.SymbolDurationsAreExact := by
  refine ⟨fun t y => ⟨hiUs_toNat t y, loUs_toNat t y⟩, fun t ht y hy => ?_, by decide⟩
  obtain ⟨hunit, hsync, hzero, hone⟩ := t.valid_iff.mp ht
  obtain rfl | rfl | rfl := hy
  · exact one_le_durations hunit hsync
  · exact one_le_durations hunit hzero
  · exact one_le_durations hunit hone

end Encoder
end

section
/-! SUPPORT and THEOREMS. The scheduler (spec/41_scheduler.md R79, R82 to R84, R86): the start of a frame and the steps that make
one, the sequencer's step in each of its branches, what a step can do while a frame plays, and the statements about them. -/

namespace Sys2Proof.Machine

/-! ### The start of a frame (R79) -/

/-- A frame start from a state `u` that still has the line, the time and the gap of `s` is a frame start of `s`. -/
theorem frameStarted_of_beginFrame {s u : State} (hclaimed : s.claimed = true) (hline : SameLine s u)
    (hnow : u.now = s.now) (hgap : u.gapEnd = s.gapEnd) : FrameStarted s u.beginFrame := by
  constructor <;> simp [hline.claimed, hline.history, hclaimed, hnow, hgap]

/-- The start of a session ends in a frame start (R78). -/
theorem State.startSession_eq_beginFrame (s : State) (r : BitVec 16) (h : Nat) :
    s.startSession r h =
      State.beginFrame { s with repeatTotal := r, framesDone := 0#16, sessOwner := h, err := .ok } := rfl

/-- A command that enters FRAME starts a session on a claimed line, and so a frame (R80, R81). -/
theorem exec_enters_frame {i : Instr} {s t : State} (hi : ∀ a, i ≠ .read a) (h : exec i s = .next t)
    (hs : s.st ≠ .frame) (ht : t.st = .frame) :
    s.claimed = true ∧ ∃ u, t = u.beginFrame ∧ SameLine s u ∧ u.now = s.now ∧ u.gapEnd = s.gapEnd := by
  obtain ⟨c, -, rfl⟩ | ⟨-, -, rfl | rfl⟩ | ⟨m, b, -, -, rfl⟩ | ⟨r, -, -, -, hclaimed, rfl⟩ |
    ⟨m, b, r, -, -, -, -, hclaimed, rfl⟩ | ⟨-, rfl⟩ := exec_command_cases i s t hi h
  case inr.inr.inr.inl =>
    exact ⟨hclaimed, _, s.startSession_eq_beginFrame r _, ⟨rfl, rfl, rfl⟩, rfl, rfl⟩
  case inr.inr.inr.inr.inl =>
    exact ⟨hclaimed, _, (s.encodeStep m b).startSession_eq_beginFrame r _, ⟨rfl, rfl, rfl⟩, rfl, rfl⟩
  all_goals exact absurd ht (by simpa using hs)

/-- The sequencer enters FRAME from GAP only, by a frame start (R84). -/
theorem State.sequencerStep_enters_frame {s : State} (hs : s.st ≠ .frame) (ht : s.sequencerStep.st = .frame) :
    s.st = .gap ∧ s.sequencerStep = s.beginFrame := by
  obtain ⟨hen, -⟩ | ⟨hen, -⟩ | ⟨hen, -, h⟩ | ⟨-, -, h⟩ | ⟨-, h⟩ | ⟨-, -, -, -, h⟩ := s.sequencerStep_cases
  case inl => exact absurd (s.toggleEnabled_iff.mp hen).1 hs
  case inr.inl => exact absurd (s.frameEndEnabled_iff.mp hen).1 hs
  case inr.inr.inl => exact ⟨(s.gapEndEnabled_iff.mp hen).1, h⟩
  case inr.inr.inr.inl => simp [h] at ht
  case inr.inr.inr.inr.inl =>
    cases hst : s.st <;> simp [h, hst] at ht hs
  case inr.inr.inr.inr.inr => exact absurd (h ▸ ht) hs

/-- Every step that enters FRAME is a frame start: of a session's first frame in a command, or of a later one in GAP_END. -/
theorem step_enters_frame {s t : State} (hinv : SessionInv s) (h : step s = .next t) (hs : s.st ≠ .frame)
    (ht : t.st = .frame) : FrameStarted s t := by
  obtain ⟨k, c, -, rfl⟩ | ⟨k, -, -, rfl⟩ | ⟨k, c, i, -, -, -, hdecode, hexec⟩ | ⟨k, c, e, -, -, -, -, rfl⟩ |
    ⟨k, a, -, -, rfl⟩ | ⟨k, a, -, -, rfl⟩ | ⟨-, rfl⟩ | ⟨-, rfl⟩ | ⟨-, rfl⟩ := step_cases s t h
  case inr.inr.inl =>
    have hread : ∀ a, i ≠ .read a := fun a ha => decodeCommand_ne_read c a (ha ▸ hdecode)
    obtain ⟨hclaimed, u, rfl, hline, hnow, hgap⟩ := exec_enters_frame hread hexec hs ht
    exact frameStarted_of_beginFrame hclaimed ⟨hline.claimed, hline.level, hline.history⟩ hnow hgap
  case inr.inr.inr.inr.inr.inr.inl =>
    obtain ⟨hgap, hstep⟩ := State.sequencerStep_enters_frame (s := s.takeTurn) hs ht
    have hbusy : s.st ≠ .idle := by simp [show s.st = .gap from hgap]
    rw [hstep]
    exact frameStarted_of_beginFrame (hinv.busy hbusy).1 ⟨rfl, rfl, rfl⟩ rfl rfl
  all_goals exact absurd ht (by simp [hs])

/-! ### The sequencer's step, branch by branch (R82 to R84) -/

section Branches

variable {s : State} {rest : List Turn}

/-- The turn of the sequencer takes the step that is enabled. -/
theorem step_sequence (h : s.env.agenda = .sequence :: rest) : step s = .next s.takeTurn.sequencerStep := by
  simp [step, State.nextTurn, h, runTurn]

/-- R104: at the end of the train only the end branch of FRAME_POLL is enabled. -/
theorem State.toggleEnabled_eq_false_of_frameEndEnabled (h : s.frameEndEnabled = true) : s.toggleEnabled = false := by
  obtain ⟨-, -, hend⟩ := s.frameEndEnabled_iff.mp h
  rw [Bool.eq_false_iff, Ne, s.toggleEnabled_iff, hend]
  exact fun ⟨_, _, hlt⟩ => Nat.lt_irrefl _ hlt

/-- In GAP no branch of FRAME_POLL is enabled. -/
theorem State.framePoll_disabled_in_gap (h : s.st = .gap) : s.toggleEnabled = false ∧ s.frameEndEnabled = false := by
  simp [State.toggleEnabled, State.frameEndEnabled, h]

theorem step_toggle (hagenda : s.env.agenda = .sequence :: rest) (h : s.toggleEnabled = true) :
    step s = .next s.takeTurn.framePollToggle := by
  have hen : s.takeTurn.toggleEnabled = true := h
  rw [step_sequence hagenda, State.sequencerStep, hen, cond_true]

theorem step_frameEnd (hagenda : s.env.agenda = .sequence :: rest) (h : s.frameEndEnabled = true) :
    step s = .next s.takeTurn.framePollEnd := by
  have hen : s.takeTurn.frameEndEnabled = true := h
  rw [step_sequence hagenda, State.sequencerStep, State.toggleEnabled_eq_false_of_frameEndEnabled hen, hen,
    cond_false, cond_true]

/-- The turn of the sequencer at the end of a gap. The frames that are left decide between the next frame and the session's end. -/
theorem step_gapEnd (hagenda : s.env.agenda = .sequence :: rest) (h : s.gapEndEnabled = true) :
    step s = .next s.takeTurn.gapEndStep := by
  have hen : s.takeTurn.gapEndEnabled = true := h
  obtain ⟨htoggle, hend⟩ := State.framePoll_disabled_in_gap (s.takeTurn.gapEndEnabled_iff.mp hen).1
  rw [step_sequence hagenda, State.sequencerStep, htoggle, hend, hen, cond_false, cond_false, cond_true]

theorem step_gapEnd_of_framesLeft (hagenda : s.env.agenda = .sequence :: rest) (h : s.gapEndEnabled = true)
    (hleft : s.framesDone.toNat < s.repeatTotal.toNat) : step s = .next s.takeTurn.beginFrame := by
  rw [step_gapEnd hagenda h, State.gapEndStep, s.takeTurn.framesLeft_eq_true.mpr hleft, cond_true]

theorem step_gapEnd_of_framesDone (hagenda : s.env.agenda = .sequence :: rest) (h : s.gapEndEnabled = true)
    (hdone : s.repeatTotal.toNat ≤ s.framesDone.toNat) : step s = .next (s.takeTurn.endSession .ok) := by
  rw [step_gapEnd hagenda h, State.gapEndStep, s.takeTurn.framesLeft_eq_false.mpr hdone, cond_false]

end Branches

/-- A toggle whose entry is written takes no draw: it writes the line and moves on by one entry (R82). -/
theorem State.framePollToggle_of_written {s : State} {v : Datum} (hv : s.train.entry? s.idx.toNat = some v) :
    s.framePollToggle =
      { s.lineWrite s.nextLevel with
        deadline := s.deadline + v.toNat, idx := s.idx + 1#7, nextLevel := s.nextLevel.flip } := by
  obtain ⟨hvalue, htaken⟩ := s.trainValue_written _ v hv
  simp only [State.framePollToggle, hvalue, htaken]

/-- In a frame whose train is not used up, FRAME_POLL is enabled from the deadline on, in one branch or the other (R82, R83). -/
theorem State.framePoll_enabled {s : State} (hst : s.st = .frame) (hdue : s.deadline ≤ s.now)
    (hidx : s.idx.toNat ≤ s.trainLen.toNat) : s.toggleEnabled = true ∨ s.frameEndEnabled = true := by
  rw [s.toggleEnabled_iff, s.frameEndEnabled_iff]
  obtain hlt | heq := Nat.lt_or_eq_of_le hidx
  · exact .inl ⟨hst, hdue, hlt⟩
  · exact .inr ⟨hst, hdue, BitVec.eq_of_toNat_eq heq⟩

/-- A counter below a bound of its own width counts on without wrapping. -/
theorem toNat_add_one_of_lt {w : Nat} {x y : BitVec w} (h : x.toNat < y.toNat) : (x + 1#w).toNat = x.toNat + 1 := by
  rw [BitVec.toNat_add, BitVec.toNat_ofNat, Nat.add_mod_mod]
  exact Nat.mod_eq_of_lt (Nat.lt_of_le_of_lt h y.isLt)

/-- Every jitter of the range can be the next draw: the environment that holds it as its next one draws it (R83). -/
theorem State.exists_jitterDraw_eq (s : State) {j : Nat} (h : j ≤ s.cfg.gapJitterMax) :
    ∃ e, e.agenda = s.env.agenda ∧ ({ s with env := e } : State).takeTurn.jitterDraw = j := by
  refine ⟨{ s.env with jitters := [j] }, rfl, ?_⟩
  exact Nat.mod_eq_of_lt (Nat.lt_succ_of_le h)

/-- The gap that the end branch opens, in the counts of the TABLE (R11, R83). -/
theorem State.framePollEnd_gapEnd_eq (s : State) :
    s.framePollEnd.gapEnd = s.now + s.cfg.table.sync.low.toNat * s.cfg.table.unit.toNat + s.jitterDraw := by
  rw [s.framePollEnd_gapEnd, syncLowUs, loUs_toNat]

/-- The end of a session is one response to its owner (R84). -/
theorem State.endSession_responded (s : State) (c : ResultCode) : Responded s (s.endSession c) s.sessOwner c where
  owner := (s.requesterAt_modify _ _ _).trans (if_pos rfl)
  others := fun _ hk => (s.requesterAt_modify _ _ _).trans (if_neg fun h => hk h.symm)
  reads := rfl

/-! ### What a step can do while a frame plays (R86) -/

/-- In a frame only a TEARDOWN is ready (R63). -/
theorem State.wfTeardown_of_ready_in_frame {s : State} {c : CmdWord} (hst : s.st = .frame) (h : s.ready c = true) :
    wfTeardown c = true :=
  (s.ready_iff c |>.mp h).2.resolve_right fun hidle => by simp [hst] at hidle

/-- The state in which the TEARDOWN of requester `h` has been accepted: its marks are set, and its effect is still to come (R96). -/
def State.teardownAccepted (s : State) (h : Nat) : State := { s.beginAccept h with tdPending := true, tdOwner := h }

theorem exec_teardown_beginAccept (s : State) (h : Nat) :
    exec .teardown (s.beginAccept h) = .next (s.teardownAccepted h) := rfl

/-- ACCEPT(h) of a command that is not ready: the command is held (R63). -/
theorem step_accept_held {s : State} {h : Nat} {c : CmdWord} (hturn : s.nextTurn = .accept h)
    (hpending : s.pendingOf h = some c) (hready : s.ready c = false) : step s = .next s.takeTurn := by
  have hp : s.takeTurn.pendingOf h = some c := hpending
  have hr : s.takeTurn.ready c = false := hready
  simp only [step, hturn, runTurn, acceptCommand, hp, hr, cond_false]

/-- ACCEPT(h) of a TEARDOWN while none is pending sets its marks (R63, R96). -/
theorem step_accept_teardown {s : State} {h : Nat} {c : CmdWord} (hturn : s.nextTurn = .accept h)
    (hpending : s.pendingOf h = some c) (hwf : wfTeardown c = true) (htd : s.tdPending = false) :
    step s = .next (s.takeTurn.teardownAccepted h) := by
  have hp : s.takeTurn.pendingOf h = some c := hpending
  have hr : s.takeTurn.ready c = true := (State.ready_iff _ c).mpr ⟨htd, .inl hwf⟩
  have hdecode : decodeCommand c = .ok .teardown := (wfTeardown_iff c).mp hwf
  simp only [step, hturn, runTurn, acceptCommand, hp, hr, cond_true, runCommand, decode, hdecode,
    exec_teardown_beginAccept]

/-- What a step can do while a frame plays, reset and the sequencer apart: a requester presents, a turn passes, a TEARDOWN is
accepted, a read is answered, or the time advances. -/
theorem step_in_frame_cases {s t : State} (hst : s.st = .frame) (h : step s = .next t) (hreset : s.nextTurn ≠ .reset)
    (hseq : s.nextTurn ≠ .sequence) :
    (∃ k c, t = s.takeTurn.present k c) ∨ t = s.takeTurn ∨ (∃ k, t = s.takeTurn.teardownAccepted k) ∨
    (∃ k a, t = ((s.takeTurn.serve k).memReadTaken a).logRead a ((s.takeTurn.serve k).memRead a)) ∨
    t = s.takeTurn.tick := by
  obtain ⟨k, c, -, ht⟩ | ⟨k, -, -, ht⟩ | ⟨k, c, i, -, -, hready, hdecode, hexec⟩ | ⟨k, c, e, -, -, hready, hdecode, -⟩ |
    ⟨k, a, -, -, ht⟩ | ⟨k, a, -, -, ht⟩ | ⟨hturn, -⟩ | ⟨-, ht⟩ | ⟨hturn, -⟩ := step_cases s t h
  · exact .inl ⟨k, c, ht⟩
  · exact .inr (.inl ht)
  · have hteardown := (wfTeardown_iff c).mp (State.wfTeardown_of_ready_in_frame hst hready)
    obtain rfl : i = .teardown := Except.ok.inj (hdecode.symm.trans hteardown)
    rw [exec_teardown_beginAccept, Host.Outcome.next.injEq] at hexec
    exact .inr (.inr (.inl ⟨k, hexec.symm⟩))
  · have hteardown := (wfTeardown_iff c).mp (State.wfTeardown_of_ready_in_frame hst hready)
    simp [hteardown] at hdecode
  · exact .inr (.inl ht)
  · exact .inr (.inr (.inr (.inl ⟨k, a, ht⟩)))
  · exact absurd hturn hseq
  · exact .inr (.inr (.inr (.inr ht)))
  · exact absurd hturn hreset

/-- While a frame plays, only the sequencer and reset write the line, the session or the train. -/
theorem step_in_frame_keeps_session {s t : State} (hst : s.st = .frame) (h : step s = .next t)
    (hreset : s.nextTurn ≠ .reset) (hseq : s.nextTurn ≠ .sequence) : SameLine s t ∧ SameSession s t ∧ SameTrain s t := by
  obtain ⟨k, c, rfl⟩ | rfl | ⟨k, rfl⟩ | ⟨k, a, rfl⟩ | rfl := step_in_frame_cases hst h hreset hseq
  case inr.inr.inl => exact ⟨⟨rfl, rfl, rfl⟩, ⟨rfl, rfl, rfl, rfl, rfl, rfl, rfl, rfl, rfl⟩, ⟨fun _ => rfl, rfl⟩⟩
  all_goals exact ⟨by constructor <;> simp, by constructor <;> simp, by constructor <;> simp⟩

/-- The acceptance of a TEARDOWN empties the port of its requester, which then waits, and leaves the others as they are. -/
theorem State.requesterAt_teardownAccepted (s : State) (h k : Nat) :
    (s.teardownAccepted h).requesterAt k =
      if h = k then (s.requesterAt k).map Requester.accepted else s.requesterAt k :=
  s.requesterAt_modify h k Requester.accepted

end Sys2Proof.Machine

section Scheduler

open Sys2Proof Sys2Proof.Machine

/-- Settles O31: the frame start is read off its fields, and a step that enters FRAME is a session's start or a GAP_END. -/
theorem frameStartForcesLow : Obligations.FrameStartForcesLow := by
  refine ⟨fun s hclaimed => ?_, fun s t => step_enters_frame⟩
  exact ⟨frameStarted_of_beginFrame hclaimed ⟨rfl, rfl, rfl⟩ rfl rfl, rfl, rfl, rfl, rfl, rfl, ⟨rfl, rfl⟩,
    ⟨fun _ => rfl, rfl⟩, ⟨rfl, rfl⟩, ⟨fun _ => rfl, rfl⟩⟩

/-- Settles O32: the step is the toggle branch, whose entry is written, so that it takes no draw; the index does not wrap because it
is below the train's length. -/
theorem framePollWritesTheNextLevel : Obligations.FramePollWritesTheNextLevel := by
  refine ⟨State.toggleEnabled_iff, fun s rest v hagenda hclaimed hst hdue hidx hv => ?_⟩
  have hnext : (s.idx + 1#7).toNat = s.idx.toNat + 1 := toNat_add_one_of_lt hidx
  have hstep := step_toggle hagenda (s.toggleEnabled_iff.mpr ⟨hst, hdue, hidx⟩)
  rw [State.framePollToggle_of_written (s := s.takeTurn) hv] at hstep
  exact ⟨_, hstep, by simp [hclaimed], by simp [hclaimed], rfl, hnext, rfl, hst, hclaimed, rfl, rfl, rfl, rfl, rfl, rfl,
    ⟨rfl, rfl⟩, ⟨fun _ => rfl, rfl⟩, ⟨rfl, rfl⟩, ⟨fun _ => rfl, rfl⟩,
    fun hlate => State.framePoll_enabled hst hlate (hnext.trans_le hidx)⟩

/-- Settles O33: the step is the end branch; the frame counter does not wrap because it is below the repeat count, and an environment
that holds `j` as its next jitter draws it. -/
theorem frameEndOpensTheGap : Obligations.FrameEndOpensTheGap := by
  refine ⟨State.frameEndEnabled_iff, fun s rest hagenda hclaimed hst hdue hidx hframes => ?_⟩
  have hen : s.frameEndEnabled = true := s.frameEndEnabled_iff.mpr ⟨hst, hdue, hidx⟩
  refine ⟨?opens, fun j hj => ?draws⟩
  case opens =>
    refine ⟨_, s.takeTurn.jitterDraw, step_frameEnd hagenda hen, s.takeTurn.jitterDraw_le, rfl, by simp [hclaimed],
      by simp [hclaimed], toNat_add_one_of_lt hframes, s.takeTurn.framePollEnd_gapEnd_eq, rfl, rfl, rfl, rfl, rfl, rfl,
      hclaimed, rfl, ⟨rfl, rfl⟩, ⟨fun _ => rfl, rfl⟩, ⟨rfl, rfl⟩, ⟨fun _ => rfl, rfl⟩, fun htd => ?_⟩
    exact (State.teardownApplyEnabled_iff _).mpr ⟨htd, by simp⟩
  case draws =>
    obtain ⟨e, he, hdraw⟩ := s.exists_jitterDraw_eq hj
    have hagenda' : e.agenda = .sequence :: rest := he.trans hagenda
    refine ⟨e, _, hagenda', step_frameEnd (s := { s with env := e }) hagenda' hen, ?_⟩
    rw [State.framePollEnd_gapEnd_eq, hdraw]
    rfl

/-- Settles O34: while frames are left the step is a frame start, whose line is claimed because a session is active; else it ends the
session, and the line is LOW because it is so in every gap. -/
theorem gapEndStartsTheNextFrameOrEndsTheSession : Obligations.GapEndStartsTheNextFrameOrEndsTheSession := by
  refine ⟨State.gapEndEnabled_iff, fun s rest hinv hagenda hst hdue htd => ?_⟩
  have hbusy : s.st ≠ .idle := by simp [hst]
  have hclaimed : s.claimed = true := (hinv.busy hbusy).1
  have hlow : s.level = .low := hinv.quiet (by simp [hst])
  have hen : s.gapEndEnabled = true := s.gapEndEnabled_iff.mpr ⟨hst, hdue, htd⟩
  obtain hleft | hdone := Nat.lt_or_ge s.framesDone.toNat s.repeatTotal.toNat
  · exact ⟨_, step_gapEnd_of_framesLeft hagenda hen hleft, hinv.running hbusy, by simp [hclaimed], hclaimed, rfl, rfl, rfl,
      ⟨rfl, rfl⟩, ⟨fun _ => rfl, rfl⟩, ⟨rfl, rfl⟩,
      fun _ => ⟨frameStarted_of_beginFrame hclaimed ⟨rfl, rfl, rfl⟩ rfl rfl, ⟨fun _ => rfl, rfl⟩⟩,
      fun hdone => absurd hleft (Nat.not_lt_of_ge hdone)⟩
  · obtain ⟨howner, hothers, hreads⟩ := s.takeTurn.endSession_responded .ok
    exact ⟨_, step_gapEnd_of_framesDone hagenda hen hdone, rfl, hlow, hclaimed, rfl, rfl, rfl, ⟨rfl, rfl⟩,
      ⟨fun _ => rfl, rfl⟩, ⟨rfl, rfl⟩, fun hleft => absurd hleft (Nat.not_lt_of_ge hdone),
      fun _ => ⟨rfl, ⟨howner, hothers, hreads⟩, ⟨rfl, rfl, rfl⟩, rfl, rfl, rfl, rfl, rfl⟩⟩

/-- Settles O41: in a frame the port holds every command but a TEARDOWN, whose acceptance sets marks only, and no other turn but the
sequencer's and reset writes the line, the session or the train. -/
theorem nothingDisturbsAFrame : Obligations.NothingDisturbsAFrame := by
  intro s t hst h hreset
  refine ⟨step_in_frame_keeps_session hst h hreset, fun c => State.wfTeardown_of_ready_in_frame hst,
    fun k r c hturn hr hc => ?accept, by simp [State.teardownApplyEnabled, hst]⟩
  have hpending : s.pendingOf k = some c := by simp [State.pendingOf, hr, hc]
  refine ⟨fun hwf => ?held, fun hwf htd => ?accepted⟩
  case held =>
    have hready : s.ready c = false := by
      rw [Bool.eq_false_iff]
      exact fun hready => by simp [State.wfTeardown_of_ready_in_frame hst hready] at hwf
    rw [step_accept_held hturn hpending hready, Host.Outcome.next.injEq] at h
    exact h.symm
  case accepted =>
    rw [step_accept_teardown hturn hpending hwf htd, Host.Outcome.next.injEq] at h
    subst h
    refine ⟨rfl, rfl, rfl, rfl, ⟨rfl, rfl⟩, ?_, fun l hl => ?_⟩
    · have hr' : s.takeTurn.requesterAt k = some r := hr
      simp [State.requesterAt_teardownAccepted, hr', Requester.accepted]
    · exact (State.requesterAt_teardownAccepted _ k l).trans (if_neg (Ne.symm hl))

end Scheduler
end

section
/-! SUPPORT and THEOREMS. The system rules (spec/42_system.md R97, R99): TEARDOWN_APPLY as one step of the sequencer and the
responses it gives, a frame's end with a teardown pending, and the READ turn. -/

namespace Sys2Proof.Machine

/-! ### TEARDOWN_APPLY (R97) -/

theorem Phase.ne_frame_iff (p : Phase) : p ≠ .frame ↔ p = .idle ∨ p = .gap := by cases p <;> decide

/-- R104: where TEARDOWN_APPLY is enabled no other sequencer step is: the phase shuts out FRAME_POLL, the mark shuts out GAP_END. -/
theorem State.others_disabled_of_teardownApplyEnabled {s : State} (h : s.teardownApplyEnabled = true) :
    s.toggleEnabled = false ∧ s.frameEndEnabled = false ∧ s.gapEndEnabled = false := by
  obtain ⟨htd, hst⟩ := s.teardownApplyEnabled_iff.mp h
  simp [State.toggleEnabled, State.frameEndEnabled, State.gapEndEnabled, htd, hst]

/-- The turn of the sequencer while a teardown is pending outside a frame. -/
theorem step_teardownApply {s : State} {rest : List Turn} (hagenda : s.env.agenda = .sequence :: rest)
    (h : s.teardownApplyEnabled = true) : step s = .next s.takeTurn.teardownApply := by
  have hen : s.takeTurn.teardownApplyEnabled = true := h
  obtain ⟨htoggle, hend, hgap⟩ := State.others_disabled_of_teardownApplyEnabled hen
  rw [step_sequence hagenda, State.sequencerStep, htoggle, hend, hgap, hen, cond_false, cond_false, cond_false, cond_true]

theorem State.teardownResult_eq_ite (s : State) :
    s.teardownResult =
      if s.framesDone.toNat < s.repeatTotal.toNat then .cancelledBetweenRepeats else .ok := by
  simp only [State.teardownResult, Bool.cond_eq_ite, s.framesLeft_eq_true]

theorem State.abandonSession_in_gap {s : State} (h : s.st = .gap) : s.abandonSession = s.endSession s.teardownResult := by
  simp [State.abandonSession, h]

theorem State.abandonSession_of_ne_gap {s : State} (h : s.st ≠ .gap) : s.abandonSession = s := by
  rw [State.abandonSession, beq_eq_false_iff_ne.mpr h, cond_false]

section Responses

variable (s : State) (k : Nat)

/-- After the session has been abandoned, TEARDOWN_APPLY answers OK to its own requester and no one else. -/
theorem State.requesterAt_teardownApply :
    s.teardownApply.requesterAt k =
      if s.tdOwner = k then (s.abandonSession.requesterAt k).map (Requester.responded .ok)
      else s.abandonSession.requesterAt k := by
  rw [← State.requesterAt_modify]
  simp only [State.requesterAt, State.teardownApply_requesters]

variable {s k}

/-- Abandoning a session answers no one but the owner of a session in its gap. -/
theorem State.requesterAt_abandonSession_of_ne (h : s.st = .gap → k ≠ s.sessOwner) :
    s.abandonSession.requesterAt k = s.requesterAt k := by
  by_cases hgap : s.st = .gap
  · rw [State.abandonSession_in_gap hgap]
    exact (s.endSession_responded _).others k (h hgap)
  · rw [State.abandonSession_of_ne_gap hgap]

/-- Whoever owns neither the teardown nor a session in its gap gets no response. -/
theorem State.requesterAt_teardownApply_of_ne (htd : k ≠ s.tdOwner) (hsess : s.st = .gap → k ≠ s.sessOwner) :
    s.teardownApply.requesterAt k = s.requesterAt k := by
  rw [s.requesterAt_teardownApply, if_neg htd.symm, State.requesterAt_abandonSession_of_ne hsess]

/-- The teardown's owner gets OK, and that alone when it does not own the session too. -/
theorem State.requesterAt_teardownApply_tdOwner (h : s.st = .gap → s.tdOwner ≠ s.sessOwner) :
    s.teardownApply.requesterAt s.tdOwner = (s.requesterAt s.tdOwner).map (Requester.responded .ok) := by
  rw [s.requesterAt_teardownApply, if_pos rfl, State.requesterAt_abandonSession_of_ne h]

/-- In GAP the session's owner gets the session's result. -/
theorem State.requesterAt_teardownApply_sessOwner (hgap : s.st = .gap) (h : s.sessOwner ≠ s.tdOwner) :
    s.teardownApply.requesterAt s.sessOwner =
      (s.requesterAt s.sessOwner).map (Requester.responded s.teardownResult) := by
  rw [s.requesterAt_teardownApply, if_neg h.symm, State.abandonSession_in_gap hgap]
  exact (s.endSession_responded _).owner

end Responses

/-- Outside a frame TEARDOWN_APPLY leaves the block IDLE. -/
theorem State.teardownApply_st_idle {s : State} (h : s.st ≠ .frame) : s.teardownApply.st = .idle := by
  obtain hidle | hgap := s.st.ne_frame_iff.mp h
  · simp [hidle]
  · simp [hgap]

/-- A session that TEARDOWN_APPLY ends leaves its result in `err` (spec/10_state.md R36). -/
theorem State.teardownApply_err_in_gap {s : State} (h : s.st = .gap) : s.teardownApply.err = s.teardownResult := by
  rw [s.teardownApply_err, h, beq_self_eq_true, cond_true]

/-- Without a session to end TEARDOWN_APPLY does not write `err`. -/
theorem State.teardownApply_err_of_ne_gap {s : State} (h : s.st ≠ .gap) : s.teardownApply.err = s.err := by
  rw [s.teardownApply_err, beq_eq_false_iff_ne.mpr h, cond_false]

/-- The sequencer leaves FRAME only by the end branch of FRAME_POLL (R87). -/
theorem State.sequencerStep_leaves_frame {s : State} (hs : s.st = .frame) (ht : s.sequencerStep.st ≠ .frame) :
    s.sequencerStep = s.framePollEnd := by
  obtain ⟨-, h⟩ | ⟨-, h⟩ | ⟨hen, -⟩ | ⟨hen, -⟩ | ⟨hen, -⟩ | ⟨-, -, -, -, h⟩ := s.sequencerStep_cases
  case inl => exact absurd (by simpa [h] using hs) ht
  case inr.inl => exact h
  case inr.inr.inr.inr.inl => exact absurd hs (s.teardownApplyEnabled_iff.mp hen).2
  case inr.inr.inr.inr.inr => exact absurd (h.symm ▸ hs) ht
  all_goals exact absurd (hs.symm.trans (s.gapEndEnabled_iff.mp hen).1) (by decide)

/-! ### The READ turn (R99) -/

/-- A turn that the agenda holds takes no draw. -/
theorem State.takeTurn_of_agenda {s : State} {turn : Turn} {rest : List Turn} (h : s.env.agenda = turn :: rest) :
    s.takeTurn = s.withAgenda rest := by
  simp [State.takeTurn, State.withAgenda, Environment.countDraw, h]

/-- The turn of a reader runs READ at once, in every state: the port has no condition to hold it (R60). -/
theorem step_read {s : State} {h : Nat} {addr : ReadAddr} {rest : List Turn} {r : Requester}
    (hagenda : s.env.agenda = .read h addr :: rest) (hr : s.requesterAt h = some r) :
    step s = exec (.read addr) ((s.withAgenda rest).serve h) := by
  have hreader : (s.withAgenda rest).requesterAt h = some r := hr
  have hturn : s.nextTurn = .read h addr := by simp [State.nextTurn, hagenda]
  simp only [step, hturn, State.takeTurn_of_agenda hagenda, runTurn, readPort, hreader, decode]

end Sys2Proof.Machine

section System

open Sys2Proof Sys2Proof.Machine

/-- Settles O35: outside a frame the pending mark makes TEARDOWN_APPLY the step that is taken; its responses are the session's
result and the teardown's OK, which do not meet because the owners differ. A frame is left by its end branch, which opens the gap and
keeps the mark and the time. -/
theorem teardownApplyEndsTheSessionAndReleasesTheLine : Obligations.TeardownApplyEndsTheSessionAndReleasesTheLine := by
  refine ⟨fun s rest hagenda htd hst howners => ?applied, fun s => ?enabled,
    fun s hen => s.urgent_iff.mpr (.inr (.inr hen)),
    fun s t rest hagenda hst htd hstep ht => ?frameEnd⟩
  case applied =>
    refine ⟨_, step_teardownApply hagenda (s.teardownApplyEnabled_iff.mpr ⟨htd, hst⟩), by simp,
      State.teardownApply_st_idle (s := s.takeTurn) hst, by simp,
      State.requesterAt_teardownApply_tdOwner (s := s.takeTurn) fun hgap => (howners hgap).symm,
      fun hclaimed => by simp [hclaimed], fun hclaimed => by simp [hclaimed], fun hidle => ?idle, fun hgap => ?gap,
      s.takeTurn.teardownApply_repeatTotal, s.takeTurn.teardownApply_framesDone, s.takeTurn.teardownApply_idx,
      s.takeTurn.teardownApply_nextLevel, s.takeTurn.teardownApply_deadline, s.takeTurn.teardownApply_frameStart,
      s.takeTurn.teardownApply_gapEnd, s.takeTurn.teardownApply_sessOwner, s.takeTurn.teardownApply_tdOwner,
      s.takeTurn.teardownApply_reads, by constructor <;> simp, by constructor <;> simp⟩
    case idle =>
      have hgap : s.st ≠ .gap := by simp [hidle]
      exact ⟨State.teardownApply_err_of_ne_gap (s := s.takeTurn) hgap,
        fun k hk => State.requesterAt_teardownApply_of_ne (s := s.takeTurn) hk fun h => absurd h hgap⟩
    case gap =>
      rw [← s.teardownResult_eq_ite]
      exact ⟨State.teardownApply_err_in_gap (s := s.takeTurn) hgap,
        State.requesterAt_teardownApply_sessOwner (s := s.takeTurn) hgap (howners hgap),
        fun k hk hk' => State.requesterAt_teardownApply_of_ne (s := s.takeTurn) hk fun _ => hk'⟩
  case enabled => rw [s.teardownApplyEnabled_iff, s.st.ne_frame_iff]
  case frameEnd =>
    rw [step_sequence hagenda, Host.Outcome.next.injEq] at hstep
    subst hstep
    rw [State.sequencerStep_leaves_frame (s := s.takeTurn) hst ht]
    exact ⟨(State.teardownApplyEnabled_iff _).mpr ⟨htd, by simp⟩, rfl⟩

/-- Settles O19: READ logs the word of the state it runs in, and the turn that runs it has changed nothing which that word
depends on. -/
theorem readReturnsTheWordWithoutEffect : Obligations.ReadReturnsTheWordWithoutEffect := by
  refine ⟨fun addr s => exec_read s addr, fun addr s h => s.memRead_unmapped (by omega),
    fun s h addr rest r hagenda hr => ?turn, ?status, ?unit⟩
  case turn =>
    obtain ⟨t, hexec, hreads, -⟩ := exec_read ((s.withAgenda rest).serve h) addr
    exact ⟨t, (step_read hagenda hr).trans hexec, hreads⟩
  case status => exact (State.memRead_status _).trans (State.statusWord_boot _)
  case unit => exact (State.memRead_cfgUnit _).trans configurationWords_default.1

end System
end

section
/-! SUPPORT and THEOREMS. The exceptions and the clock (spec/60_exceptions.md R103, R109): the errors that a command finds at its
acceptance, in the order of its checks, and the TICK turn, which waits for the urgent sequencer steps. -/

namespace Sys2Proof.Machine

/-! ### The argument checks, in the words of the spec -/

theorem sendArgsValid_iff (m : BitVec 32) (b : BitVec 6) (r : BitVec 16) :
    sendArgsValid m b r = true ↔ m ≠ 0#32 ∧ (1 ≤ b.toNat ∧ b.toNat ≤ 32) ∧ r ≠ 0#16 := by
  simp [sendArgsValid, bitsInRange_iff, and_assoc]

theorem State.transmitArgsValid_iff (s : State) (r : BitVec 16) :
    s.transmitArgsValid r = true ↔ r ≠ 0#16 ∧ s.trainLen ≠ 0#7 := by
  simp [State.transmitArgsValid]

theorem bitsInRange_eq_false {b : BitVec 6} (h : b.toNat = 0 ∨ 33 ≤ b.toNat) : bitsInRange b = false := by
  rw [Bool.eq_false_iff, Ne, bitsInRange_iff]
  omega

theorem sendArgsValid_eq_false {m : BitVec 32} {b : BitVec 6} {r : BitVec 16}
    (h : m = 0#32 ∨ b.toNat = 0 ∨ 33 ≤ b.toNat ∨ r = 0#16) : sendArgsValid m b r = false := by
  rw [Bool.eq_false_iff, Ne, sendArgsValid_iff]
  rintro ⟨hm, ⟨hlow, hhigh⟩, hr⟩
  obtain h0 | h0 | h0 | h0 := h
  · exact hm h0
  · omega
  · omega
  · exact hr h0

theorem State.transmitArgsValid_eq_false {s : State} {r : BitVec 16} (h : r = 0#16 ∨ s.trainLen = 0#7) :
    s.transmitArgsValid r = false := by
  rw [Bool.eq_false_iff, Ne, s.transmitArgsValid_iff]
  exact fun ⟨hr, hlen⟩ => h.elim hr hlen

/-! ### The errors found at acceptance (R102, R103): each is the completion of the command with its code -/

section Errors

variable {s : State} {m : BitVec 32} {b : BitVec 6} {r : BitVec 16}

/-- A command that completes with an error and does nothing else is only answered. -/
theorem exists_onlyAnswered {o : Host.Outcome State Fault Refusal} {code : ResultCode} (h : o = .next (s.complete code)) :
    ∃ t, o = .next t ∧ OnlyAnswered s t code :=
  ⟨_, h, s.complete_onlyAnswered code⟩

/-- R103, first item: a word that the decoder rejects runs no command, so that no other check is made. -/
theorem runCommand_of_decodeCommand_error {c : CmdWord} {e : DecodeReject} (h : decodeCommand c = .error e) :
    runCommand c s = .next (s.complete .invalidArgument) := by
  simp only [runCommand, decode, h, execInvalid]

theorem exec_encode_invalidArgument (h : bitsInRange b = false) :
    exec (.encode m b) s = .next (s.complete .invalidArgument) := by
  simp only [exec, execEncode, h, cond_false]

/-- R103, second item, for TRANSMIT: the line is not looked at. -/
theorem exec_transmit_invalidArgument (h : s.transmitArgsValid r = false) :
    exec (.transmit r) s = .next (s.complete .invalidArgument) := by
  simp only [exec, execTransmit, h, Bool.not_false, cond_true]

/-- R103, second item, for SEND: the line is not looked at. -/
theorem exec_send_invalidArgument (h : sendArgsValid m b r = false) :
    exec (.send m b r) s = .next (s.complete .invalidArgument) := by
  simp only [exec, execSend, h, Bool.not_false, cond_true]

/-- R103, third item, for TRANSMIT. -/
theorem exec_transmit_hardwareUnavailable (h : s.transmitArgsValid r = true) (hclaimed : s.claimed = false) :
    exec (.transmit r) s = .next (s.complete .hardwareUnavailable) := by
  simp only [exec, execTransmit, h, hclaimed, Bool.not_true, Bool.not_false, cond_false, cond_true]

/-- R103, third item, for SEND. -/
theorem exec_send_hardwareUnavailable (h : sendArgsValid m b r = true) (hclaimed : s.claimed = false) :
    exec (.send m b r) s = .next (s.complete .hardwareUnavailable) := by
  simp only [exec, execSend, h, hclaimed, Bool.not_true, Bool.not_false, cond_false, cond_true]

end Errors

/-! ### Urgency and the TICK turn (spec/41_scheduler.md R85, R109) -/

/-- R85 and R97 without the branches of FRAME_POLL: a late frame always has one of them to take, because its index is at most the
train's length (spec/10_state.md R44 item 3). -/
theorem State.urgent_iff_of_sessionInv {s : State} (hinv : SessionInv s) :
    s.urgent = true ↔
      (s.st = .frame ∧ s.deadline + s.cfg.lagMax ≤ s.now) ∨ (s.st = .gap ∧ s.gapEnd ≤ s.now ∧ s.tdPending = false) ∨
        (s.tdPending = true ∧ s.st ≠ .frame) := by
  have hpoll : ((s.toggleEnabled = true ∨ s.frameEndEnabled = true) ∧ s.deadline + s.cfg.lagMax ≤ s.now) ↔
      s.st = .frame ∧ s.deadline + s.cfg.lagMax ≤ s.now := by
    refine and_congr_left fun hlate => ⟨fun hen => ?_, fun hst => ?_⟩
    · exact hen.elim (fun h => (s.toggleEnabled_iff.mp h).1) fun h => (s.frameEndEnabled_iff.mp h).1
    · exact State.framePoll_enabled hst (Nat.le_of_add_right_le hlate) (hinv.index hst).1
  rw [s.urgent_iff, hpoll, s.gapEndEnabled_iff, s.teardownApplyEnabled_iff]

/-- The agenda, from which a turn is taken, has no part in urgency. -/
@[simp] theorem State.urgent_withAgenda (s : State) (turns : List Turn) : (s.withAgenda turns).urgent = s.urgent := rfl

section Tick

variable {s : State} {rest : List Turn}

/-- The turn of the clock agent takes TICK. -/
theorem step_tick (hagenda : s.env.agenda = .tick :: rest) : step s = .next (s.withAgenda rest).tick := by
  have hturn : s.nextTurn = .tick := by simp [State.nextTurn, hagenda]
  simp only [step, hturn, State.takeTurn_of_agenda hagenda, runTurn]

/-- While a step is urgent TICK is not enabled, and the turn of the clock agent passes. -/
theorem step_tick_of_urgent (hagenda : s.env.agenda = .tick :: rest) (h : s.urgent = true) :
    step s = .next (s.withAgenda rest) := by
  rw [step_tick hagenda, State.tick, s.urgent_withAgenda, h, cond_true]

theorem step_tick_of_not_urgent (hagenda : s.env.agenda = .tick :: rest) (h : s.urgent = false) :
    step s = .next { s.withAgenda rest with now := s.now + 1 } := by
  rw [step_tick hagenda, State.tick, s.urgent_withAgenda, h, cond_false]
  rfl

end Tick

end Sys2Proof.Machine

section Exceptions

open Sys2Proof Sys2Proof.Machine

/-- Settles O20: each error is the completion of the command with its code. The lemmas for the first two kinds ask nothing of the
line, and the one for an unclaimed line asks for valid arguments. -/
theorem argumentErrorsComeBeforeTheLine : Obligations.ArgumentErrorsComeBeforeTheLine := by
  refine fun s => ⟨fun c e he => ?encoding, fun m b hb => ?encode, fun m b r hargs => ?send, fun r hargs => ?transmit,
    fun hclaimed => ⟨fun m b r hm hlow hhigh hr => ?sendLine, fun r hr hlen => ?transmitLine, ?sendZero⟩⟩
  case encoding => exact exists_onlyAnswered (runCommand_of_decodeCommand_error he)
  case encode => exact exists_onlyAnswered (exec_encode_invalidArgument (bitsInRange_eq_false hb))
  case send => exact exists_onlyAnswered (exec_send_invalidArgument (sendArgsValid_eq_false hargs))
  case transmit => exact exists_onlyAnswered (exec_transmit_invalidArgument (State.transmitArgsValid_eq_false hargs))
  case sendLine =>
    have hargs := (sendArgsValid_iff m b r).mpr ⟨hm, ⟨hlow, hhigh⟩, hr⟩
    exact exists_onlyAnswered (exec_send_hardwareUnavailable hargs hclaimed)
  case transmitLine =>
    have hargs := (s.transmitArgsValid_iff r).mpr ⟨hr, hlen⟩
    exact exists_onlyAnswered (exec_transmit_hardwareUnavailable hargs hclaimed)
  case sendZero => exact exists_onlyAnswered (exec_send_invalidArgument (sendArgsValid_eq_false (.inl rfl)))

/-- Settles O37: the condition is urgency, with which the turn of TICK passes and without which it advances the time alone. -/
theorem urgentStepsStopTheClock : Obligations.UrgentStepsStopTheClock := by
  intro s rest hinv hagenda
  rw [← State.urgent_iff_of_sessionInv hinv, Bool.not_eq_true]
  exact ⟨step_tick_of_urgent hagenda, step_tick_of_not_urgent hagenda⟩

end Exceptions
end

section
/-! SUPPORT and THEOREM. Reset (spec/70_reset_and_hazards.md R117): the external event, and the state in which it leaves the block,
the requesters and the read port. -/

namespace Sys2Proof.Machine

/-- The external reset runs in every state: no condition holds it. -/
theorem step_reset {s : State} {rest : List Turn} (hagenda : s.env.agenda = .reset :: rest) :
    step s = .next (s.withAgenda rest).resetBlock := by
  have hturn : s.nextTurn = .reset := by simp [State.nextTurn, hagenda]
  simp only [step, hturn, State.takeTurn_of_agenda hagenda, runTurn]

section AfterReset

variable (s : State)

/-- The block keeps its N_REQ requesters, each at its reset value (R38). -/
theorem State.requesterAt_resetBlock (h : Nat) :
    s.resetBlock.requesterAt h = if h < s.cfg.nReq then some Requester.reset else none := by
  rw [State.requesterAt, s.resetBlock_requesters, List.getElem?_replicate]

/-- No train entry is written (R34). -/
theorem State.entry?_resetBlock (i : Nat) : s.resetBlock.train.entry? i = none := by
  rw [s.resetBlock_train, TrainRam.entry?]

/-- `resetBlock` and `boot` differ in the environment alone, which STATUS does not show. -/
theorem State.statusWord_resetBlock : s.resetBlock.statusWord = 0x00000000#32 := State.statusWord_boot s.cfg

theorem State.framesWord_resetBlock : s.resetBlock.framesWord = 0x00000000#32 := State.framesWord_boot s.cfg

end AfterReset

end Sys2Proof.Machine

section Reset

open Sys2Proof Sys2Proof.Machine

/-- Settles O57: the turn runs `resetBlock`, whose rule for each field is the clause about it; the requesters, the train and the two
words of the read port have a lemma each. -/
theorem resetClearsTheBlock : Obligations.ResetClearsTheBlock := by
  intro s rest hagenda
  let u := s.withAgenda rest
  refine ⟨u.resetBlock, step_reset hagenda, u.resetBlock_cfg, u.resetBlock_st, u.resetBlock_idx, u.resetBlock_nextLevel,
    u.resetBlock_deadline, u.resetBlock_frameStart, u.resetBlock_gapEnd, u.resetBlock_repeatTotal, u.resetBlock_framesDone,
    u.resetBlock_tdPending, u.resetBlock_claimed, u.resetBlock_level, u.resetBlock_trainLen, u.resetBlock_err,
    u.resetBlock_now, u.entry?_resetBlock, fun h hlt => ?present, fun h hle => ?absent, u.resetBlock_history, ?status, ?frames⟩
  case present => exact (u.requesterAt_resetBlock h).trans (if_pos hlt)
  case absent => exact (u.requesterAt_resetBlock h).trans (if_neg hle.not_gt)
  case status => exact u.resetBlock.memRead_status.trans u.statusWord_resetBlock
  case frames => exact u.resetBlock.memRead_frames.trans u.framesWord_resetBlock

end Reset
end

section
/-! SUPPORT and THEOREMS. The encoder and the assembler, the fields that an opcode does not use, and the transports of a command
(spec/30_encoding.md R59 to R62, R68, spec/20_memory.md R50). -/

namespace Sys2Proof

/-- Two words that agree in their opcode, in their reserved bits and in the fields the opcode uses. -/
structure SameUsedFields (c d : CmdWord) : Prop where
  op : opField c = opField d
  rsv0 : rsv0Field c = rsv0Field d
  rsv1 : rsv1Field c = rsv1Field d
  train : opField c = 2#4 ∨ opField c = 4#4 → messageField c = messageField d ∧ bitsField c = bitsField d
  repeats : opField c = 3#4 ∨ opField c = 4#4 → repeatField c = repeatField d

/-! ### The fields of a packed command word (R59) -/

section Packed

variable (op : BitVec 4) (bits : BitVec 6) (repeats : BitVec 16) (message : BitVec 32)

/-- A bit of a packed command word belongs to the field at its position, or is 0. -/
theorem getLsbD_packCommand (i : Nat) :
    (packCommand op bits repeats message).getLsbD i =
      if i < 4 then op.getLsbD i else if i < 8 then false else if i < 14 then bits.getLsbD (i - 8)
      else if i < 16 then false else if i < 32 then repeats.getLsbD (i - 16) else message.getLsbD (i - 32) := by
  have hop : 4 ≤ i → op.getLsbD i = false := fun h => op.getLsbD_of_ge i h
  have hbits : 14 ≤ i → bits.getLsbD (i - 8) = false := fun h => bits.getLsbD_of_ge _ (by omega)
  have hrepeats : 32 ≤ i → repeats.getLsbD (i - 16) = false := fun h => repeats.getLsbD_of_ge _ (by omega)
  have hmessage : 64 ≤ i → message.getLsbD (i - 32) = false := fun h => message.getLsbD_of_ge _ (by omega)
  simp only [packCommand, BitVec.getLsbD_or, BitVec.getLsbD_shiftLeft, BitVec.getLsbD_setWidth]
  grind

@[simp] theorem rsv0Field_packCommand : rsv0Field (packCommand op bits repeats message) = 0#4 := by
  ext i hi
  simp only [rsv0Field, BitVec.getElem_extractLsb', getLsbD_packCommand]
  grind

@[simp] theorem bitsField_packCommand : bitsField (packCommand op bits repeats message) = bits := by
  ext i hi
  simp only [bitsField, BitVec.getElem_extractLsb', getLsbD_packCommand]
  grind

@[simp] theorem rsv1Field_packCommand : rsv1Field (packCommand op bits repeats message) = 0#2 := by
  ext i hi
  simp only [rsv1Field, BitVec.getElem_extractLsb', getLsbD_packCommand]
  grind

@[simp] theorem repeatField_packCommand : repeatField (packCommand op bits repeats message) = repeats := by
  ext i hi
  simp only [repeatField, BitVec.getElem_extractLsb', getLsbD_packCommand]
  grind

@[simp] theorem messageField_packCommand : messageField (packCommand op bits repeats message) = message := by
  ext i hi
  simp only [messageField, BitVec.getElem_extractLsb', getLsbD_packCommand]
  grind

end Packed

/-- Every instruction decodes to itself: a command is a word of its own row, whose fields hold its operands (R62, R68). -/
theorem decode_encode (i : Instr) : decode (encode i) = .ok i := by
  cases i with
  | claim => exact decodeCommand_claimRow Laws.MatchesRow.claim
  | encode m b =>
    exact (decodeCommand_encodeRow (Laws.MatchesRow.encode m b)).trans (by simp)
  | transmit r =>
    exact (decodeCommand_transmitRow (Laws.MatchesRow.transmit r)).trans (by simp)
  | send m b r =>
    exact (decodeCommand_sendRow (Laws.MatchesRow.send m b r)).trans (by simp)
  | teardown => exact decodeCommand_teardownRow Laws.MatchesRow.teardown
  | read a => rfl

/-! ### The fields that an opcode does not use (R61) -/

/-- The opcode map reads the fields its opcode uses and no others. -/
theorem SameUsedFields.decodeOpcode_eq {c d : CmdWord} (h : SameUsedFields c d) : decodeOpcode c = decodeOpcode d := by
  have hop : ∀ n < 16, (opField c).toNat = n → opField c = BitVec.ofNat 4 n := fun n hn he =>
    BitVec.eq_of_toNat_eq (by rw [he, BitVec.toNat_ofNat, Nat.mod_eq_of_lt hn])
  unfold decodeOpcode
  rw [← h.op]
  split
  · rfl
  next h2 =>
    obtain ⟨hm, hb⟩ := h.train (.inl (hop 2 (by decide) h2))
    rw [hm, hb]
  next h3 => rw [h.repeats (.inl (hop 3 (by decide) h3))]
  next h4 =>
    obtain ⟨hm, hb⟩ := h.train (.inr (hop 4 (by decide) h4))
    rw [hm, hb, h.repeats (.inr (hop 4 (by decide) h4))]
  · rfl
  · rfl

theorem SameUsedFields.decodeCommand_eq {c d : CmdWord} (h : SameUsedFields c d) : decodeCommand c = decodeCommand d := by
  rw [decodeCommand, decodeCommand, h.rsv0, h.rsv1, h.decodeOpcode_eq]

/-! ### The transports (R50) -/

/-- A bit of a word assembled from bytes belongs to the byte at its position. -/
theorem getLsbD_of_commandOfBytes {b0 b1 b2 b3 b4 b5 b6 b7 : Byte} {c : CmdWord}
    (h : commandOfBytes [b0, b1, b2, b3, b4, b5, b6, b7] = some c) (i : Nat) :
    c.getLsbD i =
      if i < 8 then b0.getLsbD i else if i < 16 then b1.getLsbD (i - 8) else if i < 24 then b2.getLsbD (i - 16)
      else if i < 32 then b3.getLsbD (i - 24) else if i < 40 then b4.getLsbD (i - 32)
      else if i < 48 then b5.getLsbD (i - 40) else if i < 56 then b6.getLsbD (i - 48) else b7.getLsbD (i - 56) := by
  have hhigh : ∀ (b : Byte) (j : Nat), 8 ≤ j → b.getLsbD j = false := fun b => b.getLsbD_of_ge
  rw [commandOfBytes, Option.some.injEq] at h
  subst h
  simp only [BitVec.getLsbD_or, BitVec.getLsbD_shiftLeft, BitVec.getLsbD_setWidth]
  grind

/-- The bytes of a word assembled from bytes are these bytes. -/
theorem bytesOfCommand_of_commandOfBytes {bytes : List Byte} {c : CmdWord} (h : commandOfBytes bytes = some c) :
    bytesOfCommand c = bytes := by
  obtain ⟨b0, b1, b2, b3, b4, b5, b6, b7, rfl⟩ : ∃ b0 b1 b2 b3 b4 b5 b6 b7, bytes = [b0, b1, b2, b3, b4, b5, b6, b7] := by
    unfold commandOfBytes at h
    split at h
    · exact ⟨_, _, _, _, _, _, _, _, rfl⟩
    · cases h
  simp only [bytesOfCommand, List.cons.injEq, and_true]
  refine ⟨?_, ?_, ?_, ?_, ?_, ?_, ?_, ?_⟩
  all_goals
    ext i hi
    simp only [BitVec.getElem_extractLsb', getLsbD_of_commandOfBytes h]
    grind

/-- The bytes of a command word give the word back. -/
theorem commandOfBytes_bytesOfCommand (c : CmdWord) : commandOfBytes (bytesOfCommand c) = some c := by
  obtain ⟨d, hd⟩ : ∃ d, commandOfBytes (bytesOfCommand c) = some d := ⟨_, rfl⟩
  rw [hd, Option.some.injEq]
  ext i hi
  rw [← BitVec.getLsbD_eq_getElem, getLsbD_of_commandOfBytes hd]
  grind

/-- The halves of a command word give the word back. -/
theorem commandOfHalves_of_halves (c : CmdWord) : commandOfHalves [c.extractLsb' 0 32, c.extractLsb' 32 32] = some c := by
  rw [commandOfHalves, Option.some.injEq]
  ext i hi
  simp only [BitVec.getElem_or, BitVec.getElem_shiftLeft, BitVec.getElem_setWidth,
    BitVec.getLsbD_extractLsb']
  grind

/-- The halves of a word assembled from halves are these halves. -/
theorem halves_of_commandOfHalves {halves : List Datum} {c : CmdWord} (h : commandOfHalves halves = some c) :
    halves = [c.extractLsb' 0 32, c.extractLsb' 32 32] := by
  unfold commandOfHalves at h
  split at h
  next lo hi =>
    rw [Option.some.injEq] at h
    subst h
    simp only [List.cons.injEq, and_true]
    constructor
    all_goals
      ext i hi
      simp only [BitVec.getElem_extractLsb', BitVec.getLsbD_or, BitVec.getLsbD_shiftLeft, BitVec.getLsbD_setWidth]
      grind
  · cases h

/-! ### The assembler (R68) -/

namespace Machine

theorem fitsField_eq_false_iff (w v : Nat) : fitsField w v = false ↔ 2 ^ w ≤ v := by
  rw [← Bool.not_eq_true, fitsField, Nat.blt_eq, Nat.not_lt]

/-- An operand that fits its field is the value of the field. -/
theorem toNat_ofNat_of_lt {w v : Nat} (h : v < 2 ^ w) : (BitVec.ofNat w v).toNat = v := by
  rw [BitVec.toNat_ofNat, Nat.mod_eq_of_lt h]

/-! The lines with operands, their checks in numbers. -/

theorem assemble_encode (m b : Nat) :
    (AsmLine.encode m b).assemble =
      if 2 ^ 32 ≤ m then .error .messageTooWide else if 64 ≤ b then .error .bitsTooWide
      else .ok (.transaction (encode (.encode (BitVec.ofNat 32 m) (BitVec.ofNat 6 b)))) := by
  simp only [AsmLine.assemble, messageFits, bitsFit, fitsField_eq_false_iff, Nat.reducePow]

theorem assemble_transmit (r : Nat) :
    (AsmLine.transmit r).assemble =
      if 65536 ≤ r then .error .repeatTooWide else .ok (.transaction (encode (.transmit (BitVec.ofNat 16 r)))) := by
  simp only [AsmLine.assemble, repeatFits, fitsField_eq_false_iff, Nat.reducePow]

theorem assemble_send (m b r : Nat) :
    (AsmLine.send m b r).assemble =
      if 2 ^ 32 ≤ m then .error .messageTooWide else if 64 ≤ b then .error .bitsTooWide
      else if 65536 ≤ r then .error .repeatTooWide
      else .ok (.transaction (encode (.send (BitVec.ofNat 32 m) (BitVec.ofNat 6 b) (BitVec.ofNat 16 r)))) := by
  simp only [AsmLine.assemble, messageFits, bitsFit, repeatFits, fitsField_eq_false_iff, Nat.reducePow]

theorem assemble_read (a : Nat) :
    (AsmLine.read a).assemble =
      if 4096 ≤ a then .error .addrTooWide else .ok (.transaction (encode (.read (BitVec.ofNat 12 a)))) := by
  simp only [AsmLine.assemble, addrFits, fitsField_eq_false_iff, Nat.reducePow]

theorem assemble_cmd (v : Nat) :
    (AsmLine.cmd v).assemble =
      if 2 ^ 64 ≤ v then .error .rawTooWide else .ok (.transaction (.command (BitVec.ofNat 64 v))) := by
  simp only [AsmLine.assemble, rawFits, fitsField_eq_false_iff]

end Machine

end Sys2Proof

section Encoding

open Sys2Proof Sys2Proof.Machine

/-- Settles O1: a command is encoded as a word of its own row, and its operands are read back from their fields. -/
theorem decodeOfEncodeIsIdentity : Obligations.DecodeOfEncodeIsIdentity := decode_encode

/-- Settles O4: the two words decode alike, and both the effect of a word and its readiness are functions of what it decodes to. -/
theorem ignoredFieldsHaveNoEffect : Obligations.IgnoredFieldsHaveNoEffect := by
  intro c d s hop h0 h1 htrain hrepeats
  have hdecode : decodeCommand c = decodeCommand d := SameUsedFields.decodeCommand_eq ⟨hop, h0, h1, htrain, hrepeats⟩
  have hwf : wfTeardown c = wfTeardown d := by rw [Bool.eq_iff_iff, wfTeardown_iff, wfTeardown_iff, hdecode]
  exact ⟨by simp only [runCommand, decode, hdecode], by simp only [State.ready, hwf]⟩

/-- Settles O5: the bytes and the halves of a word give the word back, and a delivery that gives a word consists of its parts. -/
theorem transportsCarryLeastSignificantFirst : Obligations.TransportsCarryLeastSignificantFirst := by
  refine ⟨commandOfBytes_bytesOfCommand, fun bytes c h => ?whole, fun bytes hlength => ?part, fun halves c => ⟨?split, ?join⟩⟩
  case whole =>
    obtain rfl := bytesOfCommand_of_commandOfBytes h
    refine ⟨rfl, fun k b hb => ?_⟩
    have hk : k < 8 := (List.getElem?_eq_some_iff.mp hb).1
    interval_cases k <;> exact (Option.some.inj hb).symm
  case part =>
    rw [Option.eq_none_iff_forall_ne_some]
    rintro c h
    exact hlength (bytesOfCommand_of_commandOfBytes h ▸ rfl)
  case split => exact halves_of_commandOfHalves
  case join =>
    rintro rfl
    exact commandOfHalves_of_halves c

/-- Settles O6: each line is its checks in turn and then the encoder, whose words decode back and hold 0 in the fields that the
line does not name. -/
theorem assemblerRefusesWhatDoesNotFit : Obligations.AssemblerRefusesWhatDoesNotFit := by
  refine ⟨?claim, fun m b hm hb => ?encode, fun r hr => ?transmit, fun m b r hm hb hr => ?send, ?teardown, fun a ha => ?read,
    fun v hv => ?cmd, fun m b h => ?encodeRefused, fun r hr => ?transmitRefused, fun m b r h => ?sendRefused,
    fun a ha => ?readRefused, fun v hv => ?cmdRefused⟩
  case claim =>
    exact ⟨_, rfl, decode_encode .claim, rsv0Field_packCommand .., bitsField_packCommand .., rsv1Field_packCommand ..,
      repeatField_packCommand .., messageField_packCommand ..⟩
  case teardown =>
    exact ⟨_, rfl, decode_encode .teardown, rsv0Field_packCommand .., bitsField_packCommand .., rsv1Field_packCommand ..,
      repeatField_packCommand .., messageField_packCommand ..⟩
  case encode =>
    refine ⟨_, _, _, ?_, toNat_ofNat_of_lt hm, toNat_ofNat_of_lt hb, decode_encode (.encode ..),
      rsv0Field_packCommand .., rsv1Field_packCommand .., repeatField_packCommand ..⟩
    rw [assemble_encode, if_neg hm.not_ge, if_neg hb.not_ge, encode]
  case transmit =>
    refine ⟨_, _, ?_, toNat_ofNat_of_lt hr, decode_encode (.transmit ..),
      rsv0Field_packCommand .., bitsField_packCommand .., rsv1Field_packCommand .., messageField_packCommand ..⟩
    rw [assemble_transmit, if_neg hr.not_ge, encode]
  case send =>
    refine ⟨_, _, _, _, ?_, toNat_ofNat_of_lt hm, toNat_ofNat_of_lt hb, toNat_ofNat_of_lt hr, decode_encode (.send ..),
      rsv0Field_packCommand .., rsv1Field_packCommand ..⟩
    rw [assemble_send, if_neg hm.not_ge, if_neg hb.not_ge, if_neg hr.not_ge, encode]
  case read =>
    refine ⟨_, ?_, toNat_ofNat_of_lt ha, rfl⟩
    rw [assemble_read, if_neg ha.not_ge, encode]
  case cmd => exact ⟨_, (assemble_cmd v).trans (if_neg hv.not_ge), toNat_ofNat_of_lt hv⟩
  case encodeRefused =>
    rw [assemble_encode]
    split
    next hm => exact ⟨_, rfl, .inl ⟨rfl, hm⟩⟩
    next hm =>
      have hb : 64 ≤ b := h.resolve_left hm
      exact ⟨_, if_pos hb, .inr ⟨rfl, hb⟩⟩
  case transmitRefused => exact (assemble_transmit r).trans (if_pos hr)
  case sendRefused =>
    rw [assemble_send]
    split
    next hm => exact ⟨_, rfl, .inl ⟨rfl, hm⟩⟩
    next hm =>
      split
      next hb => exact ⟨_, rfl, .inr (.inl ⟨rfl, hb⟩)⟩
      next hb =>
        have hr : 65536 ≤ r := (h.resolve_left hm).resolve_left hb
        exact ⟨_, if_pos hr, .inr (.inr ⟨rfl, hr⟩)⟩
  case readRefused => exact (assemble_read a).trans (if_pos ha)
  case cmdRefused => exact (assemble_cmd v).trans (if_pos hv)

end Encoding
end

section
/-! SUPPORT and THEOREMS. The turns of the two ports (spec/30_encoding.md R60, R63, spec/10_state.md R38, spec/20_memory.md R48), the
draws, and the conditions of the sequencer's steps (spec/41_scheduler.md R85, spec/60_exceptions.md R104, R109). -/

namespace Sys2Proof.Machine

/-! ### The turns of the command port (R38, R63) -/

section CommandPort

variable {s : State} {h : Nat} {rest : List Turn} {r : Requester} {c : CmdWord}

theorem State.nextTurn_of_agenda {turn : Turn} (hagenda : s.env.agenda = turn :: rest) : s.nextTurn = turn := by
  simp [State.nextTurn, hagenda]

theorem State.pendingOf_of_requesterAt (hr : s.requesterAt h = some r) : s.pendingOf h = r.pending := by
  simp [State.pendingOf, hr]

/-- ACCEPT(h) of a command that is ready executes its word (R63). -/
theorem step_accept_ready (hagenda : s.env.agenda = .accept h :: rest) (hpending : s.pendingOf h = some c)
    (hready : s.ready c = true) : step s = runCommand c ((s.withAgenda rest).beginAccept h) := by
  have hp : (s.withAgenda rest).pendingOf h = some c := hpending
  have hc : (s.withAgenda rest).ready c = true := hready
  simp only [step, State.nextTurn_of_agenda hagenda, State.takeTurn_of_agenda hagenda, runTurn, acceptCommand, hp, hc,
    cond_true]

theorem runCommand_of_decodeCommand_ok {i : Instr} (hdecode : decodeCommand c = .ok i) : runCommand c s = exec i s := by
  simp only [runCommand, decode, hdecode]

theorem wfTeardown_iff_fields : wfTeardown c = true ↔ opField c = 5#4 ∧ rsv0Field c = 0#4 ∧ rsv1Field c = 0#2 := by
  simp [wfTeardown, and_assoc]

theorem State.requesterAt_beginAccept (s : State) (h k : Nat) :
    (s.beginAccept h).requesterAt k =
      if h = k then (s.requesterAt k).map Requester.accepted else s.requesterAt k :=
  s.requesterAt_modify h k Requester.accepted

theorem State.requesterAt_present (s : State) (h k : Nat) (c : CmdWord) :
    (s.present h c).requesterAt k =
      if h = k then (s.requesterAt k).map (Requester.presenting c) else s.requesterAt k :=
  s.requesterAt_modify h k (Requester.presenting c)

theorem Requester.mayPresent_iff (r : Requester) : r.mayPresent = true ↔ r.pending = none ∧ r.waiting = false := by
  simp [Requester.mayPresent]

theorem Requester.presenting_of_free (hp : r.pending = none) (hw : r.waiting = false) :
    r.presenting c = { r with pending := some c } := by
  rw [Requester.presenting, r.mayPresent_iff.mpr ⟨hp, hw⟩, cond_true]

/-- A word that a busy requester offers is dropped (R38). -/
theorem Requester.presenting_of_busy (hbusy : r.pending ≠ none ∨ r.waiting = true) : r.presenting c = r := by
  have hmay : r.mayPresent = false := by
    rw [Bool.eq_false_iff, Ne, r.mayPresent_iff]
    rintro ⟨hp, hw⟩
    exact hbusy.elim (· hp) fun hw' => by simp [hw] at hw'
  rw [Requester.presenting, hmay, cond_false]

theorem step_present (hagenda : s.env.agenda = .present h c :: rest) :
    step s = .next ((s.withAgenda rest).present h c) := by
  simp only [step, State.nextTurn_of_agenda hagenda, State.takeTurn_of_agenda hagenda, runTurn]

end CommandPort

/-! ### The draws (R47, R83, R95) -/

theorem State.exists_grantAnswer_eq (s : State) (g : Bool) : ∃ e, ({ s with env := e } : State).grantAnswer = g :=
  ⟨{ s.env with grants := [g] }, rfl⟩

/-- The jitters that can be drawn are those of `[0, GAP_JITTER_MAX]` (R83). -/
theorem State.exists_jitterDraw_eq_iff (s : State) (j : Nat) :
    (∃ e, ({ s with env := e } : State).jitterDraw = j) ↔ j ≤ s.cfg.gapJitterMax := by
  constructor
  · rintro ⟨e, rfl⟩
    exact State.jitterDraw_le { s with env := e }
  · intro h
    obtain ⟨e, -, hdraw⟩ := s.exists_jitterDraw_eq h
    exact ⟨_, hdraw⟩

/-! ### The conditions of the sequencer's steps (R104) -/

section Conditions

variable {s : State}

/-- `wait_idle` reads `st` in the low bits of STATUS, and only IDLE has the code 0 (R23, R39, R69). -/
theorem State.waitIdleLoops_iff (s : State) : waitIdleLoops (s.memRead waitIdleAddr) = true ↔ s.st ≠ .idle := by
  have hread : s.memRead waitIdleAddr = s.statusWord := s.memRead_status
  have hcode : s.st.code = 0#2 ↔ s.st = .idle := Phase.code_inj (q := .idle)
  rw [waitIdleLoops, hread, s.statusWord_st, bne_iff_ne, Ne, hcode]

/-- A sequencer step that is enabled changes the state: the index, the phase or the pending mark. -/
theorem State.sequencerStep_ne_of_urgent (h : s.urgent = true) : s.sequencerStep ≠ s := by
  intro hfix
  obtain ⟨-, hs⟩ | ⟨hen, hs⟩ | ⟨hen, -, hs⟩ | ⟨hen, -, hs⟩ | ⟨hen, hs⟩ | ⟨h1, h2, h3, h4, -⟩ := s.sequencerStep_cases
  case inl =>
    have hidx : s.idx + 1#7 = s.idx := by rw [← s.framePollToggle_idx, ← hs, hfix]
    simp at hidx
  case inr.inl =>
    have hst : s.st = .gap := by rw [← s.framePollEnd_st, ← hs, hfix]
    simp [(s.frameEndEnabled_iff.mp hen).1] at hst
  case inr.inr.inl =>
    have hst : s.st = .frame := by rw [← s.beginFrame_st, ← hs, hfix]
    simp [(s.gapEndEnabled_iff.mp hen).1] at hst
  case inr.inr.inr.inl =>
    have hst : s.st = .idle := by rw [← s.endSession_st .ok, ← hs, hfix]
    simp [(s.gapEndEnabled_iff.mp hen).1] at hst
  case inr.inr.inr.inr.inl =>
    have htd : s.tdPending = false := by rw [← s.teardownApply_tdPending, ← hs, hfix]
    simp [(s.teardownApplyEnabled_iff.mp hen).1] at htd
  case inr.inr.inr.inr.inr => simp [s.urgent_iff, h1, h2, h3, h4] at h

theorem State.tick_of_not_urgent (h : s.urgent = false) : s.tick = { s with now := s.now + 1 } := by
  rw [State.tick, h, cond_false]

theorem State.tick_of_urgent (h : s.urgent = true) : s.tick = s := by
  rw [State.tick, h, cond_true]

end Conditions

end Sys2Proof.Machine

section Turns

open Sys2Proof Sys2Proof.Machine

/-- Settles O7: ACCEPT(h) of a ready word is `runCommand` of the word, which is `exec` of what it decodes to. -/
theorem stepRunsTheDecodedCommand : Obligations.StepRunsTheDecodedCommand := by
  intro s h rest r c i hagenda hr hc hdecode hready
  have hpending : s.pendingOf h = some c := (State.pendingOf_of_requesterAt hr).trans hc
  rw [step_accept_ready hagenda hpending hready, runCommand_of_decodeCommand_ok hdecode]

/-- Settles O8: the turn of a reader has no condition. -/
theorem stepRunsTheRead : Obligations.StepRunsTheRead :=
  fun _ _ _ _ _ hagenda hr => ⟨rfl, step_read hagenda hr⟩

/-- Settles O9: `ready` by the fields of the word, and the step of ACCEPT(h) in each of its two cases. -/
theorem acceptanceFollowsReady : Obligations.AcceptanceFollowsReady := by
  intro s h rest r c hagenda hr hc
  have hpending : s.pendingOf h = some c := (State.pendingOf_of_requesterAt hr).trans hc
  have hr' : (s.withAgenda rest).requesterAt h = some r := hr
  refine ⟨?ready, step_accept_ready hagenda hpending, fun hready => ?held, ?accepted, fun k hk => ?others⟩
  case ready =>
    rw [s.ready_iff, wfTeardown_iff_fields]
    split
    next hwf => exact ⟨fun hready => hready.1, fun htd => ⟨htd, .inl hwf⟩⟩
    next hwf => exact ⟨fun ⟨htd, hor⟩ => ⟨hor.resolve_left hwf, htd⟩, fun ⟨hst, htd⟩ => ⟨htd, .inr hst⟩⟩
  case held =>
    rw [step_accept_held (State.nextTurn_of_agenda hagenda) hpending hready, State.takeTurn_of_agenda hagenda]
  case accepted => rw [State.requesterAt_beginAccept, if_pos rfl, hr', Option.map_some, Requester.accepted]
  case others => exact (State.requesterAt_beginAccept _ h k).trans (if_neg hk.symm)

/-- Settles O10: the turn changes one requester, and that one only when it is free. -/
theorem presentingNeedsAFreeRequester : Obligations.PresentingNeedsAFreeRequester := by
  intro s h c rest r hagenda hr
  have howner : ((s.withAgenda rest).present h c).requesterAt h = some (r.presenting c) := by
    have hr' : (s.withAgenda rest).requesterAt h = some r := hr
    rw [State.requesterAt_present, if_pos rfl, hr', Option.map_some]
  exact ⟨_, step_present hagenda, fun hp hw => by rw [howner, Requester.presenting_of_free hp hw],
    fun hbusy => by rw [howner, Requester.presenting_of_busy hbusy],
    fun k hk => (State.requesterAt_present _ h k c).trans (if_neg hk.symm), rfl, rfl,
    ⟨rfl, rfl, rfl, rfl, rfl, rfl, rfl, rfl, rfl⟩, ⟨rfl, rfl⟩, ⟨rfl, rfl, rfl⟩, ⟨fun _ => rfl, rfl⟩, ⟨rfl, rfl⟩⟩

/-- Settles O12: every turn has a next state, but the write of the read space. -/
theorem onlyReadSpaceWritesAreRefused : Obligations.OnlyReadSpaceWritesAreRefused := by
  intro s
  obtain ⟨t, ht⟩ | ⟨hrefused, hwrite⟩ := runTurn_next_or_refused s.nextTurn s.takeTurn
  · have hstep : step s = .next t := ht
    refine ⟨fun f => by simp [hstep], fun r => ⟨fun h => by simp [hstep] at h, ?_⟩⟩
    rintro ⟨-, h, a, d, hturn⟩
    rw [hturn] at ht
    cases ht
  · have hstep : step s = .refused .readSpaceReadOnly := hrefused
    refine ⟨fun f => by simp [hstep], fun r => ⟨fun h => ?_, fun ⟨hr, _⟩ => hr ▸ hstep⟩⟩
    rw [hstep, Host.Outcome.refused.injEq] at h
    exact ⟨h.symm, hwrite⟩

/-- Settles O13: an environment that holds the value as its next choice draws it, and a jitter is brought into range when it is
drawn. -/
theorem everyDrawIsPossible : Obligations.EveryDrawIsPossible :=
  ⟨State.exists_grantAnswer_eq, State.exists_jitterDraw_eq_iff, fun s _ v h => s.exists_trainValue_eq v h⟩

/-- Settles O22: a read is a function of the word index. -/
theorem readAddressLowBitsIgnored : Obligations.ReadAddressLowBitsIgnored := fun s _ _ => s.memRead_congr

/-- Settles O26: the low bits of STATUS are the code of the phase. -/
theorem waitIdleLoopsWhileBusy : Obligations.WaitIdleLoopsWhileBusy := State.waitIdleLoops_iff

/-- Settles O36: a pending teardown shuts out GAP_END, the phase divides these two from FRAME_POLL, and the end of the train divides
the branches of FRAME_POLL. -/
theorem atMostOneSequencerStepIsEnabled : Obligations.AtMostOneSequencerStepIsEnabled := by
  intro s
  by_cases hteardown : s.teardownApplyEnabled = true
  · obtain ⟨htoggle, hend, hgap⟩ := State.others_disabled_of_teardownApplyEnabled hteardown
    simp [hteardown, htoggle, hend, hgap]
  by_cases hgap : s.gapEndEnabled = true
  · obtain ⟨htoggle, hend⟩ := State.framePoll_disabled_in_gap (s.gapEndEnabled_iff.mp hgap).1
    simp [hteardown, htoggle, hend, hgap]
  by_cases hend : s.frameEndEnabled = true
  · simp [hteardown, hgap, hend, State.toggleEnabled_eq_false_of_frameEndEnabled hend]
  · cases htoggle : s.toggleEnabled <;> simp [hteardown, hgap, hend]

/-- Settles O38: a step is enabled from its time on, and the invariant bounds the time from above. -/
theorem sequencerStepsAreOnTime : Obligations.SequencerStepsAreOnTime := by
  intro s htiming
  refine ⟨fun hen => ?poll, fun hen => ?gap⟩
  case poll =>
    obtain ⟨hst, hdue⟩ : s.st = .frame ∧ s.deadline ≤ s.now := by
      obtain hen | hen := hen
      · obtain ⟨hst, hdue, -⟩ := s.toggleEnabled_iff.mp hen
        exact ⟨hst, hdue⟩
      · obtain ⟨hst, hdue, -⟩ := s.frameEndEnabled_iff.mp hen
        exact ⟨hst, hdue⟩
    exact ⟨hdue, htiming.poll hst⟩
  case gap =>
    obtain ⟨hst, hdue, -⟩ := s.gapEndEnabled_iff.mp hen
    exact Nat.le_antisymm (htiming.gap hst) hdue

/-- Settles O40: TICK advances the time unless a step is urgent, and an urgent step is enabled. -/
theorem noStateIsStuck : Obligations.NoStateIsStuck := by
  intro s
  cases h : s.urgent with
  | false => exact .inl (by rw [State.tick_of_not_urgent h])
  | true => exact .inr (State.sequencerStep_ne_of_urgent h)

end Turns
end

section
/-! SUPPORT and THEOREMS. The commands at their acceptance (spec/40_encoder.md R74, R77, spec/41_scheduler.md R78, R80, R81,
spec/42_system.md R94, R96): what each leaves in the block and what it leaves alone, and the sum of a train (R75). -/

namespace Sys2Proof.Machine

/-! ### Responses and frames of a command -/

/-- A response is told from the requesters and the reads alone. -/
theorem Responded.of_samePorts {s u t : State} {h : Nat} {code : ResultCode} (hresp : Responded u t h code)
    (hports : SamePorts s u) : Responded s t h code where
  owner := hports.requesters h ▸ hresp.owner
  others := fun k hk => (hresp.others k hk).trans (hports.requesters k)
  reads := hresp.reads.trans hports.reads

theorem State.complete_responded (s : State) (code : ResultCode) : Responded s (s.complete code) s.env.serving code :=
  (s.complete_onlyAnswered code).responded

/-! ### The encode step (R74) -/

/-- The encode step puts the train of its message into the train RAM. -/
theorem State.encodeStep_trainEncoded (s : State) (m : BitVec 32) {b : BitVec 6} (hb : b.toNat ≤ 32) :
    TrainEncoded s (s.encodeStep m b) m b where
  length := by
    rw [s.encodeStep_trainLen, BitVec.toNat_ofNat]
    omega
  entries := fun i hi => by
    rw [s.encodeStep_train, TrainRam.entry?_writeFrom, if_pos ⟨i.zero_le, by rw [encodeTrain_length]; omega⟩, Nat.sub_zero]
  above := fun i hi => by
    rw [s.encodeStep_train, TrainRam.entry?_writeFrom, if_neg fun h => by rw [encodeTrain_length] at h; omega]

/-! ### The start of a session (R78) -/

/-- A session started from a state `u` that differs from `s` in the train alone is a session started from `s`. -/
theorem sessionStarted_of_startSession {s u : State} {r : BitVec 16} {h : Nat} (hclaimed : s.claimed = true)
    (hline : SameLine s u) (hgap : u.gapEnd = s.gapEnd) (hteardown : SameTeardown s u) (hports : SamePorts s u)
    (hbase : SameBase s u) : SessionStarted s (u.startSession r h) r h where
  repeatTotal := rfl
  framesDone := rfl
  sessOwner := rfl
  err := rfl
  frame := frameStarted_of_beginFrame (u := { u with repeatTotal := r, framesDone := 0#16, sessOwner := h, err := .ok })
    hclaimed ⟨hline.claimed, hline.level, hline.history⟩ hbase.now hgap
  teardown := ⟨hteardown.tdPending, hteardown.tdOwner⟩
  ports := ⟨hports.requesters, hports.reads⟩
  base := ⟨hbase.cfg, hbase.now⟩

/-! ### The commands, case by case -/

section Commands

variable {s : State} {m : BitVec 32} {b : BitVec 6} {r : BitVec 16}

theorem exec_claim_claimed (h : s.claimed = true) : exec .claim s = .next (s.complete .ok) := by
  simp only [exec, execClaim, h, cond_true]

theorem exec_claim_granted (h : s.claimed = false) (hgrant : s.grantAnswer = true) :
    exec .claim s = .next (s.takeGrant.takeLine.complete .ok) := by
  simp only [exec, execClaim, h, State.claimAnswered, hgrant, cond_false, cond_true]

theorem exec_claim_refused (h : s.claimed = false) (hgrant : s.grantAnswer = false) :
    exec .claim s = .next (s.takeGrant.complete .hardwareUnavailable) := by
  simp only [exec, execClaim, h, State.claimAnswered, hgrant, cond_false]

theorem exec_encode_ok (h : bitsInRange b = true) : exec (.encode m b) s = .next ((s.encodeStep m b).complete .ok) := by
  simp only [exec, execEncode, h, cond_true]

theorem exec_transmit_ok (h : s.transmitArgsValid r = true) (hclaimed : s.claimed = true) :
    exec (.transmit r) s = .next (s.startSession r s.env.serving) := by
  simp only [exec, execTransmit, h, hclaimed, Bool.not_true, cond_false]

theorem exec_send_ok (h : sendArgsValid m b r = true) (hclaimed : s.claimed = true) :
    exec (.send m b r) s = .next ((s.encodeStep m b).startSession r s.env.serving) := by
  simp only [exec, execSend, h, hclaimed, Bool.not_true, cond_false]

/-- A refused CLAIM is answered, and uses up the platform's answer, which is no state of the block. -/
theorem State.takeGrant_complete_onlyAnswered (s : State) (code : ResultCode) :
    OnlyAnswered s (s.takeGrant.complete code) code where
  err := rfl
  responded := (s.takeGrant.complete_responded code).of_samePorts ⟨fun _ => rfl, rfl⟩
  session := ⟨rfl, rfl, rfl, rfl, rfl, rfl, rfl, rfl, rfl⟩
  teardown := ⟨rfl, rfl⟩
  line := ⟨rfl, rfl, rfl⟩
  train := ⟨fun _ => rfl, rfl⟩
  base := ⟨rfl, rfl⟩

end Commands

/-! ### The sum of a train (R75 item 5) -/

/-- Each bit of a message adds the two durations of its symbol to the sum of the train, and the sync HIGH closes it. -/
theorem sum_encodeTrain (t : Table) (m : BitVec 32) (n : Nat) :
    ((encodeTrain t m n).map BitVec.toNat).sum =
      ((List.range n).map fun k => (hiUs t (symbolOf t m k)).toNat + (loUs t (symbolOf t m k)).toNat).sum +
        (hiUs t t.sync).toNat := by
  induction n with
  | zero => simp [encodeTrain_zero]
  | succ n ih =>
    simp only [encodeTrain_succ, List.map_cons, List.sum_cons, ih, List.range_succ, List.map_append, List.map_nil,
      List.sum_append, List.sum_nil]
    omega

/-- With the default TABLE every symbol of a message bit takes 1400 microseconds. -/
theorem symbol_duration_default (m : BitVec 32) (k : Nat) :
    (hiUs Table.default (symbolOf Table.default m k)).toNat + (loUs Table.default (symbolOf Table.default m k)).toNat =
      1400 := by
  rw [symbolOf]
  cases m.getLsbD k <;> rfl

end Sys2Proof.Machine

section Commands

open Sys2Proof Sys2Proof.Machine

/-- Settles O14: the line decides, and on an unclaimed line the platform's answer. -/
theorem claimTakesTheLineOrIsRefused : Obligations.ClaimTakesTheLineOrIsRefused := by
  intro s
  by_cases hclaimed : s.claimed = true
  · exact ⟨s.complete .ok, exec_claim_claimed hclaimed, fun _ => ⟨s.complete_onlyAnswered .ok, rfl⟩,
      fun h => by simp [hclaimed] at h, fun h => by simp [hclaimed] at h⟩
  have hfree : s.claimed = false := Bool.eq_false_iff.mpr hclaimed
  by_cases hgrant : s.grantAnswer = true
  · refine ⟨s.takeGrant.takeLine.complete .ok, exec_claim_granted hfree hgrant, fun h => absurd h hclaimed, fun _ _ => ?taken,
      fun _ h => by simp [hgrant] at h⟩
    exact ⟨by simp, by simp, by simp, rfl,
      (s.takeGrant.takeLine.complete_responded .ok).of_samePorts ⟨fun _ => rfl, rfl⟩,
      by constructor <;> simp, by constructor <;> simp, by constructor <;> simp, by constructor <;> simp⟩
  · exact ⟨s.takeGrant.complete .hardwareUnavailable, exec_claim_refused hfree (Bool.eq_false_iff.mpr hgrant),
      fun h => absurd h hclaimed, fun _ h => absurd h hgrant,
      fun _ _ => s.takeGrant_complete_onlyAnswered .hardwareUnavailable⟩

/-- Settles O15: the width decides between the encode step, completed with OK, and the error. -/
theorem encodeWritesTheTrainOrIsRejected : Obligations.EncodeWritesTheTrainOrIsRejected := by
  intro m b s
  by_cases hb : bitsInRange b = true
  · obtain ⟨hlow, hhigh⟩ := (bitsInRange_iff b).mp hb
    obtain ⟨hlength, hentries, habove⟩ := s.encodeStep_trainEncoded m hhigh
    refine ⟨(s.encodeStep m b).complete .ok, exec_encode_ok hb, rfl, fun _ _ => ?_, fun h => by omega⟩
    exact ⟨⟨hlength, hentries, habove⟩, rfl,
      ((s.encodeStep m b).complete_responded .ok).of_samePorts ⟨fun _ => rfl, rfl⟩,
      ⟨rfl, rfl, rfl, rfl, rfl, rfl, rfl, rfl, rfl⟩, ⟨rfl, rfl⟩, ⟨rfl, rfl, rfl⟩, ⟨rfl, rfl⟩⟩
  · refine ⟨s.complete .invalidArgument, exec_encode_invalidArgument (Bool.eq_false_iff.mpr hb), rfl,
      fun hlow hhigh => absurd ((bitsInRange_iff b).mpr ⟨hlow, hhigh⟩) hb, fun _ => s.complete_onlyAnswered .invalidArgument⟩

/-- Settles O16: the arguments are checked before the line (R103). -/
theorem transmitStartsASessionOrIsRejected : Obligations.TransmitStartsASessionOrIsRejected := by
  intro r s
  by_cases hargs : s.transmitArgsValid r = true
  · obtain ⟨hr, hlen⟩ := (s.transmitArgsValid_iff r).mp hargs
    have hnone : ¬(r = 0#16 ∨ s.trainLen = 0#7) := not_or.mpr ⟨hr, hlen⟩
    by_cases hclaimed : s.claimed = true
    · refine ⟨s.startSession r s.env.serving, exec_transmit_ok hargs hclaimed, rfl, fun h => absurd h hnone,
        fun _ _ h => by simp [hclaimed] at h, fun _ _ _ => ⟨?_, ⟨fun _ => rfl, rfl⟩⟩⟩
      exact sessionStarted_of_startSession hclaimed ⟨rfl, rfl, rfl⟩ rfl ⟨rfl, rfl⟩ ⟨fun _ => rfl, rfl⟩ ⟨rfl, rfl⟩
    · exact ⟨s.complete .hardwareUnavailable, exec_transmit_hardwareUnavailable hargs (Bool.eq_false_iff.mpr hclaimed), rfl,
        fun h => absurd h hnone, fun _ _ _ => s.complete_onlyAnswered .hardwareUnavailable,
        fun _ _ h => absurd h hclaimed⟩
  · exact ⟨s.complete .invalidArgument, exec_transmit_invalidArgument (Bool.eq_false_iff.mpr hargs), rfl,
      fun _ => s.complete_onlyAnswered .invalidArgument,
      fun hr hlen => absurd ((s.transmitArgsValid_iff r).mpr ⟨hr, hlen⟩) hargs,
      fun hr hlen => absurd ((s.transmitArgsValid_iff r).mpr ⟨hr, hlen⟩) hargs⟩

/-- Settles O17: the arguments are checked before the line, and both before the train is written (R103). -/
theorem sendStartsASessionOrIsRejected : Obligations.SendStartsASessionOrIsRejected := by
  intro m b r s
  by_cases hargs : sendArgsValid m b r = true
  · obtain ⟨hm, ⟨hlow, hhigh⟩, hr⟩ := (sendArgsValid_iff m b r).mp hargs
    have hnone : ¬(m = 0#32 ∨ b.toNat = 0 ∨ 33 ≤ b.toNat ∨ r = 0#16) := by
      rintro (h | h | h | h)
      · exact hm h
      · omega
      · omega
      · exact hr h
    by_cases hclaimed : s.claimed = true
    · obtain ⟨hlength, hentries, habove⟩ := s.encodeStep_trainEncoded m hhigh
      refine ⟨(s.encodeStep m b).startSession r s.env.serving, exec_send_ok hargs hclaimed, rfl, fun h => absurd h hnone,
        fun _ _ _ _ h => by simp [hclaimed] at h, fun _ _ _ _ _ => ⟨?_, ⟨hlength, hentries, habove⟩⟩⟩
      exact sessionStarted_of_startSession hclaimed ⟨rfl, rfl, rfl⟩ rfl ⟨rfl, rfl⟩ ⟨fun _ => rfl, rfl⟩ ⟨rfl, rfl⟩
    · exact ⟨s.complete .hardwareUnavailable, exec_send_hardwareUnavailable hargs (Bool.eq_false_iff.mpr hclaimed), rfl,
        fun h => absurd h hnone, fun _ _ _ _ _ => s.complete_onlyAnswered .hardwareUnavailable,
        fun _ _ _ _ h => absurd h hclaimed⟩
  · exact ⟨s.complete .invalidArgument, exec_send_invalidArgument (Bool.eq_false_iff.mpr hargs), rfl,
      fun _ => s.complete_onlyAnswered .invalidArgument,
      fun hm hlow hhigh hr => absurd ((sendArgsValid_iff m b r).mpr ⟨hm, ⟨hlow, hhigh⟩, hr⟩) hargs,
      fun hm hlow hhigh hr => absurd ((sendArgsValid_iff m b r).mpr ⟨hm, ⟨hlow, hhigh⟩, hr⟩) hargs⟩

/-- Settles O18: the two writes of TEARDOWN are read off its result. -/
theorem teardownOnlyMarksItselfPending : Obligations.TeardownOnlyMarksItselfPending := fun _ =>
  ⟨_, rfl, rfl, rfl, rfl, rfl, ⟨rfl, rfl, rfl, rfl, rfl, rfl, rfl, rfl, rfl⟩, ⟨rfl, rfl, rfl⟩, ⟨fun _ => rfl, rfl⟩,
    ⟨rfl, rfl⟩, ⟨fun _ => rfl, rfl⟩⟩

/-- Settles O29: the train is told entry by entry, and the step writes no other field. -/
theorem encodeStepWritesOnlyTheTrain : Obligations.EncodeStepWritesOnlyTheTrain := fun s m _ _ hhigh =>
  ⟨s.encodeStep_trainEncoded m hhigh, ⟨rfl, rfl, rfl, rfl, rfl, rfl, rfl, rfl, rfl⟩, ⟨rfl, rfl⟩, ⟨rfl, rfl, rfl⟩, ⟨rfl, rfl⟩,
    ⟨fun _ => rfl, rfl⟩, rfl, fun _ _ => rfl⟩

/-- Settles O30: with the default TABLE the bits of a message add `1400` each, and the sync HIGH adds 350. -/
theorem trainSumsToItsSymbols : Obligations.TrainSumsToItsSymbols := by
  refine ⟨sum_encodeTrain, fun m n => ?_⟩
  have hsync : (hiUs Table.default Table.default.sync).toNat = 350 := rfl
  simp only [sum_encodeTrain, symbol_duration_default, List.map_const', List.sum_replicate, List.length_range, hsync,
    smul_eq_mul]
  omega

end Commands
end

section
/-! SUPPORT. What one step can do, with a name for each case: a command that is accepted, a step of the sequencer, a move of any
agent; and the induction that every invariant of the block uses: an invariant that does not look at the ports is kept by every step
if the commands, the sequencer, TICK and reset keep it. -/

namespace Sys2Proof.Machine

/-! ### The cases of a step -/

/-- The block plays nothing and has no teardown to apply: the condition under which a command other than TEARDOWN is accepted. -/
structure State.AtRest (s : State) : Prop where
  idle : s.st = .idle
  noTeardown : s.tdPending = false

/-- What an accepted command does to the block, `u` being the state in which its acceptance has begun. -/
inductive Accepted (u : State) : State → Prop where
  | answered (code : ResultCode) : u.AtRest → code ≠ .resourceExhausted → Accepted u (u.complete code)
  | claimRefused : u.AtRest → Accepted u (u.takeGrant.complete .hardwareUnavailable)
  | lineTaken : u.AtRest → u.claimed = false → Accepted u (u.takeGrant.takeLine.complete .ok)
  | encoded (m : BitVec 32) (b : BitVec 6) : u.AtRest → bitsInRange b = true →
      Accepted u ((u.encodeStep m b).complete .ok)
  | transmitted (r : BitVec 16) : u.AtRest → r ≠ 0#16 → u.trainLen ≠ 0#7 → u.claimed = true →
      Accepted u (u.startSession r u.env.serving)
  | sent (m : BitVec 32) (b : BitVec 6) (r : BitVec 16) : u.AtRest → bitsInRange b = true → r ≠ 0#16 → u.claimed = true →
      Accepted u ((u.encodeStep m b).startSession r u.env.serving)
  | teardownMarked : u.tdPending = false → Accepted u { u with tdPending := true, tdOwner := u.env.serving }

/-- What the sequencer does on its turn. -/
inductive Sequenced (s : State) : State → Prop where
  | toggled : s.toggleEnabled = true → Sequenced s s.framePollToggle
  | frameEnded : s.frameEndEnabled = true → Sequenced s s.framePollEnd
  | nextFrame : s.gapEndEnabled = true → s.framesDone.toNat < s.repeatTotal.toNat → Sequenced s s.beginFrame
  | sessionEnded : s.gapEndEnabled = true → s.repeatTotal.toNat ≤ s.framesDone.toNat → Sequenced s (s.endSession .ok)
  | tornDown : s.teardownApplyEnabled = true → Sequenced s s.teardownApply
  | nothing : Sequenced s s

/-- What a turn does to the state `s` in which it has been taken. -/
inductive Move (s : State) : Turn → State → Prop where
  | presented (k : Nat) (c : CmdWord) : Move s (.present k c) (s.present k c)
  | held (k : Nat) : (∀ c, s.pendingOf k = some c → s.ready c = false) → Move s (.accept k) s
  | accepted (k : Nat) (c : CmdWord) {t : State} : s.pendingOf k = some c → s.ready c = true →
      Accepted (s.beginAccept k) t → Move s (.accept k) t
  | unread (k : Nat) (a : ReadAddr) : Move s (.read k a) s
  | read (k : Nat) (a : ReadAddr) :
      Move s (.read k a) (((s.serve k).memReadTaken a).logRead a ((s.serve k).memRead a))
  | sequenced {t : State} : Sequenced s t → Move s .sequence t
  | ticked : Move s .tick s.tick
  | reset : Move s .reset s.resetBlock

theorem State.sequencerStep_sequenced (s : State) : Sequenced s s.sequencerStep := by
  obtain ⟨hen, h⟩ | ⟨hen, h⟩ | ⟨hen, hleft, h⟩ | ⟨hen, hdone, h⟩ | ⟨hen, h⟩ | ⟨-, -, -, -, h⟩ := s.sequencerStep_cases <;> rw [h]
  · exact .toggled hen
  · exact .frameEnded hen
  · exact .nextFrame hen hleft
  · exact .sessionEnded hen hdone
  · exact .tornDown hen
  · exact .nothing

/-- R63: a command other than TEARDOWN is accepted at rest only. -/
theorem State.atRest_of_ready {s : State} {c : CmdWord} (hready : s.ready c = true)
    (hne : decodeCommand c ≠ .ok .teardown) : s.AtRest := by
  obtain ⟨htd, hor⟩ := (s.ready_iff c).mp hready
  exact ⟨hor.resolve_left fun hwf => hne ((wfTeardown_iff c).mp hwf), htd⟩

/-- The decoded command of a ready word, executed. -/
theorem accepted_of_exec {u t : State} {c : CmdWord} {i : Instr} (hready : u.ready c = true)
    (hdecode : decodeCommand c = .ok i) (hexec : exec i u = .next t) : Accepted u t := by
  by_cases hi : i = .teardown
  · subst hi
    cases hexec
    exact .teardownMarked ((u.ready_iff c).mp hready).1
  have hrest : u.AtRest := State.atRest_of_ready hready (by simpa [hdecode] using hi)
  have hread : ∀ a, i ≠ .read a := fun a ha => decodeCommand_ne_read c a (ha ▸ hdecode)
  obtain ⟨code, hcode, rfl⟩ | ⟨-, hfree, rfl | rfl⟩ | ⟨m, b, -, hb, rfl⟩ | ⟨r, -, hr, hlen, hclaimed, rfl⟩ |
    ⟨m, b, r, -, -, hb, hr, hclaimed, rfl⟩ | ⟨hteardown, -⟩ := exec_command_cases i u t hread hexec
  · exact .answered code hrest hcode
  · exact .lineTaken hrest hfree
  · exact .claimRefused hrest
  · exact .encoded m b hrest hb
  · exact .transmitted r hrest hr hlen hclaimed
  · exact .sent m b r hrest hb hr hclaimed
  · exact absurd hteardown hi

/-- Every step is a move of the turn it takes. -/
theorem step_move {s t : State} (h : step s = .next t) : Move s.takeTurn s.nextTurn t := by
  obtain ⟨k, c, hturn, rfl⟩ | ⟨k, hturn, hheld, rfl⟩ | ⟨k, c, i, hturn, hpending, hready, hdecode, hexec⟩ |
    ⟨k, c, e, hturn, hpending, hready, hdecode, rfl⟩ | ⟨k, a, hturn, -, rfl⟩ | ⟨k, a, hturn, -, rfl⟩ | ⟨hturn, rfl⟩ |
    ⟨hturn, rfl⟩ | ⟨hturn, rfl⟩ := step_cases s t h <;> rw [hturn]
  · exact .presented k c
  · exact .held k hheld
  · exact .accepted k c hpending hready (accepted_of_exec hready hdecode hexec)
  · have hrest : s.AtRest := State.atRest_of_ready hready (by simp [hdecode])
    exact .accepted k c hpending hready (.answered _ ⟨hrest.idle, hrest.noTeardown⟩ (by decide))
  · exact .unread k a
  · exact .read k a
  · exact .sequenced s.takeTurn.sequencerStep_sequenced
  · exact .ticked
  · exact .reset

/-! ### Invariants of the block -/

/-- The same block beside other requesters, other answered reads and another environment. -/
def State.withPorts (s : State) (rs : List Requester) (ws : List ReadRecord) (e : Environment) : State :=
  { s with requesters := rs, reads := ws, env := e }

/-- An invariant of the block alone: it does not look at the requesters, the answered reads or the environment, and each of the
block's own operations keeps it. -/
structure BlockInvariant (P : State → Prop) : Prop where
  ports : ∀ {s}, P s → ∀ rs ws e, P (s.withPorts rs ws e)
  accepted : ∀ {u t}, P u → Accepted u t → P t
  sequenced : ∀ {s t}, P s → Sequenced s t → P t
  ticked : ∀ {s}, P s → s.urgent = false → P { s with now := s.now + 1 }
  boot : ∀ cfg, P (State.boot cfg)

/-- A read of the read port leaves the block as it was (R99). -/
theorem State.read_eq_withPorts (s : State) (k : Nat) (a : ReadAddr) :
    ∃ rs ws e, ((s.serve k).memReadTaken a).logRead a ((s.serve k).memRead a) = s.withPorts rs ws e := by
  unfold State.memReadTaken State.trainTaken
  cases isTrainWord (readWordIndex a)
  · exact ⟨_, _, _, rfl⟩
  · cases ((s.serve k).train.entry? (readWordIndex a - 64)).isNone <;> exact ⟨_, _, _, rfl⟩

theorem BlockInvariant.move {P : State → Prop} (hP : BlockInvariant P) {s t : State} {turn : Turn} (hs : P s)
    (h : Move s turn t) : P t := by
  cases h with
  | presented k c => exact hP.ports hs _ s.reads s.env
  | held => exact hs
  | accepted k c _ _ hacc => exact hP.accepted (hP.ports hs _ s.reads _) hacc
  | unread => exact hs
  | read k a =>
    obtain ⟨rs, ws, e, heq⟩ := s.read_eq_withPorts k a
    exact heq ▸ hP.ports hs rs ws e
  | sequenced hseq => exact hP.sequenced hs hseq
  | ticked =>
    by_cases hurgent : s.urgent = true
    · rwa [State.tick_of_urgent hurgent]
    · have hnot : s.urgent = false := Bool.eq_false_iff.mpr hurgent
      exact State.tick_of_not_urgent hnot ▸ hP.ticked hs hnot
  | reset => exact hP.ports (hP.boot s.cfg) _ [] s.env

/-- Every step keeps an invariant of the block. -/
theorem BlockInvariant.step {P : State → Prop} (hP : BlockInvariant P) {s t : State} (hs : P s)
    (h : Machine.step s = .next t) : P t :=
  hP.move (hP.ports hs s.requesters s.reads s.takeTurn.env) (step_move h)

end Sys2Proof.Machine
end

section
/-! SUPPORT and THEOREMS. The invariants of the sequencer, the line and the train (spec/10_state.md R44): each operation of the block
keeps them, and so does every step; the canonical form of the train RAM. -/

namespace Sys2Proof.Machine

/-! ### Encoded trains are playable -/

/-- The symbols of the configuration take at least one microsecond in each of their levels (R10, R71). -/
theorem one_le_durations_of_config (cfg : Config) {y : Symbol}
    (hy : y = cfg.table.sync ∨ y = cfg.table.zero ∨ y = cfg.table.one) :
    1 ≤ (hiUs cfg.table y).toNat ∧ 1 ≤ (loUs cfg.table y).toNat := by
  obtain ⟨hunit, hsync, hzero, hone⟩ := cfg.table.valid_iff.mp cfg.tableValid
  obtain rfl | rfl | rfl := hy
  · exact one_le_durations hunit hsync
  · exact one_le_durations hunit hzero
  · exact one_le_durations hunit hone

/-- Every entry of an encoded train is at least 1 (R44 item 7). -/
theorem one_le_of_mem_encodeTrain (cfg : Config) (m : BitVec 32) (n : Nat) {v : Datum}
    (hv : v ∈ encodeTrain cfg.table m n) : 1 ≤ v.toNat := by
  induction n with
  | zero =>
    rw [encodeTrain_zero, List.mem_singleton] at hv
    exact hv ▸ (one_le_durations_of_config cfg (.inl rfl)).1
  | succ n ih =>
    have hsymbol : symbolOf cfg.table m n = cfg.table.zero ∨ symbolOf cfg.table m n = cfg.table.one := by
      rw [symbolOf]
      cases m.getLsbD n
      · exact .inl rfl
      · exact .inr rfl
    obtain ⟨hhigh, hlow⟩ := one_le_durations_of_config cfg (.inr hsymbol)
    rw [encodeTrain_succ, List.mem_cons, List.mem_cons] at hv
    obtain rfl | rfl | hv := hv
    · exact hhigh
    · exact hlow
    · exact ih hv

/-! ### The terms of the invariants -/

theorem levelAt_succ (n : Nat) : levelAt (n + 1) = (levelAt n).flip := by
  obtain h | h := Nat.mod_two_eq_zero_or_one n <;> simp [levelAt, Nat.add_mod, h, Level.flip]

theorem TrainRam.sumTo_succ_of_written {ram : TrainRam} {i : Nat} {v : Datum} (hv : ram.entry? i = some v) :
    ram.sumTo (i + 1) = ram.sumTo i + v.toNat := by
  rw [TrainRam.sumTo, hv, Option.getD_some]

/-! ### Each operation keeps the session invariants -/

section Operations

variable {s : State}

theorem SessionInv.withPorts (h : SessionInv s) (rs : List Requester) (ws : List ReadRecord) (e : Environment) :
    SessionInv (s.withPorts rs ws e) :=
  ⟨h.trainLen, h.written, h.busy, h.quiet, h.index, h.deadline, h.frames, h.framesLeft, h.running⟩

theorem SessionInv.boot (cfg : Config) : SessionInv (State.boot cfg) where
  trainLen := .inl rfl
  written := fun i hi => absurd hi (Nat.not_lt_zero i)
  busy := fun h => absurd rfl h
  quiet := fun _ => rfl
  index := fun h => by simp at h
  deadline := fun h => by simp at h
  frames := Nat.le_refl _
  framesLeft := fun h => by simp at h
  running := fun h => absurd rfl h

/-- The time has no part in the session invariants. -/
theorem SessionInv.withNow (h : SessionInv s) (n : Nat) : SessionInv { s with now := n } :=
  ⟨h.trainLen, h.written, h.busy, h.quiet, h.index, h.deadline, h.frames, h.framesLeft, h.running⟩

/-- In IDLE `err` is free. -/
theorem SessionInv.complete (h : SessionInv s) (hidle : s.st = .idle) (code : ResultCode) : SessionInv (s.complete code) :=
  ⟨h.trainLen, h.written, h.busy, h.quiet, h.index, h.deadline, h.frames, h.framesLeft, fun hbusy => absurd hidle hbusy⟩

theorem SessionInv.takeLine (h : SessionInv s) (hidle : s.st = .idle) : SessionInv s.takeLine :=
  ⟨h.trainLen, h.written, fun hbusy => absurd hidle hbusy, fun _ => rfl, h.index, h.deadline, h.frames, h.framesLeft, h.running⟩

/-- In IDLE the train is free: an encoded train is written in all its entries (R44 items 6 and 7). -/
theorem SessionInv.encodeStep (h : SessionInv s) (hidle : s.st = .idle) (m : BitVec 32) {b : BitVec 6}
    (hb : bitsInRange b = true) : SessionInv (s.encodeStep m b) := by
  obtain ⟨hlow, hhigh⟩ := (bitsInRange_iff b).mp hb
  have henc := s.encodeStep_trainEncoded m hhigh
  have hframe : s.st ≠ .frame := by simp [hidle]
  refine ⟨.inr ⟨b.toNat, hlow, hhigh, henc.length⟩, fun i hi => ?written, fun hbusy => absurd hidle hbusy, h.quiet,
    fun hst => absurd hst hframe, fun hst => absurd hst hframe, h.frames, h.framesLeft, h.running⟩
  rw [henc.length] at hi
  have hlt : i < (encodeTrain s.cfg.table m b.toNat).length := by rwa [encodeTrain_length]
  refine ⟨_, (henc.entries i (Nat.le_of_lt_succ hi)).trans (List.getElem?_eq_getElem hlt), ?_⟩
  exact one_le_of_mem_encodeTrain s.cfg m b.toNat (List.getElem_mem hlt)

/-- A train that is there has 3 to 65 entries (R35). -/
theorem SessionInv.trainLen_bounds (h : SessionInv s) (hlen : s.trainLen ≠ 0#7) :
    3 ≤ s.trainLen.toNat ∧ s.trainLen.toNat ≤ 65 := by
  obtain ⟨b, hlow, hhigh, heq⟩ := h.trainLen.resolve_left hlen
  omega

/-- A frame starts at the first entry of a train that is there, with the line claimed and a repeat left (R79). -/
theorem SessionInv.beginFrame (h : SessionInv s) (hclaimed : s.claimed = true) (hlen : s.trainLen ≠ 0#7)
    (hleft : s.framesDone.toNat < s.repeatTotal.toNat) (herr : s.err = .ok) : SessionInv s.beginFrame where
  trainLen := h.trainLen
  written := h.written
  busy := fun _ => ⟨hclaimed, h.trainLen_bounds hlen⟩
  quiet := fun hst => absurd rfl hst
  index := fun _ => ⟨Nat.zero_le _, rfl⟩
  deadline := fun _ => rfl
  frames := h.frames
  framesLeft := fun _ => hleft
  running := fun _ => herr

theorem SessionInv.startSession (h : SessionInv s) (hidle : s.st = .idle) (hclaimed : s.claimed = true)
    (hlen : s.trainLen ≠ 0#7) {r : BitVec 16} (hr : r ≠ 0#16) (k : Nat) : SessionInv (s.startSession r k) := by
  have hpos : 0 < r.toNat := Nat.pos_of_ne_zero fun h0 => hr (BitVec.eq_of_toNat_eq h0)
  have hframe : s.st ≠ .frame := by simp [hidle]
  have hset : SessionInv { s with repeatTotal := r, framesDone := 0#16, sessOwner := k, err := .ok } :=
    ⟨h.trainLen, h.written, h.busy, h.quiet, h.index, h.deadline, hpos.le, fun hst => absurd hst hframe, fun _ => rfl⟩
  exact hset.beginFrame hclaimed hlen hpos rfl

theorem SessionInv.teardownMarked (h : SessionInv s) (k : Nat) :
    SessionInv { s with tdPending := true, tdOwner := k } :=
  ⟨h.trainLen, h.written, h.busy, h.quiet, h.index, h.deadline, h.frames, h.framesLeft, h.running⟩

theorem SessionInv.framePollToggle (h : SessionInv s) (hen : s.toggleEnabled = true) : SessionInv s.framePollToggle := by
  obtain ⟨hst, hdue, hidx⟩ := s.toggleEnabled_iff.mp hen
  obtain ⟨v, hv, -⟩ := h.written _ hidx
  obtain ⟨-, hlevel⟩ := h.index hst
  have hnext : (s.idx + 1#7).toNat = s.idx.toNat + 1 := toNat_add_one_of_lt hidx
  rw [State.framePollToggle_of_written hv]
  refine ⟨h.trainLen, h.written, h.busy, fun hne => absurd hst hne, fun _ => ⟨?index, ?level⟩, fun _ => ?deadline, h.frames,
    h.framesLeft, h.running⟩
  case index => exact hnext.trans_le hidx
  case level =>
    change s.nextLevel.flip = levelAt (s.idx + 1#7).toNat
    rw [hnext, levelAt_succ, hlevel]
  case deadline =>
    change s.deadline + v.toNat = s.frameStart + s.train.sumTo (s.idx + 1#7).toNat
    rw [hnext, TrainRam.sumTo_succ_of_written hv, h.deadline hst, Nat.add_assoc]

theorem SessionInv.framePollEnd (h : SessionInv s) (hst : s.st = .frame) : SessionInv s.framePollEnd := by
  have hleft := h.framesLeft hst
  have hbusy : s.st ≠ .idle := by simp [hst]
  have hdone : (s.framesDone + 1#16).toNat = s.framesDone.toNat + 1 := toNat_add_one_of_lt hleft
  exact ⟨h.trainLen, h.written, fun _ => h.busy hbusy, fun _ => by simp [(h.busy hbusy).1], fun hframe => by simp at hframe,
    fun hframe => by simp at hframe, hdone.trans_le hleft, fun hframe => by simp at hframe, fun _ => h.running hbusy⟩

theorem SessionInv.endSession (h : SessionInv s) (hst : s.st ≠ .frame) (code : ResultCode) : SessionInv (s.endSession code) :=
  ⟨h.trainLen, h.written, fun hbusy => absurd rfl hbusy, fun _ => h.quiet hst, fun hframe => by simp at hframe,
    fun hframe => by simp at hframe, h.frames, fun hframe => by simp at hframe, fun hbusy => absurd rfl hbusy⟩

theorem SessionInv.teardownApply (h : SessionInv s) (hst : s.st ≠ .frame) : SessionInv s.teardownApply := by
  have hidle : s.teardownApply.st = .idle := State.teardownApply_st_idle hst
  have hframe : s.teardownApply.st ≠ .frame := by rw [hidle]; decide
  have hlow : s.teardownApply.level = .low := by
    rw [s.teardownApply_level, h.quiet hst]
    cases s.claimed <;> rfl
  exact ⟨by simpa using h.trainLen, by simpa using h.written, fun hbusy => absurd hidle hbusy, fun _ => hlow,
    fun h => absurd h hframe, fun h => absurd h hframe, by simpa using h.frames, fun h => absurd h hframe,
    fun hbusy => absurd hidle hbusy⟩

end Operations

/-! ### The session invariants are invariants -/

theorem SessionInv.accepted {u t : State} (h : SessionInv u) (hacc : Accepted u t) : SessionInv t := by
  have hgrant : SessionInv u.takeGrant := h.withPorts u.requesters u.reads _
  cases hacc with
  | answered code hrest => exact h.complete hrest.idle code
  | claimRefused hrest => exact hgrant.complete hrest.idle _
  | lineTaken hrest => exact (hgrant.takeLine hrest.idle).complete hrest.idle _
  | encoded m b hrest hb => exact (h.encodeStep hrest.idle m hb).complete hrest.idle _
  | transmitted r hrest hr hlen hclaimed => exact h.startSession hrest.idle hclaimed hlen hr _
  | sent m b r hrest hb hr hclaimed =>
    have hlen : (u.encodeStep m b).trainLen ≠ 0#7 := fun h0 => by
      have hlength := (u.encodeStep_trainEncoded m ((bitsInRange_iff b).mp hb).2).length
      rw [h0, BitVec.toNat_ofNat] at hlength
      omega
    exact (h.encodeStep hrest.idle m hb).startSession hrest.idle hclaimed hlen hr _
  | teardownMarked => exact h.teardownMarked _

theorem SessionInv.trainLen_ne_zero {s : State} (h : SessionInv s) (hbusy : s.st ≠ .idle) : s.trainLen ≠ 0#7 := fun h0 => by
  have hlow := (h.busy hbusy).2.1
  simp [h0] at hlow

theorem SessionInv.sequenced {s t : State} (h : SessionInv s) (hseq : Sequenced s t) : SessionInv t := by
  cases hseq with
  | toggled hen => exact h.framePollToggle hen
  | frameEnded hen => exact h.framePollEnd (s.frameEndEnabled_iff.mp hen).1
  | nextFrame hen hleft =>
    have hbusy : s.st ≠ .idle := by simp [(s.gapEndEnabled_iff.mp hen).1]
    exact h.beginFrame (h.busy hbusy).1 (h.trainLen_ne_zero hbusy) hleft (h.running hbusy)
  | sessionEnded hen => exact h.endSession (by simp [(s.gapEndEnabled_iff.mp hen).1]) _
  | tornDown hen => exact h.teardownApply (s.teardownApplyEnabled_iff.mp hen).2
  | nothing => exact h

theorem sessionInv_blockInvariant : BlockInvariant SessionInv where
  ports := SessionInv.withPorts
  accepted := SessionInv.accepted
  sequenced := SessionInv.sequenced
  ticked := fun h _ => h.withNow _
  boot := SessionInv.boot

/-! ### The canonical form of the train RAM (R34) -/

/-- An encode step of a width in range writes entries 0 to 64 at most. -/
theorem State.encodeStep_train_wf {s : State} (h : s.train.wf = true) (m : BitVec 32) {b : BitVec 6}
    (hb : bitsInRange b = true) : (s.encodeStep m b).train.wf = true := by
  obtain ⟨-, hhigh⟩ := (bitsInRange_iff b).mp hb
  rw [s.encodeStep_train]
  exact TrainRam.wf_writeFrom _ _ 0 (by rw [encodeTrain_length, trainDepth]; omega) h

theorem train_wf_blockInvariant : BlockInvariant fun s => s.train.wf = true where
  ports := fun h _ _ _ => h
  accepted := fun h hacc => by
    cases hacc with
    | encoded m b _ hb => exact State.encodeStep_train_wf h m hb
    | sent m b _ _ hb => exact State.encodeStep_train_wf h m hb
    | _ => exact h
  sequenced := fun h hseq => by
    cases hseq <;> simpa using h
  ticked := fun h _ => h
  boot := fun _ => rfl

end Sys2Proof.Machine

section SessionInvariants

open Sys2Proof Sys2Proof.Machine

/-- Settles O45: the accepted commands, the sequencer, TICK and reset keep the invariants, and no other move touches the block. -/
theorem stepKeepsSessionInvariants : Obligations.StepKeepsSessionInvariants := fun _ _ => sessionInv_blockInvariant.step

/-- Settles O51: only an encode step writes the train, and it writes entries 0 to 64 at most. -/
theorem stepKeepsTheTrainRamCanonical : Obligations.StepKeepsTheTrainRamCanonical := fun _ _ => train_wf_blockInvariant.step

/-- Settles O52: no operation of the block writes the configuration. -/
theorem configurationNeverChanges : Obligations.ConfigurationNeverChanges := fun _ _ => step_cfg

end SessionInvariants
end

section
/-! SUPPORT and THEOREMS. The line and the time over one step: the line history (spec/60_exceptions.md R111, R112), the clock (R109),
urgency (spec/41_scheduler.md R85), the waveform of a frame (R89, R90), and the sessions that a step leaves running (R87, R88). -/

namespace Sys2Proof.Machine

/-! ### What a step does to the line and to the time -/

/-- The line is not written. -/
def LineKept (s t : State) : Prop := t.level = s.level ∧ t.history = s.history ∧ s.now ≤ t.now

/-- One LineWrite, at the time of the step, on a line that is claimed before the step or after it (R32, R111). -/
def LineWritten (s t : State) : Prop :=
  (s.claimed = true ∨ t.claimed = true) ∧ t.history = s.history ++ [⟨s.now, t.level⟩] ∧ t.now = s.now

/-- An operation that makes one LineWrite of the model writes a claimed line and leaves an unclaimed one as it is. -/
theorem line_of_lineWrite {s t : State} (v : Level) (hlevel : t.level = (s.lineWrite v).level)
    (hhistory : t.history = (s.lineWrite v).history) (hnow : t.now = s.now) : LineKept s t ∨ LineWritten s t := by
  rw [State.lineWrite_level] at hlevel
  rw [State.lineWrite_history] at hhistory
  by_cases hclaimed : s.claimed = true
  · rw [hclaimed, cond_true] at hlevel hhistory
    exact .inr ⟨.inl hclaimed, hlevel ▸ hhistory, hnow⟩
  · rw [Bool.eq_false_iff.mpr hclaimed, cond_false] at hlevel hhistory
    exact .inl ⟨hlevel, hhistory, hnow.ge⟩

theorem Accepted.line {u t : State} (h : Accepted u t) : LineKept u t ∨ LineWritten u t := by
  cases h with
  | lineTaken => exact .inr ⟨.inr rfl, rfl, rfl⟩
  | transmitted => exact line_of_lineWrite .low rfl rfl rfl
  | sent => exact line_of_lineWrite .low rfl rfl rfl
  | _ => exact .inl ⟨rfl, rfl, Nat.le_refl _⟩

theorem Sequenced.line {s t : State} (h : Sequenced s t) : LineKept s t ∨ LineWritten s t := by
  cases h with
  | toggled => exact line_of_lineWrite s.nextLevel (by simp) (by simp) (by simp)
  | frameEnded => exact line_of_lineWrite .low rfl rfl rfl
  | nextFrame => exact line_of_lineWrite .low rfl rfl rfl
  | tornDown => exact line_of_lineWrite .low (by simp) (by simp) (by simp)
  | _ => exact .inl ⟨rfl, rfl, Nat.le_refl _⟩

theorem State.le_tick_now (s : State) : s.now ≤ s.tick.now := by
  rw [State.tick_now]
  cases s.urgent <;> simp

/-- Every step but reset leaves the line alone or makes one LineWrite. -/
theorem step_line {s t : State} (h : step s = .next t) (hreset : s.nextTurn ≠ .reset) : LineKept s t ∨ LineWritten s t := by
  have hmove := step_move h
  generalize s.nextTurn = turn at hmove hreset
  cases hmove with
  | accepted k c _ _ hacc => exact hacc.line
  | read k a => exact .inl ⟨by simp, by simp, by simp⟩
  | sequenced hseq => exact hseq.line
  | ticked => exact .inl ⟨by simp, by simp, s.takeTurn.le_tick_now⟩
  | reset => exact absurd rfl hreset
  | _ => exact .inl ⟨rfl, rfl, Nat.le_refl _⟩

/-- Commands and the sequencer take no time. -/
theorem Accepted.now {u t : State} (h : Accepted u t) : t.now = u.now := by
  cases h <;> rfl

theorem Sequenced.now {s t : State} (h : Sequenced s t) : t.now = s.now := by
  cases h <;> simp

/-! ### The turns of the sequencer and of reset -/

theorem step_of_sequence_turn {s : State} (hturn : s.nextTurn = .sequence) : step s = .next s.takeTurn.sequencerStep := by
  simp only [step, hturn, runTurn]

theorem step_of_reset_turn {s : State} (hturn : s.nextTurn = .reset) : step s = .next s.takeTurn.resetBlock := by
  simp only [step, hturn, runTurn]

/-! ### The line history is an invariant (R33, R112) -/

theorem LineInv.boot (cfg : Config) : LineInv (State.boot cfg) := ⟨.nil, fun w hw => by simp at hw, rfl⟩

theorem LineInv.kept {s t : State} (h : LineInv s) (hline : LineKept s t) : LineInv t := by
  obtain ⟨hlevel, hhistory, hnow⟩ := hline
  refine ⟨?_, fun w hw => ?_, ?_⟩
  · rw [hhistory]
    exact h.ordered
  · rw [hhistory] at hw
    exact (h.past w hw).trans hnow
  · rw [hlevel, hhistory]
    exact h.last

/-- A write at the present time comes after all the writes of the past, and its level is the level of the line. -/
theorem LineInv.written {s t : State} (h : LineInv s) (hline : LineWritten s t) : LineInv t := by
  obtain ⟨-, hhistory, hnow⟩ := hline
  refine ⟨?_, fun w hw => ?_, ?_⟩
  · rw [hhistory, List.pairwise_append]
    refine ⟨h.ordered, List.pairwise_singleton _ _, fun a ha b hb => ?_⟩
    rw [List.mem_singleton] at hb
    exact hb ▸ h.past a ha
  · rw [hhistory, List.mem_append, List.mem_singleton] at hw
    rw [hnow]
    obtain hw | rfl := hw
    · exact h.past w hw
    · exact Nat.le_refl _
  · rw [hhistory, List.getLast?_concat, Option.map_some, Option.getD_some]

theorem LineInv.step {s t : State} (h : LineInv s) (hstep : Machine.step s = .next t) : LineInv t := by
  by_cases hreset : s.nextTurn = .reset
  · rw [step_of_reset_turn hreset, Host.Outcome.next.injEq] at hstep
    obtain ⟨hordered, hpast, hlast⟩ := LineInv.boot s.cfg
    exact hstep ▸ ⟨hordered, hpast, hlast⟩
  · exact (step_line hstep hreset).elim h.kept h.written

/-! ### Urgency keeps the sequencer on time (R85) -/

theorem TimingInv.of_idle {s : State} (hidle : s.st = .idle) : TimingInv s :=
  ⟨fun h => by simp [hidle] at h, fun h => by simp [hidle] at h, fun h => by simp [hidle] at h⟩

/-- A frame starts at its first deadline. -/
theorem TimingInv.beginFrame (s : State) : TimingInv s.beginFrame :=
  ⟨fun _ => Nat.le_refl _, fun _ => Nat.le_add_right _ _, fun h => by simp at h⟩

theorem TimingInv.accepted {u t : State} (h : TimingInv u) (hacc : Accepted u t) : TimingInv t := by
  cases hacc with
  | answered _ hrest => exact .of_idle hrest.idle
  | claimRefused hrest => exact .of_idle hrest.idle
  | lineTaken hrest => exact .of_idle hrest.idle
  | encoded _ _ hrest => exact .of_idle hrest.idle
  | transmitted => exact TimingInv.beginFrame _
  | sent => exact TimingInv.beginFrame _
  | teardownMarked => exact ⟨h.started, h.poll, h.gap⟩

theorem TimingInv.sequenced {s t : State} (h : TimingInv s) (hseq : Sequenced s t) : TimingInv t := by
  cases hseq with
  | toggled hen =>
    have hst := (s.toggleEnabled_iff.mp hen).1
    have hpoll := h.poll hst
    refine ⟨fun _ => by simpa using h.started hst, fun _ => ?_, fun hgap => by simp [hst] at hgap⟩
    rw [State.framePollToggle_now, State.framePollToggle_deadline, State.framePollToggle_cfg]
    omega
  | frameEnded =>
    refine ⟨fun hframe => by simp at hframe, fun hframe => by simp at hframe, fun _ => ?_⟩
    rw [State.framePollEnd_now, State.framePollEnd_gapEnd, Nat.add_assoc]
    exact Nat.le_add_right _ _
  | nextFrame => exact TimingInv.beginFrame s
  | sessionEnded => exact .of_idle rfl
  | tornDown hen => exact .of_idle (State.teardownApply_st_idle (s.teardownApplyEnabled_iff.mp hen).2)
  | nothing => exact h

/-- TICK waits for an urgent step, so the time does not pass the bounds of a frame or of a gap (R109). -/
theorem TimingInv.ticked {s : State} (h : TimingInv s) (hsession : SessionInv s) (hurgent : s.urgent = false) :
    TimingInv { s with now := s.now + 1 } := by
  have hnot := (State.urgent_iff_of_sessionInv hsession).not.mp (by simp [hurgent])
  push Not at hnot
  obtain ⟨hpoll, hgap, htd⟩ := hnot
  refine ⟨fun hst => (h.started hst).trans (Nat.le_succ _), fun hst => hpoll hst, fun hst => ?_⟩
  have hnone : s.tdPending = false := Bool.eq_false_iff.mpr fun hpending => by
    have hframe := htd hpending
    simp [show s.st = .gap from hst] at hframe
  exact Nat.succ_le_of_lt (Nat.lt_of_not_le fun hdue => hgap hst hdue hnone)

theorem timingInv_blockInvariant : BlockInvariant fun s => SessionInv s ∧ TimingInv s where
  ports := fun ⟨hsession, htiming⟩ rs ws e =>
    ⟨hsession.withPorts rs ws e, htiming.started, htiming.poll, htiming.gap⟩
  accepted := fun ⟨hsession, htiming⟩ hacc => ⟨hsession.accepted hacc, htiming.accepted hacc⟩
  sequenced := fun ⟨hsession, htiming⟩ hseq => ⟨hsession.sequenced hseq, htiming.sequenced hseq⟩
  ticked := fun ⟨hsession, htiming⟩ hurgent => ⟨hsession.withNow _, htiming.ticked hsession hurgent⟩
  boot := fun cfg => ⟨.boot cfg, .of_idle rfl⟩

/-! ### The sequencer inside a frame (R82, R83) -/

theorem State.sequencerStep_of_toggleEnabled {s : State} (hen : s.toggleEnabled = true) :
    s.sequencerStep = s.framePollToggle := by
  rw [State.sequencerStep, hen, cond_true]

theorem State.sequencerStep_of_frameEndEnabled {s : State} (hen : s.frameEndEnabled = true) :
    s.sequencerStep = s.framePollEnd := by
  rw [State.sequencerStep, State.toggleEnabled_eq_false_of_frameEndEnabled hen, hen, cond_false, cond_true]

/-- Inside a frame the sequencer takes a branch of FRAME_POLL or nothing. -/
theorem Sequenced.in_frame {s t : State} (h : Sequenced s t) (hst : s.st = .frame) :
    (s.toggleEnabled = true ∧ t = s.framePollToggle) ∨ (s.frameEndEnabled = true ∧ t = s.framePollEnd) ∨ t = s := by
  cases h with
  | toggled hen => exact .inl ⟨hen, rfl⟩
  | frameEnded hen => exact .inr (.inl ⟨hen, rfl⟩)
  | nextFrame hen => simp [(s.gapEndEnabled_iff.mp hen).1] at hst
  | sessionEnded hen => simp [(s.gapEndEnabled_iff.mp hen).1] at hst
  | tornDown hen => exact absurd hst (s.teardownApplyEnabled_iff.mp hen).2
  | nothing => exact .inr (.inr rfl)

theorem step_sequence_in_frame {s t : State} (h : step s = .next t) (hturn : s.nextTurn = .sequence) (hst : s.st = .frame) :
    (s.toggleEnabled = true ∧ t = s.takeTurn.framePollToggle) ∨ (s.frameEndEnabled = true ∧ t = s.takeTurn.framePollEnd) ∨
      t = s.takeTurn := by
  rw [step_of_sequence_turn hturn, Host.Outcome.next.injEq] at h
  exact h ▸ s.takeTurn.sequencerStep_sequenced.in_frame hst

/-! ### The waveform of a frame (R89) -/

theorem TogglesFrom.nil (ram : TrainRam) (start lag : Nat) : TogglesFrom ram start lag [] :=
  fun i w hw => by simp at hw

/-- The next toggle write of a frame, at its level and in its window, continues the waveform. -/
theorem TogglesFrom.append {ram : TrainRam} {start lag : Nat} {ts : List LineWrite} {w : LineWrite}
    (h : TogglesFrom ram start lag ts) (hlevel : w.level = levelAt ts.length)
    (hlow : start + ram.sumTo ts.length ≤ w.time) (hhigh : w.time ≤ start + ram.sumTo ts.length + lag) :
    TogglesFrom ram start lag (ts ++ [w]) := by
  intro i x hx
  obtain hi | rfl | hi := Nat.lt_trichotomy i ts.length
  · rw [List.getElem?_append_left hi] at hx
    exact h i x hx
  · rw [List.getElem?_concat_length, Option.some.injEq] at hx
    exact hx ▸ ⟨hlevel, hlow, hhigh⟩
  · rw [List.getElem?_eq_none (by rw [List.length_append, List.length_singleton]; omega)] at hx
    cases hx

/-- The waveform depends on the entries of the train alone. -/
theorem TogglesFrom.congr {a b : TrainRam} {start lag : Nat} {ts : List LineWrite} (h : TogglesFrom a start lag ts)
    (hentries : ∀ i, b.entry? i = a.entry? i) : TogglesFrom b start lag ts := by
  intro i w hw
  rw [TrainRam.sumTo_congr b a i fun k _ => hentries k]
  exact h i w hw

theorem WaveformInv.of_ne_frame {s : State} (h : s.st ≠ .frame) : WaveformInv s := fun hst => absurd hst h

/-- A frame begins with its forced LOW and no toggle. -/
theorem WaveformInv.of_frameStarted {s t : State} (h : FrameStarted s t) : WaveformInv t := fun _ =>
  ⟨s.history, [], by rw [h.history, h.frameStart], by rw [h.idx]; rfl, TogglesFrom.nil _ _ _⟩

/-- What leaves the line, the session and the train alone leaves the waveform alone. -/
theorem WaveformInv.kept {s t : State} (h : WaveformInv s) (hline : SameLine s t) (hsession : SameSession s t)
    (htrain : SameTrain s t) (hcfg : t.cfg = s.cfg) : WaveformInv t := by
  intro hst
  obtain ⟨before, ts, hhistory, hlength, htoggles⟩ := h (hsession.st ▸ hst)
  refine ⟨before, ts, by rw [hline.history, hsession.frameStart, hhistory], by rw [hsession.idx, hlength], ?_⟩
  rw [hsession.frameStart, hcfg]
  exact htoggles.congr htrain.entries

/-- A toggle of a frame that is on time is the next write of the waveform (R82). -/
theorem WaveformInv.framePollToggle {s : State} (h : WaveformInv s) (hsession : SessionInv s) (htiming : TimingInv s)
    (hen : s.toggleEnabled = true) : WaveformInv s.framePollToggle := by
  intro _
  obtain ⟨hst, hdue, hidx⟩ := s.toggleEnabled_iff.mp hen
  have hbusy : s.st ≠ .idle := by simp [hst]
  obtain ⟨hclaimed, -⟩ := hsession.busy hbusy
  obtain ⟨before, ts, hhistory, hlength, htoggles⟩ := h hst
  have hdeadline := hsession.deadline hst
  refine ⟨before, ts ++ [⟨s.now, s.nextLevel⟩], ?history, ?length, ?toggles⟩
  case history => simp [hclaimed, hhistory]
  case length => rw [List.length_append, hlength, State.framePollToggle_idx, toNat_add_one_of_lt hidx, List.length_singleton]
  case toggles =>
    rw [State.framePollToggle_train, State.framePollToggle_frameStart, State.framePollToggle_cfg]
    refine htoggles.append ?_ ?_ ?_
    · rw [hlength]
      exact (hsession.index hst).2
    · rw [hlength, ← hdeadline]
      exact hdue
    · rw [hlength, ← hdeadline]
      exact htiming.poll hst

theorem WaveformInv.step {s t : State} (hsession : SessionInv s) (htiming : TimingInv s) (h : WaveformInv s)
    (hstep : Machine.step s = .next t) : WaveformInv t := by
  by_cases ht : t.st = .frame
  swap
  · exact .of_ne_frame ht
  by_cases hst : s.st = .frame
  swap
  · exact .of_frameStarted (step_enters_frame hsession hstep hst ht)
  by_cases hreset : s.nextTurn = .reset
  · rw [step_of_reset_turn hreset, Host.Outcome.next.injEq] at hstep
    simp [← hstep] at ht
  by_cases hturn : s.nextTurn = .sequence
  · have hturned : SessionInv s.takeTurn ∧ TimingInv s.takeTurn :=
      timingInv_blockInvariant.ports ⟨hsession, htiming⟩ s.requesters s.reads _
    obtain ⟨hen, rfl⟩ | ⟨-, rfl⟩ | rfl := step_sequence_in_frame hstep hturn hst
    · exact WaveformInv.framePollToggle (s := s.takeTurn) h hturned.1 hturned.2 hen
    · simp at ht
    · exact h
  · obtain ⟨hline, hsess, htrain⟩ := step_in_frame_keeps_session hst hstep hreset hturn
    exact h.kept hline hsess htrain (step_cfg hstep)

/-! ### Sessions (R87, R88) -/

/-- While a session runs, only a TEARDOWN is accepted. -/
theorem Accepted.of_busy {u t : State} (h : Accepted u t) (hbusy : u.st ≠ .idle) :
    t = { u with tdPending := true, tdOwner := u.env.serving } := by
  cases h with
  | teardownMarked => rfl
  | answered _ hrest => exact absurd hrest.idle hbusy
  | claimRefused hrest => exact absurd hrest.idle hbusy
  | lineTaken hrest => exact absurd hrest.idle hbusy
  | encoded _ _ hrest => exact absurd hrest.idle hbusy
  | transmitted _ hrest => exact absurd hrest.idle hbusy
  | sent _ _ _ hrest => exact absurd hrest.idle hbusy

/-- The sequencer that leaves a session running keeps its owner, its count, its line and its train. -/
theorem Sequenced.session {s t : State} (h : Sequenced s t) (ht : t.st ≠ .idle) :
    t.sessOwner = s.sessOwner ∧ t.repeatTotal = s.repeatTotal ∧ t.claimed = s.claimed ∧ t.train = s.train ∧
      t.trainLen = s.trainLen := by
  cases h with
  | sessionEnded => exact absurd rfl ht
  | tornDown hen => exact absurd (State.teardownApply_st_idle (s.teardownApplyEnabled_iff.mp hen).2) ht
  | _ => simp

end Sys2Proof.Machine

section LineAndTime

open Sys2Proof Sys2Proof.Machine

/-- Settles O49: a step that enters FRAME begins a waveform, a toggle continues it, and no other step inside a frame touches it. -/
theorem stepKeepsTheWaveform : Obligations.StepKeepsTheWaveform := fun _ _ => WaveformInv.step

/-- Settles O39: a toggle that is not late moves the deadline into the future, by the entry it consumes. -/
theorem noSecondToggleAtOneInstant : Obligations.NoSecondToggleAtOneInstant := by
  intro s hsession htiming hlag hen
  obtain ⟨hst, hdue, hidx⟩ := s.toggleEnabled_iff.mp hen
  obtain ⟨v, hv, hpos⟩ := hsession.written _ hidx
  have hfuture : ¬s.framePollToggle.deadline ≤ s.framePollToggle.now := by
    have hpoll := htiming.poll hst
    rw [State.framePollToggle_deadline, State.framePollToggle_now, (s.trainValue_written _ v hv).1]
    omega
  rw [State.sequencerStep_of_toggleEnabled hen]
  refine ⟨?_, ?_, ?_, ?_⟩ <;> rw [Bool.eq_false_iff, Ne]
  · rw [State.toggleEnabled_iff]
    exact fun ⟨_, h, _⟩ => hfuture h
  · rw [State.frameEndEnabled_iff]
    exact fun ⟨_, h, _⟩ => hfuture h
  · simp [State.gapEndEnabled_iff, hst]
  · simp [State.teardownApplyEnabled_iff, hst]

/-- Settles O42: in a frame only the sequencer writes the session, and it leaves FRAME by the end branch alone. -/
theorem framesAreNeverCancelled : Obligations.FramesAreNeverCancelled := by
  intro s t hst hstep hreset ht
  have hturn : s.nextTurn = .sequence := by
    by_contra hturn
    exact ht ((step_in_frame_keeps_session hst hstep hreset hturn).2.1.st.trans hst)
  obtain ⟨-, rfl⟩ | ⟨hen, rfl⟩ | rfl := step_sequence_in_frame hstep hturn hst
  · exact absurd (by simpa using hst) ht
  · exact ⟨hturn, hen, rfl, rfl⟩
  · exact absurd hst ht

/-- Settles O43: a running session shuts out every command but TEARDOWN, and the sequencer writes the session's registers only
where it ends the session. -/
theorem sessionsNeverOverlap : Obligations.SessionsNeverOverlap := by
  intro s t hs hstep ht
  have hmove := step_move hstep
  generalize s.nextTurn = turn at hmove
  cases hmove with
  | accepted k c _ _ hacc =>
    obtain rfl := hacc.of_busy hs
    exact ⟨rfl, rfl, rfl, fun _ => rfl, rfl⟩
  | read k a => exact ⟨by simp, by simp, by simp, by simp, by simp⟩
  | sequenced hseq =>
    obtain ⟨howner, htotal, hclaimed, htrain, hlen⟩ := hseq.session ht
    exact ⟨howner, htotal, hclaimed, fun i => by rw [htrain, State.takeTurn_train], hlen⟩
  | ticked => exact ⟨by simp, by simp, by simp, by simp, by simp⟩
  | reset => exact absurd rfl ht
  | _ => exact ⟨rfl, rfl, rfl, fun _ => rfl, rfl⟩

/-- Settles O47: a step leaves the history alone or adds one write at the present time. -/
theorem stepKeepsLineHistoryInvariants : Obligations.StepKeepsLineHistoryInvariants := fun _ _ => LineInv.step

/-- Settles O48: the two invariants together are kept by every step, because TICK waits for the urgent steps. -/
theorem stepKeepsTheSequencerOnTime : Obligations.StepKeepsTheSequencerOnTime := fun _ _ hsession htiming hstep =>
  (timingInv_blockInvariant.step ⟨hsession, htiming⟩ hstep).2

/-- Settles O50: the invariant describes the history up to the end of the train, and the end branch adds the forced LOW at the
present time, which is within the lag of the last deadline. -/
theorem wholeFrameHasItsWaveform : Obligations.WholeFrameHasItsWaveform := by
  intro s t hsession htiming hwave hen hturn hstep
  obtain ⟨hst, hdue, hidx⟩ := s.frameEndEnabled_iff.mp hen
  have hbusy : s.st ≠ .idle := by simp [hst]
  obtain ⟨hclaimed, -⟩ := hsession.busy hbusy
  obtain ⟨before, ts, hhistory, hlength, htoggles⟩ := hwave hst
  have hdeadline := hsession.deadline hst
  rw [step_of_sequence_turn hturn, Host.Outcome.next.injEq,
    State.sequencerStep_of_frameEndEnabled (s := s.takeTurn) hen] at hstep
  subst hstep
  refine ⟨before, ts, s.now, ?_, ?_, htoggles, ?_, ?_⟩
  · simp [hclaimed, hhistory]
  · rw [hlength, hidx]
  · rw [← hidx, ← hdeadline]
    exact hdue
  · rw [← hidx, ← hdeadline]
    exact htiming.poll hst

/-- Settles O54: the time is read off the result of each move. -/
theorem onlyTickAdvancesTime : Obligations.OnlyTickAdvancesTime := by
  intro s t hstep hreset
  have hmove := step_move hstep
  generalize s.nextTurn = turn at hmove hreset
  cases hmove with
  | accepted k c _ _ hacc => exact .inl hacc.now
  | read k a => exact .inl (by simp)
  | sequenced hseq => exact .inl hseq.now
  | ticked =>
    rw [State.tick_now]
    cases s.takeTurn.urgent
    · exact .inr ⟨rfl, rfl⟩
    · exact .inl rfl
  | reset => exact absurd rfl hreset
  | _ => exact .inl rfl

/-- Settles O55: a step adds nothing, or one write at its own time. -/
theorem lineHistoryOnlyGrows : Obligations.LineHistoryOnlyGrows := by
  intro s t hstep hreset
  obtain ⟨-, hhistory, -⟩ | ⟨-, hhistory, -⟩ := step_line hstep hreset
  · exact ⟨[], by rw [hhistory, List.append_nil], fun w hw => by simp at hw⟩
  · exact ⟨_, hhistory, fun w hw => by rw [List.mem_singleton.mp hw]⟩

/-- Settles O56: a LineWrite needs a claimed line, before the step or after it. -/
theorem unclaimedLineIsNotWritten : Obligations.UnclaimedLineIsNotWritten := by
  intro s t hstep hreset hs ht
  obtain ⟨hlevel, hhistory, -⟩ | ⟨hclaimed, -⟩ := step_line hstep hreset
  · exact ⟨hhistory, hlevel⟩
  · simp [hs, ht] at hclaimed

end LineAndTime
end

section
/-! SUPPORT and THEOREMS. The requesters over one step (spec/10_state.md R30, R31, R38, spec/60_exceptions.md R100, R101): who waits,
and for what; the response that ends each waiting; and the invariants of the requesters' side. -/

namespace Sys2Proof.Machine

/-! ### Who waits -/

/-- Requester `h` owns the running session or the pending teardown. -/
def State.Owns (s : State) (h : Nat) : Prop := (s.st ≠ .idle ∧ h = s.sessOwner) ∨ (s.tdPending = true ∧ h = s.tdOwner)

/-- The turn is the acceptance of the command that requester `h` presents, and the command is ready. -/
def State.Accepts (s : State) (turn : Turn) (h : Nat) (r : Requester) : Prop :=
  turn = .accept h ∧ ∃ c, r.pending = some c ∧ s.ready c = true

/-- The same requesters own the session and the teardown, if there are such. -/
structure SameOwners (s t : State) : Prop where
  busy : t.st ≠ .idle ↔ s.st ≠ .idle
  sessOwner : t.sessOwner = s.sessOwner
  tdPending : t.tdPending = s.tdPending
  tdOwner : t.tdOwner = s.tdOwner

theorem SameOwners.owns_iff {s t : State} (h : SameOwners s t) (k : Nat) : t.Owns k ↔ s.Owns k := by
  rw [State.Owns, State.Owns, h.busy, h.sessOwner, h.tdPending, h.tdOwner]

theorem State.AtRest.not_owns {s : State} (h : s.AtRest) (k : Nat) : ¬s.Owns k := by
  simp [State.Owns, h.idle, h.noTeardown]

theorem State.requesterAt_eq_of_requesters {s t : State} (h : t.requesters = s.requesters) (k : Nat) :
    t.requesterAt k = s.requesterAt k := by
  rw [State.requesterAt, State.requesterAt, h]

theorem State.requesterAt_eq_of_modify {s t : State} {j : Nat} {f : Requester → Requester}
    (h : t.requesters = s.requesters.modify j f) (k : Nat) :
    t.requesterAt k = if j = k then (s.requesterAt k).map f else s.requesterAt k :=
  (State.requesterAt_eq_of_requesters (s := { s with requesters := s.requesters.modify j f }) h k).trans
    (s.requesterAt_modify j k f)

theorem State.exists_requesterAt_of_pendingOf {s : State} {k : Nat} {c : CmdWord} (h : s.pendingOf k = some c) :
    ∃ r, s.requesterAt k = some r ∧ r.pending = some c :=
  Option.bind_eq_some_iff.mp h

theorem State.lt_of_pendingOf {s : State} {k : Nat} {c : CmdWord} (h : s.pendingOf k = some c) : k < s.requesters.length := by
  obtain ⟨r, hr, -⟩ := State.exists_requesterAt_of_pendingOf h
  exact (List.getElem?_eq_some_iff.mp hr).1

/-! ### What a step does to the requesters -/

/-- What a turn other than reset does to the requesters and to the owners of the session and the teardown. -/
inductive PortMove (s : State) : Turn → State → Prop where
  /-- no requester is touched, and no command is accepted -/
  | quiet {turn : Turn} {t : State} : SameOwners s t → t.requesters = s.requesters →
      (∀ k, turn = .accept k → ∀ c, s.pendingOf k = some c → s.ready c = false) → PortMove s turn t
  | presented (k : Nat) (c : CmdWord) : PortMove s (.present k c) (s.present k c)
  /-- a command ends at its acceptance -/
  | answered (k : Nat) (c : CmdWord) (code : ResultCode) {t : State} : s.pendingOf k = some c → s.ready c = true →
      code ≠ .resourceExhausted → s.AtRest → t.AtRest →
      t.requesters = s.requesters.modify k (Requester.responded code ∘ Requester.accepted) → PortMove s (.accept k) t
  /-- a session starts -/
  | started (k : Nat) (c : CmdWord) {t : State} : s.pendingOf k = some c → s.ready c = true → s.AtRest → t.st = .frame →
      t.sessOwner = k → t.tdPending = false → t.requesters = s.requesters.modify k Requester.accepted →
      PortMove s (.accept k) t
  /-- a TEARDOWN is accepted -/
  | marked (k : Nat) (c : CmdWord) : s.pendingOf k = some c → s.ready c = true → s.tdPending = false →
      PortMove s (.accept k) (s.teardownAccepted k)
  /-- the last gap of a session ends -/
  | sessionEnded : s.gapEndEnabled = true → PortMove s .sequence (s.endSession .ok)
  | tornDown : s.teardownApplyEnabled = true → PortMove s .sequence s.teardownApply

theorem Accepted.port {s t : State} {k : Nat} {c : CmdWord} (h : Accepted (s.beginAccept k) t)
    (hpending : s.pendingOf k = some c) (hready : s.ready c = true) : PortMove s (.accept k) t := by
  have hs : (s.beginAccept k).AtRest → s.AtRest := fun h => ⟨h.idle, h.noTeardown⟩
  have htwice : ∀ code, (s.requesters.modify k Requester.accepted).modify k (Requester.responded code) =
      s.requesters.modify k (Requester.responded code ∘ Requester.accepted) := fun _ => List.modify_modify_eq ..
  cases h with
  | answered code hrest hcode =>
    exact .answered k c code hpending hready hcode (hs hrest) ⟨hrest.idle, hrest.noTeardown⟩ (htwice code)
  | claimRefused hrest =>
    exact .answered k c _ hpending hready (by decide) (hs hrest) ⟨hrest.idle, hrest.noTeardown⟩ (htwice _)
  | lineTaken hrest =>
    exact .answered k c _ hpending hready (by decide) (hs hrest) ⟨hrest.idle, hrest.noTeardown⟩ (htwice _)
  | encoded m b hrest =>
    exact .answered k c _ hpending hready (by decide) (hs hrest) ⟨hrest.idle, hrest.noTeardown⟩ (htwice _)
  | transmitted r hrest => exact .started k c hpending hready (hs hrest) rfl rfl hrest.noTeardown rfl
  | sent m b r hrest => exact .started k c hpending hready (hs hrest) rfl rfl hrest.noTeardown rfl
  | teardownMarked htd => exact .marked k c hpending hready htd

theorem Sequenced.port {s t : State} (h : Sequenced s t) : PortMove s .sequence t := by
  have hnone : ∀ k, Turn.sequence = .accept k → ∀ c, s.pendingOf k = some c → s.ready c = false := fun k hk => by cases hk
  cases h with
  | toggled hen => exact .quiet ⟨by simp, by simp, by simp, by simp⟩ (by simp) hnone
  | frameEnded hen => exact .quiet ⟨by simp [(s.frameEndEnabled_iff.mp hen).1], rfl, rfl, rfl⟩ rfl hnone
  | nextFrame hen => exact .quiet ⟨by simp [(s.gapEndEnabled_iff.mp hen).1], rfl, rfl, rfl⟩ rfl hnone
  | sessionEnded hen => exact .sessionEnded hen
  | tornDown hen => exact .tornDown hen
  | nothing => exact .quiet ⟨Iff.rfl, rfl, rfl, rfl⟩ rfl hnone

theorem Move.port {s t : State} {turn : Turn} (h : Move s turn t) (hreset : turn ≠ .reset) : PortMove s turn t := by
  cases h with
  | presented k c => exact .presented k c
  | held k hheld =>
    refine .quiet ⟨Iff.rfl, rfl, rfl, rfl⟩ rfl fun j hj => ?_
    cases hj
    exact hheld
  | accepted k c hpending hready hacc => exact hacc.port hpending hready
  | unread k a => exact .quiet ⟨Iff.rfl, rfl, rfl, rfl⟩ rfl fun j hj => by cases hj
  | read k a => exact .quiet ⟨by simp, by simp, by simp, by simp⟩ (by simp) fun j hj => by cases hj
  | sequenced hseq => exact hseq.port
  | ticked => exact .quiet ⟨by simp, by simp, by simp, by simp⟩ (by simp) fun j hj => by cases hj
  | reset => exact absurd rfl hreset

/-! ### One requester over one step (R101) -/

/-- What a step does to requester `h`, which was `r`. -/
inductive Served (s : State) (turn : Turn) (t : State) (h : Nat) (r : Requester) : Requester → Prop where
  /-- no command of it is accepted and it gets no response; if it presents a new word, it is free -/
  | kept (p : Option CmdWord) : ¬s.Accepts turn h r → (t.Owns h ↔ s.Owns h) → (p = r.pending ∨ r.waiting = false) →
      Served s turn t h r { r with pending := p }
  /-- its command is accepted, and it waits -/
  | accepted : s.Accepts turn h r → t.Owns h → Served s turn t h r r.accepted
  /-- it gets the response it has waited for, or that of the command that this step accepts -/
  | answered (p : Option CmdWord) (code : ResultCode) : r.waiting = true ∨ s.Accepts turn h r → code ≠ .resourceExhausted →
      ¬t.Owns h → Served s turn t h r { pending := p, waiting := false, resp := r.resp ++ [code] }

section OneRequester

variable {s t : State} {turn : Turn} {h : Nat} {r : Requester}

/-- A requester that nothing touches. -/
theorem Served.untouched (hacc : ¬s.Accepts turn h r) (howns : t.Owns h ↔ s.Owns h) : Served s turn t h r r :=
  .kept r.pending hacc howns (.inl rfl)

theorem State.not_accepts_of_ne {k : Nat} (hk : k ≠ h) : ¬s.Accepts (.accept k) h r := by
  rintro ⟨hturn, -⟩
  exact hk (Turn.accept.inj hturn)

theorem State.accepts_of_ready {c : CmdWord} (hr : s.requesterAt h = some r) (hpending : s.pendingOf h = some c)
    (hready : s.ready c = true) : s.Accepts (.accept h) h r :=
  ⟨rfl, c, (State.pendingOf_of_requesterAt hr).symm.trans hpending, hready⟩

theorem State.not_accepts_sequence : ¬s.Accepts .sequence h r := by
  rintro ⟨hturn, -⟩
  cases hturn

theorem State.teardownResult_ne (s : State) : s.teardownResult ≠ .resourceExhausted := by
  rw [State.teardownResult]
  cases s.framesLeft <;> decide

/-- Every step serves every requester in one of three ways. -/
theorem PortMove.served (hport : PortInv s) (hmove : PortMove s turn t) (hr : s.requesterAt h = some r) :
    ∃ r', t.requesterAt h = some r' ∧ Served s turn t h r r' := by
  have hwaits : s.Owns h → r.waiting = true := (hport.waiting h r hr).mpr
  cases hmove with
  | quiet howners hreqs hheld =>
    refine ⟨r, (State.requesterAt_eq_of_requesters hreqs h).trans hr, .untouched ?_ (howners.owns_iff h)⟩
    rintro ⟨hturn, c, hc, hready⟩
    simp [hheld h hturn c ((State.pendingOf_of_requesterAt hr).trans hc)] at hready
  | presented k c =>
    have hnot : ¬s.Accepts (.present k c) h r := by
      rintro ⟨hturn, -⟩
      cases hturn
    rw [State.requesterAt_present, hr]
    split
    next hk =>
      refine ⟨_, rfl, ?_⟩
      by_cases hfree : r.pending = none ∧ r.waiting = false
      · rw [Requester.presenting_of_free hfree.1 hfree.2]
        exact .kept (some c) hnot Iff.rfl (.inr hfree.2)
      · rw [Requester.presenting_of_busy (by simpa [-not_and, not_and_or] using hfree)]
        exact .untouched hnot Iff.rfl
    next hk => exact ⟨r, rfl, .untouched hnot Iff.rfl⟩
  | answered k c code hpending hready hcode hs ht hreqs =>
    rw [State.requesterAt_eq_of_modify hreqs, hr]
    split
    next hk =>
      subst hk
      exact ⟨_, rfl, .answered none code (.inr (State.accepts_of_ready hr hpending hready)) hcode (ht.not_owns _)⟩
    next hk =>
      exact ⟨r, rfl, .untouched (State.not_accepts_of_ne hk) (iff_of_false (ht.not_owns h) (hs.not_owns h))⟩
  | started k c hpending hready hs hst howner htd hreqs =>
    rw [State.requesterAt_eq_of_modify hreqs, hr]
    split
    next hk =>
      subst hk
      exact ⟨_, rfl, .accepted (State.accepts_of_ready hr hpending hready) (.inl ⟨by simp [hst], howner.symm⟩)⟩
    next hk =>
      have hnot : ¬t.Owns h := by simp [State.Owns, htd, howner, Ne.symm hk]
      exact ⟨r, rfl, .untouched (State.not_accepts_of_ne hk) (iff_of_false hnot (hs.not_owns h))⟩
  | marked k c hpending hready htd =>
    rw [State.requesterAt_teardownAccepted, hr]
    split
    next hk =>
      subst hk
      exact ⟨_, rfl, .accepted (State.accepts_of_ready hr hpending hready) (.inr ⟨rfl, rfl⟩)⟩
    next hk =>
      have howns : (s.teardownAccepted k).Owns h ↔ s.Owns h := by
        simp [State.Owns, State.teardownAccepted, htd, Ne.symm hk]
      exact ⟨r, rfl, .untouched (State.not_accepts_of_ne hk) howns⟩
  | sessionEnded hen =>
    obtain ⟨hst, -, htd⟩ := s.gapEndEnabled_iff.mp hen
    have hrest : (s.endSession .ok).AtRest := ⟨rfl, htd⟩
    by_cases hk : h = s.sessOwner
    · have howns : s.Owns h := .inl ⟨by simp [hst], hk⟩
      refine ⟨_, ?_, .answered r.pending .ok (.inl (hwaits howns)) (by decide) (hrest.not_owns h)⟩
      rw [hk, (s.endSession_responded .ok).owner, ← hk, hr, Option.map_some]
    · have hnot : ¬s.Owns h := by simp [State.Owns, htd, hk]
      exact ⟨r, ((s.endSession_responded .ok).others h hk).trans hr,
        .untouched State.not_accepts_sequence (iff_of_false (hrest.not_owns h) hnot)⟩
  | tornDown hen =>
    obtain ⟨htd, hst⟩ := s.teardownApplyEnabled_iff.mp hen
    have hrest : s.teardownApply.AtRest := ⟨State.teardownApply_st_idle hst, s.teardownApply_tdPending⟩
    have hdiffer : s.st = .gap → s.sessOwner ≠ s.tdOwner := fun hgap => hport.ownersDiffer (by simp [hgap]) htd
    by_cases hk : h = s.tdOwner
    · refine ⟨_, ?_, .answered r.pending .ok (.inl (hwaits (.inr ⟨htd, hk⟩))) (by decide) (hrest.not_owns h)⟩
      rw [hk, State.requesterAt_teardownApply_tdOwner fun hgap => (hdiffer hgap).symm, ← hk, hr, Option.map_some,
        Requester.responded]
    by_cases hsess : s.st = .gap ∧ h = s.sessOwner
    · obtain ⟨hgap, hk'⟩ := hsess
      have howns : s.Owns h := .inl ⟨by simp [hgap], hk'⟩
      refine ⟨_, ?_, .answered r.pending _ (.inl (hwaits howns)) s.teardownResult_ne (hrest.not_owns h)⟩
      rw [hk', State.requesterAt_teardownApply_sessOwner hgap (hdiffer hgap), ← hk', hr, Option.map_some,
        Requester.responded]
    · have hnot : ¬s.Owns h := by
        rintro (⟨hbusy, hk'⟩ | ⟨-, hk'⟩)
        · exact hsess ⟨((s.st.ne_frame_iff.mp hst).resolve_left hbusy), hk'⟩
        · exact hk hk'
      refine ⟨r, ?_, .untouched State.not_accepts_sequence (iff_of_false (hrest.not_owns h) hnot)⟩
      rw [State.requesterAt_teardownApply_of_ne hk fun hgap hk' => hsess ⟨hgap, hk'⟩, hr]

end OneRequester

/-! ### The invariants of the requesters' side (R38, R100, R101) -/

/-- RESOURCE_EXHAUSTED never comes into STATUS.ERR (R100). -/
theorem err_blockInvariant : BlockInvariant fun s => s.err ≠ .resourceExhausted where
  ports := fun h _ _ _ => h
  accepted := fun h hacc => by
    cases hacc with
    | answered code _ hcode => exact hcode
    | teardownMarked => exact h
    | _ => simp
  sequenced := fun {s _} h hseq => by
    cases hseq with
    | sessionEnded => simp
    | tornDown =>
      rw [s.teardownApply_err]
      cases s.st == .gap
      · exact h
      · exact s.teardownResult_ne
    | _ => simpa using h
  ticked := fun h _ => h
  boot := fun _ => by simp

section Owners

variable {s t : State} {turn : Turn}

theorem PortMove.length_eq (hmove : PortMove s turn t) : t.requesters.length = s.requesters.length := by
  cases hmove with
  | quiet _ hreqs => rw [hreqs]
  | presented k c => simp
  | answered k c code _ _ _ _ _ hreqs => rw [hreqs, List.length_modify]
  | started k c _ _ _ _ _ _ hreqs => rw [hreqs, List.length_modify]
  | marked k c => simp [State.teardownAccepted]
  | sessionEnded => simp
  | tornDown => rw [s.teardownApply_requesters, s.abandonSession_requesters]; cases s.st == .gap <;> simp

/-- A running session has had its owner before the step, or the step starts it for the requester whose command it accepts. -/
theorem PortMove.sessionOwner_cases (hmove : PortMove s turn t) (hbusy : t.st ≠ .idle) :
    (s.st ≠ .idle ∧ t.sessOwner = s.sessOwner) ∨ (t.tdPending = false ∧ ∃ c, s.pendingOf t.sessOwner = some c) := by
  cases hmove with
  | quiet howners => exact .inl ⟨howners.busy.mp hbusy, howners.sessOwner⟩
  | presented k c => exact .inl ⟨hbusy, rfl⟩
  | answered k c code _ _ _ _ ht => exact absurd ht.idle hbusy
  | started k c hpending _ _ _ howner htd => exact .inr ⟨htd, c, howner ▸ hpending⟩
  | marked k c => exact .inl ⟨hbusy, rfl⟩
  | sessionEnded => exact absurd rfl hbusy
  | tornDown hen => exact absurd (State.teardownApply_st_idle (s.teardownApplyEnabled_iff.mp hen).2) hbusy

/-- A pending teardown has had its owner before the step, or the step accepts it beside the session as it is. -/
theorem PortMove.teardownOwner_cases (hmove : PortMove s turn t) (htd : t.tdPending = true) :
    (s.tdPending = true ∧ t.tdOwner = s.tdOwner) ∨ ∃ c, s.pendingOf t.tdOwner = some c := by
  cases hmove with
  | quiet howners => exact .inl ⟨howners.tdPending ▸ htd, howners.tdOwner⟩
  | presented k c => exact .inl ⟨htd, rfl⟩
  | answered k c code _ _ _ _ ht => simp [ht.noTeardown] at htd
  | started k c _ _ _ _ _ hnone => simp [hnone] at htd
  | marked k c hpending => exact .inr ⟨c, hpending⟩
  | sessionEnded hen => exact .inl ⟨htd, rfl⟩
  | tornDown => simp at htd

/-- A requester that presents a command owns nothing: it does not wait (R38). -/
theorem PortInv.not_owns_of_pendingOf (h : PortInv s) {k : Nat} {c : CmdWord} (hpending : s.pendingOf k = some c) :
    ¬s.Owns k := fun howns => by
  obtain ⟨r, hr, hc⟩ := State.exists_requesterAt_of_pendingOf hpending
  have hidle := h.presenting k r hr (by simp [hc])
  simp [(h.waiting k r hr).mpr howns] at hidle

theorem PortInv.move (h : PortInv s) (hmove : PortMove s turn t) (hcfg : t.cfg = s.cfg)
    (herr : t.err ≠ .resourceExhausted) : PortInv t := by
  have hserved : ∀ k r', t.requesterAt k = some r' → ∃ r, s.requesterAt k = some r ∧ Served s turn t k r r' := by
    intro k r' hr'
    have hlt : k < s.requesters.length := hmove.length_eq ▸ (List.getElem?_eq_some_iff.mp hr').1
    obtain ⟨r'', hr'', hserved⟩ := hmove.served h (List.getElem?_eq_getElem hlt)
    obtain rfl := Option.some.inj (hr'.symm.trans hr'')
    exact ⟨_, List.getElem?_eq_getElem hlt, hserved⟩
  refine ⟨?count, fun hbusy => ?sessionOwner, fun htd => ?teardownOwner, fun hbusy htd => ?ownersDiffer,
    fun k r' hr' => ?waiting, fun k r' hr' hp => ?presenting, fun k r' hr' => ?codes, herr⟩
  case count => rw [hmove.length_eq, hcfg, h.count]
  case sessionOwner =>
    rw [hmove.length_eq]
    obtain ⟨hs, howner⟩ | ⟨-, c, hpending⟩ := hmove.sessionOwner_cases hbusy
    · exact howner ▸ h.sessionOwner hs
    · exact State.lt_of_pendingOf hpending
  case teardownOwner =>
    rw [hmove.length_eq]
    obtain ⟨hs, howner⟩ | ⟨c, hpending⟩ := hmove.teardownOwner_cases htd
    · exact howner ▸ h.teardownOwner hs
    · exact State.lt_of_pendingOf hpending
  case ownersDiffer =>
    obtain ⟨hs, hsess⟩ | ⟨hnone, -⟩ := hmove.sessionOwner_cases hbusy
    · obtain ⟨hs', htdo⟩ | ⟨c, hpending⟩ := hmove.teardownOwner_cases htd
      · rw [hsess, htdo]
        exact h.ownersDiffer hs hs'
      · exact fun heq => h.not_owns_of_pendingOf hpending (.inl ⟨hs, heq.symm.trans hsess⟩)
    · simp [hnone] at htd
  case waiting =>
    obtain ⟨r, hr, hserved⟩ := hserved k r' hr'
    cases hserved with
    | kept p _ howns => exact (h.waiting k r hr).trans howns.symm
    | accepted _ howns => exact iff_of_true rfl howns
    | answered p code _ _ howns => exact iff_of_false Bool.false_ne_true howns
  case presenting =>
    obtain ⟨r, hr, hserved⟩ := hserved k r' hr'
    cases hserved with
    | kept p _ _ hfree =>
      obtain rfl | hfree := hfree
      · exact h.presenting k r hr hp
      · exact hfree
    | accepted => exact absurd rfl hp
    | answered => rfl
  case codes =>
    obtain ⟨r, hr, hserved⟩ := hserved k r' hr'
    have hold := h.codes k r hr
    cases hserved with
    | kept => exact hold
    | accepted => exact hold
    | answered p code _ hcode =>
      rw [List.mem_append, List.mem_singleton]
      exact not_or.mpr ⟨hold, hcode.symm⟩

/-- The environment has no part in the invariants of the requesters. -/
theorem PortInv.withEnv (h : PortInv s) (e : Environment) : PortInv { s with env := e } :=
  ⟨h.count, h.sessionOwner, h.teardownOwner, h.ownersDiffer, h.waiting, h.presenting, h.codes, h.errCode⟩

theorem PortInv.boot (cfg : Config) : PortInv (State.boot cfg) := by
  have hreset : ∀ k r, (State.boot cfg).requesterAt k = some r → r = Requester.reset := fun k r hr =>
    List.eq_of_mem_replicate (List.mem_of_getElem? hr)
  refine ⟨List.length_replicate, fun h => absurd rfl h, fun h => by simp at h, fun h => absurd rfl h, fun k r hr => ?_,
    fun k r hr _ => hreset k r hr ▸ rfl, fun k r hr => hreset k r hr ▸ List.not_mem_nil, by simp⟩
  rw [hreset k r hr]
  exact iff_of_false Bool.false_ne_true (State.AtRest.not_owns ⟨rfl, rfl⟩ k)

theorem PortInv.step (h : PortInv s) (hstep : Machine.step s = .next t) : PortInv t := by
  by_cases hreset : s.nextTurn = .reset
  · rw [step_of_reset_turn hreset, Host.Outcome.next.injEq] at hstep
    exact hstep ▸ (PortInv.boot s.cfg).withEnv s.takeTurn.env
  · have hcfg := step_cfg hstep
    exact PortInv.move (s := s.takeTurn) (h.withEnv _) ((step_move hstep).port hreset) hcfg
      (err_blockInvariant.step h.errCode hstep)

end Owners

end Sys2Proof.Machine

section Requesters

open Sys2Proof Sys2Proof.Machine

/-- Settles O46: each requester is served in one of three ways, each of which leaves it waiting exactly when it owns the session or
the teardown after the step. -/
theorem stepKeepsPortInvariants : Obligations.StepKeepsPortInvariants := fun _ _ => PortInv.step

/-- Settles O53: a requester that is kept waits on, one whose command is accepted begins to wait, and one that is answered has
waited. -/
theorem eachCommandGetsOneResponse : Obligations.EachCommandGetsOneResponse := by
  intro s t hport hstep hreset h r hr
  have hturned : PortInv s.takeTurn := hport.withEnv _
  obtain ⟨r', hr', hserved⟩ := ((step_move hstep).port hreset).served hturned hr
  refine ⟨r', hr', fun hwaits => ?waits, fun hidle => ?idle⟩
  case waits =>
    cases hserved with
    | kept p hnot => exact .inl ⟨hwaits.resolve_right hnot, rfl⟩
    | accepted => exact .inl ⟨rfl, rfl⟩
    | answered p code => exact .inr ⟨rfl, code, rfl⟩
  case idle =>
    cases hserved with
    | kept p => exact ⟨Bool.eq_false_iff.mpr fun hw => hidle (.inl hw), rfl⟩
    | accepted hacc => exact absurd (.inr hacc) hidle
    | answered p code hwaited => exact absurd hwaited hidle

/-- Settles O44: in IDLE, with no train, no repeats and no write, every invariant holds at once. -/
theorem invariantsHoldAtReset : Obligations.InvariantsHoldAtReset := fun cfg =>
  ⟨.boot cfg, .boot cfg, .boot cfg, .of_idle rfl, .of_ne_frame (by simp), rfl⟩

end Requesters
end

section
/-! SUPPORT and THEOREMS. Completion (spec/41_scheduler.md R84, R87, R89, R92): the sequencer and the clock alone play a frame to its
end branch and a session to its last gap. -/

namespace Sys2Proof.Machine

/-! ### Runs of the sequencer and the clock -/

/-- One step of the sequencer or of the clock, whoever else has turns to come. -/
def PlayStep (s t : State) : Prop := t = s.sequencerStep ∨ t = s.tick

/-- A run of the sequencer and the clock. -/
abbrev Plays : State → State → Prop := Relation.ReflTransGen PlayStep

section Agenda

variable (s : State) (turns : List Turn)

theorem State.withAgenda_cond (b : Bool) (t : State) :
    (bif b then s else t).withAgenda turns = bif b then s.withAgenda turns else t.withAgenda turns := by
  cases b <;> rfl

theorem State.trainTaken_withAgenda (i : Nat) : (s.withAgenda turns).trainTaken i = (s.trainTaken i).withAgenda turns := by
  rw [State.trainTaken, State.trainTaken, State.withAgenda_cond]
  rfl

theorem State.framePollToggle_withAgenda :
    (s.withAgenda turns).framePollToggle = s.framePollToggle.withAgenda turns := by
  simp only [State.framePollToggle, State.trainTaken_withAgenda]
  rfl

theorem State.gapEndStep_withAgenda : (s.withAgenda turns).gapEndStep = s.gapEndStep.withAgenda turns := by
  rw [State.gapEndStep, State.gapEndStep, State.withAgenda_cond]
  rfl

theorem State.teardownApply_withAgenda : (s.withAgenda turns).teardownApply = s.teardownApply.withAgenda turns := by
  have habandon : (s.withAgenda turns).abandonSession = s.abandonSession.withAgenda turns := by
    rw [State.abandonSession, State.abandonSession, State.withAgenda_cond]
    rfl
  have hrelease : ∀ u : State, (u.withAgenda turns).releaseLine = u.releaseLine.withAgenda turns := fun u => by
    rw [State.releaseLine, State.releaseLine, State.withAgenda_cond]
    rfl
  simp only [State.teardownApply, habandon, hrelease]
  rfl

/-- The turns to come have no part in what the sequencer does. -/
theorem State.sequencerStep_withAgenda : (s.withAgenda turns).sequencerStep = s.sequencerStep.withAgenda turns := by
  simp only [State.sequencerStep, State.withAgenda_cond, ← State.framePollToggle_withAgenda, ← State.gapEndStep_withAgenda,
    ← State.teardownApply_withAgenda]
  rfl

theorem State.tick_withAgenda : (s.withAgenda turns).tick = s.tick.withAgenda turns := by
  rw [State.tick, State.tick, State.withAgenda_cond]
  rfl

end Agenda

theorem run_succ_of_step {M : Host.Core} {k : Nat} {s t : M.State} (h : M.step s = .next t) :
    M.run (k + 1) s = M.run k t := by
  simp only [Host.Core.run, h]

/-- A run of the sequencer and the clock is a run of the machine, for an agenda that gives the turns to these two. -/
theorem exists_run_of_plays {s t : State} (h : Plays s t) :
    ∃ turns, (∀ u, u ∈ turns → u = .sequence ∨ u = .tick) ∧
      Host.Core.run Sys2Proof.core turns.length (s.withAgenda turns) = .next (t.withAgenda []) := by
  induction h using Relation.ReflTransGen.head_induction_on with
  | refl => exact ⟨[], fun u hu => by simp at hu, rfl⟩
  | @head s u hstep _ ih =>
    obtain ⟨turns, hturns, hrun⟩ := ih
    obtain ⟨turn, hturn, hnext⟩ : ∃ turn, (turn = .sequence ∨ turn = .tick) ∧
        step (s.withAgenda (turn :: turns)) = .next (u.withAgenda turns) := by
      obtain rfl | rfl := hstep
      · exact ⟨.sequence, .inl rfl, (step_sequence rfl).trans (congrArg _ (s.sequencerStep_withAgenda turns))⟩
      · exact ⟨.tick, .inr rfl, (step_tick rfl).trans (congrArg _ (s.tick_withAgenda turns))⟩
    refine ⟨turn :: turns, fun v hv => ?_, ?_⟩
    · obtain rfl | hv := List.mem_cons.mp hv
      · exact hturn
      · exact hturns v hv
    · exact (run_succ_of_step (M := Sys2Proof.core) hnext).trans hrun

/-! ### Waiting for the next step of the sequencer -/

/-- The same state `n` microseconds later. -/
def State.later (s : State) (n : Nat) : State := { s with now := s.now + n }

/-- The clock runs on while no step is urgent. -/
theorem plays_later {s : State} (n : Nat) (hquiet : ∀ k < n, (s.later k).urgent = false) : Plays s (s.later n) := by
  induction n with
  | zero => exact .refl
  | succ n ih =>
    have htick : s.later (n + 1) = (s.later n).tick := by
      rw [State.tick_of_not_urgent (hquiet n (Nat.lt_succ_self n))]
      rfl
    exact (ih fun k hk => hquiet k (Nat.lt_succ_of_lt hk)).tail (.inr htick)

theorem State.not_urgent_before_deadline {s : State} (hst : s.st = .frame) (h : s.now < s.deadline) : s.urgent = false := by
  rw [Bool.eq_false_iff, Ne, s.urgent_iff, s.gapEndEnabled_iff, s.teardownApplyEnabled_iff]
  rintro (⟨-, hlate⟩ | ⟨hgap, -⟩ | ⟨-, hframe⟩)
  · omega
  · simp [hst] at hgap
  · exact hframe hst

theorem State.not_urgent_before_gapEnd {s : State} (hst : s.st = .gap) (htd : s.tdPending = false) (h : s.now < s.gapEnd) :
    s.urgent = false := by
  obtain ⟨htoggle, hend⟩ := State.framePoll_disabled_in_gap hst
  rw [Bool.eq_false_iff, Ne, s.urgent_iff, htoggle, hend, s.gapEndEnabled_iff, s.teardownApplyEnabled_iff, htd]
  rintro (⟨hen, -⟩ | ⟨-, hdue, -⟩ | ⟨hen, -⟩)
  · simp at hen
  · omega
  · simp at hen

/-- In a frame the clock reaches the deadline, unless it has passed it. -/
theorem plays_to_deadline {s : State} (hst : s.st = .frame) : Plays s (s.later (s.deadline - s.now)) :=
  plays_later _ fun k hk => State.not_urgent_before_deadline (s := s.later k) hst (Nat.add_lt_of_lt_sub' hk)

/-- In a gap without a teardown the clock reaches the end of the gap, unless it has passed it. -/
theorem plays_to_gapEnd {s : State} (hst : s.st = .gap) (htd : s.tdPending = false) : Plays s (s.later (s.gapEnd - s.now)) :=
  plays_later _ fun k hk => State.not_urgent_before_gapEnd (s := s.later k) hst htd (Nat.add_lt_of_lt_sub' hk)

/-! ### What a session keeps while it plays -/

/-- The session, the train, the teardown mark and the requesters are as they were. -/
structure SamePlay (s t : State) : Prop where
  repeatTotal : t.repeatTotal = s.repeatTotal
  sessOwner : t.sessOwner = s.sessOwner
  tdPending : t.tdPending = s.tdPending
  train : t.train = s.train
  trainLen : t.trainLen = s.trainLen
  requesters : t.requesters = s.requesters
  reads : t.reads = s.reads

theorem SamePlay.trans {s t u : State} (h : SamePlay s t) (h' : SamePlay t u) : SamePlay s u := by
  constructor
  · rw [h'.repeatTotal, h.repeatTotal]
  · rw [h'.sessOwner, h.sessOwner]
  · rw [h'.tdPending, h.tdPending]
  · rw [h'.train, h.train]
  · rw [h'.trainLen, h.trainLen]
  · rw [h'.requesters, h.requesters]
  · rw [h'.reads, h.reads]

theorem samePlay_later (s : State) (n : Nat) : SamePlay s (s.later n) := ⟨rfl, rfl, rfl, rfl, rfl, rfl, rfl⟩

theorem samePlay_framePollToggle (s : State) : SamePlay s s.framePollToggle := by constructor <;> simp

theorem samePlay_framePollEnd (s : State) : SamePlay s s.framePollEnd := ⟨rfl, rfl, rfl, rfl, rfl, rfl, rfl⟩

theorem samePlay_beginFrame (s : State) : SamePlay s s.beginFrame := ⟨rfl, rfl, rfl, rfl, rfl, rfl, rfl⟩

/-! ### A frame to its end branch (R87, R89) -/

theorem TrainRam.sumTo_mono (ram : TrainRam) {i j : Nat} (h : i ≤ j) : ram.sumTo i ≤ ram.sumTo j := by
  induction j, h using Nat.le_induction with
  | base => exact Nat.le_refl _
  | succ j _ ih => exact ih.trans (Nat.le_add_right _ _)

theorem plays_sequencer {s t u : State} (h : Plays s t) (hu : t.sequencerStep = u) : Plays s u := h.tail (.inl hu.symm)

/-- The end of a played frame: the gap is open, one more frame is done, and the time is that of the last deadline of the train, or
the present if that was late. -/
structure FramePlayed (s t : State) : Prop where
  plays : Plays s t
  inv : SessionInv t
  st : t.st = .gap
  framesDone : t.framesDone.toNat = s.framesDone.toNat + 1
  now : t.now = max s.now (s.frameStart + s.train.sumTo s.trainLen.toNat)
  same : SamePlay s t

/-- The state at the deadline of the frame, or now if the deadline has passed. -/
def State.atDeadline (s : State) : State := s.later (s.deadline - s.now)

theorem State.atDeadline_now (s : State) : s.atDeadline.now = max s.now s.deadline := by
  have hnow : s.atDeadline.now = s.now + (s.deadline - s.now) := rfl
  omega

theorem State.deadline_le_atDeadline_now (s : State) : s.deadline ≤ s.atDeadline.now :=
  s.atDeadline_now ▸ Nat.le_max_right ..

/-- At the end of the train the frame waits for its last deadline and ends. -/
theorem framePlayed_of_trainEnd {s : State} (h : SessionInv s) (hst : s.st = .frame) (hidx : s.idx = s.trainLen) :
    FramePlayed s s.atDeadline.framePollEnd := by
  have hen : s.atDeadline.frameEndEnabled = true :=
    (State.frameEndEnabled_iff _).mpr ⟨hst, s.deadline_le_atDeadline_now, hidx⟩
  refine ⟨plays_sequencer (plays_to_deadline hst) (State.sequencerStep_of_frameEndEnabled hen),
    (h.withNow _).framePollEnd hst, rfl, toNat_add_one_of_lt (h.framesLeft hst), ?_,
    (samePlay_later s _).trans (samePlay_framePollEnd _)⟩
  rw [State.framePollEnd_now, s.atDeadline_now, h.deadline hst, hidx]

/-- Before the end of the train the frame waits for its deadline and toggles. -/
theorem plays_toggle {s : State} (hst : s.st = .frame) (hidx : s.idx.toNat < s.trainLen.toNat) :
    s.atDeadline.toggleEnabled = true ∧ Plays s s.atDeadline.framePollToggle := by
  have hen : s.atDeadline.toggleEnabled = true :=
    (State.toggleEnabled_iff _).mpr ⟨hst, s.deadline_le_atDeadline_now, hidx⟩
  exact ⟨hen, plays_sequencer (plays_to_deadline hst) (State.sequencerStep_of_toggleEnabled hen)⟩

/-- Every frame plays to its end branch: entry by entry, the clock waits for the deadline and the sequencer toggles. -/
theorem exists_framePlayed {s : State} (h : SessionInv s) (hst : s.st = .frame) : ∃ t, FramePlayed s t := by
  induction hn : s.trainLen.toNat - s.idx.toNat generalizing s with
  | zero =>
    have hidx : s.idx = s.trainLen := BitVec.eq_of_toNat_eq (Nat.le_antisymm (h.index hst).1 (Nat.sub_eq_zero_iff_le.mp hn))
    exact ⟨_, framePlayed_of_trainEnd h hst hidx⟩
  | succ n ih =>
    have hidx : s.idx.toNat < s.trainLen.toNat := by omega
    obtain ⟨hen, hplays⟩ := plays_toggle hst hidx
    have hinv : SessionInv s.atDeadline.framePollToggle := (h.withNow _).framePollToggle hen
    have hnext : (s.idx + 1#7).toNat = s.idx.toNat + 1 := toNat_add_one_of_lt hidx
    have hsame : SamePlay s s.atDeadline.framePollToggle := (samePlay_later s _).trans (samePlay_framePollToggle _)
    have hst' : s.atDeadline.framePollToggle.st = .frame := (State.framePollToggle_st _).trans hst
    have hidx' : s.atDeadline.framePollToggle.idx = s.idx + 1#7 := State.framePollToggle_idx _
    obtain ⟨t, ht⟩ := ih hinv hst' (by rw [hsame.trainLen, hidx', hnext]; omega)
    refine ⟨t, hplays.trans ht.plays, ht.inv, ht.st, ?framesDone, ?now, hsame.trans ht.same⟩
    case framesDone => exact ht.framesDone.trans (by rw [State.framePollToggle_framesDone]; rfl)
    case now =>
      have hstart : s.atDeadline.framePollToggle.frameStart = s.frameStart := State.framePollToggle_frameStart _
      have hdeadline := h.deadline hst
      have hmono := s.train.sumTo_mono hidx.le
      rw [ht.now, State.framePollToggle_now, s.atDeadline_now, hstart, hsame.train, hsame.trainLen]
      omega

/-! ### A session to its last gap (R84, R92) -/

/-- The state at the end of the gap, or now if the gap has passed. -/
def State.atGapEnd (s : State) : State := s.later (s.gapEnd - s.now)

theorem State.gapEnd_le_atGapEnd_now (s : State) : s.gapEnd ≤ s.atGapEnd.now := by
  have hnow : s.atGapEnd.now = s.now + (s.gapEnd - s.now) := rfl
  omega

theorem State.sequencerStep_of_gapEndEnabled {s : State} (hen : s.gapEndEnabled = true) :
    s.sequencerStep = bif s.framesLeft then s.beginFrame else s.endSession .ok := by
  obtain ⟨htoggle, hend⟩ := State.framePoll_disabled_in_gap (s.gapEndEnabled_iff.mp hen).1
  rw [State.sequencerStep, htoggle, hend, hen, cond_false, cond_false, cond_true, State.gapEndStep]

theorem plays_gapEnd {s : State} (hst : s.st = .gap) (htd : s.tdPending = false) :
    Plays s (bif s.framesLeft then s.atGapEnd.beginFrame else s.atGapEnd.endSession .ok) := by
  have hen : s.atGapEnd.gapEndEnabled = true := (State.gapEndEnabled_iff _).mpr ⟨hst, s.gapEnd_le_atGapEnd_now, htd⟩
  exact plays_sequencer (plays_to_gapEnd hst htd) (State.sequencerStep_of_gapEndEnabled hen)

/-- The end of a played session: the last gap `u` is over, and its end ends the session with OK. -/
structure SessionPlayed (s u : State) : Prop where
  plays : Plays s (u.endSession .ok)
  inv : SessionInv u
  st : u.st = .gap
  done : u.repeatTotal.toNat ≤ u.framesDone.toNat
  same : SamePlay s u

theorem SessionPlayed.of_plays {s t u : State} (h : SessionPlayed t u) (hplays : Plays s t) (hsame : SamePlay s t) :
    SessionPlayed s u :=
  ⟨hplays.trans h.plays, h.inv, h.st, h.done, hsame.trans h.same⟩

/-- From a gap without a teardown the session plays to its end: frame by frame, while frames are left. -/
theorem exists_sessionPlayed_of_gap {s : State} (h : SessionInv s) (hst : s.st = .gap) (htd : s.tdPending = false) :
    ∃ u, SessionPlayed s u := by
  induction hn : s.repeatTotal.toNat - s.framesDone.toNat generalizing s with
  | zero =>
    have hdone : s.repeatTotal.toNat ≤ s.framesDone.toNat := Nat.sub_eq_zero_iff_le.mp hn
    have hplays := plays_gapEnd hst htd
    rw [s.framesLeft_eq_false.mpr hdone, cond_false] at hplays
    exact ⟨s.atGapEnd, hplays, h.withNow _, hst, hdone, samePlay_later s _⟩
  | succ n ih =>
    have hleft : s.framesDone.toNat < s.repeatTotal.toNat := by omega
    have hbusy : s.st ≠ .idle := by simp [hst]
    have hplays := plays_gapEnd hst htd
    rw [s.framesLeft_eq_true.mpr hleft, cond_true] at hplays
    have hsame : SamePlay s s.atGapEnd.beginFrame := (samePlay_later s _).trans (samePlay_beginFrame _)
    have hinv : SessionInv s.atGapEnd.beginFrame :=
      (h.withNow _).beginFrame (h.busy hbusy).1 (h.trainLen_ne_zero hbusy) hleft (h.running hbusy)
    obtain ⟨t, ht⟩ := exists_framePlayed hinv rfl
    have hsame' := hsame.trans ht.same
    have htd' : t.tdPending = false := hsame'.tdPending.trans htd
    have hframes : t.framesDone.toNat = s.framesDone.toNat + 1 := ht.framesDone
    obtain ⟨u, hu⟩ := ih ht.inv ht.st htd' (by rw [hsame'.repeatTotal]; omega)
    exact ⟨u, hu.of_plays (hplays.trans ht.plays) hsame'⟩

/-- Every running session without a teardown plays to its end: the frame that is playing first. -/
theorem exists_sessionPlayed {s : State} (h : SessionInv s) (hbusy : s.st ≠ .idle) (htd : s.tdPending = false) :
    ∃ u, SessionPlayed s u := by
  by_cases hframe : s.st = .frame
  · obtain ⟨t, ht⟩ := exists_framePlayed h hframe
    obtain ⟨u, hu⟩ := exists_sessionPlayed_of_gap ht.inv ht.st (ht.same.tdPending.trans htd)
    exact ⟨u, hu.of_plays ht.plays ht.same⟩
  · exact exists_sessionPlayed_of_gap h ((s.st.ne_frame_iff.mp hframe).resolve_left hbusy) htd

end Sys2Proof.Machine

section Completion

open Sys2Proof Sys2Proof.Machine

/-- Settles O58: the run of the sequencer and the clock that plays the frame is a run of the machine. -/
theorem everyFrameCanRunToItsEnd : Obligations.EveryFrameCanRunToItsEnd := by
  intro s h hst
  obtain ⟨t, ht⟩ := exists_framePlayed h hst
  obtain ⟨turns, hturns, hrun⟩ := exists_run_of_plays ht.plays
  exact ⟨turns, t.withAgenda [], hturns, hrun, ht.st, ht.framesDone, ht.now⟩

/-- Settles O59: the last gap has done as many frames as the session repeats, and its end answers the owner. -/
theorem everySessionCanRunToItsEnd : Obligations.EverySessionCanRunToItsEnd := by
  intro s h hbusy htd
  obtain ⟨u, hu⟩ := exists_sessionPlayed h hbusy htd
  obtain ⟨turns, hturns, hrun⟩ := exists_run_of_plays hu.plays
  have hdone : u.framesDone = s.repeatTotal :=
    (BitVec.eq_of_toNat_eq (Nat.le_antisymm hu.inv.frames hu.done)).trans hu.same.repeatTotal
  have hports : SamePorts s u := ⟨State.requesterAt_eq_of_requesters hu.same.requesters, hu.same.reads⟩
  obtain ⟨howner, hothers, hreads⟩ := (u.endSession_responded .ok).of_samePorts hports
  rw [hu.same.sessOwner] at howner hothers
  exact ⟨turns, (u.endSession .ok).withAgenda [], hturns, hrun, rfl, hu.same.repeatTotal, hdone, rfl,
    hu.inv.quiet (by simp [hu.st]), (hu.inv.busy (by simp [hu.st])).1, ⟨howner, hothers, hreads⟩,
    ⟨fun i => congrArg (·.entry? i) hu.same.train, hu.same.trainLen⟩⟩

end Completion
end
